-- ==== Sys2Proof/Word.lean ====
section
/-! DEFINITION. The widths of the machine: words, bytes, addresses and operand numbers. -/

namespace Sys2Proof

/-- A general register, a CSR, a virtual address or an instruction word: GRLEN = CSRLEN = VALEN = 32 (R4, R55). -/
abbrev Word := BitVec 32

/-- The unit of both memory spaces (R40). -/
abbrev Byte := BitVec 8

/-- A physical address. PALEN is open, 13 to 36 (R4): the type has room for 36 bits, the translation
keeps the low PALEN of them. -/
abbrev PAddr := BitVec 36

/-- A physical page number PA[PALEN-1:12] (R22, R26): room for PALEN = 36. -/
abbrev Ppn := BitVec 24

/-- The number of a general register, operand fields rd, rj, rk (R57). -/
abbrev RegNum := BitVec 5

/-- The number of a CSR, operand field csr_num (R57). -/
abbrev CsrNum := BitVec 14

end Sys2Proof
end

