-- ==== Sys2Proof/Machine/Bits.lean ====
section
/-! DEFINITION. Bit fields, sign extension and byte order: the notation of R5, R7 and R42. -/

namespace Sys2Proof.Machine

/-- The low `n` bits set, of `w` bits. -/
def lowMask (w n : Nat) : BitVec w := BitVec.ofNat w (2 ^ n - 1)

/-- `v[i]` (R5). -/
def getBit (v : Word) (i : Nat) : Bool := v.getLsbD i

/-- `v[lo+len-1:lo]` (R5). -/
def getField (v : Word) (lo len : Nat) : BitVec len := v.extractLsb' lo len

/-- `v` with the field that starts at bit `lo` replaced, every other bit kept. -/
def setField (v : Word) (lo : Nat) {len : Nat} (f : BitVec len) : Word :=
  (v &&& ~~~(lowMask 32 len <<< lo)) ||| (f.setWidth 32 <<< lo)

/-- `v` with bit `i` replaced. -/
def setBit (v : Word) (i : Nat) (b : Bool) : Word := setField v i (BitVec.ofBool b)

/-- `sext_12` (R7). -/
def sext12 (v : BitVec 12) : Word := v.signExtend 32

/-- The number little-endian bytes stand for: the first byte is bits 7:0 (R42). -/
def leNat : List Byte → Nat
  | [] => 0
  | b :: bs => b.toNat + 256 * leNat bs

/-- The `n` little-endian bytes of a number, the lowest first (R42). -/
def leBytes : Nat → Nat → List Byte
  | 0, _ => []
  | n + 1, v => BitVec.ofNat 8 v :: leBytes n (v / 256)

end Sys2Proof.Machine
end

