-- ==== Sys2Proof/Syntax.lean ====
section
/-! DEFINITION. The syntax of the instruction set: one constructor per row of spec/opcode_table.json. -/

namespace Sys2Proof

/-- The eleven privileged instructions (R1, R65). Operands stand in the order of the assembler syntax;
their widths are R57's. -/
inductive Instr where
  /-- `csrrd rd,csr_num` (R70) -/
  | csrrd (rd : RegNum) (csr : CsrNum)
  /-- `csrwr rd,csr_num` (R71) -/
  | csrwr (rd : RegNum) (csr : CsrNum)
  /-- `csrxchg rd,rj,csr_num` (R72) -/
  | csrxchg (rd rj : RegNum) (csr : CsrNum)
  /-- `cacop code,rj,si12` (R80) -/
  | cacop (code : BitVec 5) (rj : RegNum) (si12 : BitVec 12)
  /-- `tlbsrch` (R90) -/
  | tlbsrch
  /-- `tlbrd` (R93) -/
  | tlbrd
  /-- `tlbwr` (R95) -/
  | tlbwr
  /-- `tlbfill` (R96) -/
  | tlbfill
  /-- `invtlb op,rj,rk` (R97) -/
  | invtlb (op : BitVec 5) (rj rk : RegNum)
  /-- `ertn` (R110) -/
  | ertn
  /-- `idle level` (R112) -/
  | idle (level : BitVec 15)
  deriving DecidableEq, Repr

end Sys2Proof
end

