-- ==== Sys2Proof/WellFormed.lean ====
section
/-! DEFINITION. Which instructions have an encoding. -/

namespace Sys2Proof

/-- An instruction is well-formed when R58 gives it a word. Every operand has its field's width by its
type; the one check left is R59's: CSRXCHG cannot name r0 or r1 as its mask register, whose words are
CSRRD's and CSRWR's. INVTLB with op in 7..31 (R61) and every CACOP code (R62) have a word. -/
def Instr.wf : Instr → Bool
  | .csrrd _ _ => true
  | .csrwr _ _ => true
  | .csrxchg _ rj _ => rj != 0#5 && rj != 1#5
  | .cacop _ _ _ => true
  | .tlbsrch => true
  | .tlbrd => true
  | .tlbwr => true
  | .tlbfill => true
  | .invtlb _ _ _ => true
  | .ertn => true
  | .idle _ => true

end Sys2Proof
end

