-- ==== Sys2Proof/Decode.lean ====
section
/-! DEFINITION. The decoder, written from the opcode map R58 and the decode order R59, and the encoder,
written from the encoding formulas of R58. -/

namespace Sys2Proof

open Sys2Proof.Machine

/-- A row of the opcode map R58: a word `w` is the row's when `w & mask = pattern`. -/
structure OpcodeRow where
  pattern : Word
  mask : Word
  deriving DecidableEq, Repr

def OpcodeRow.accepts (r : OpcodeRow) (w : Word) : Bool := w &&& r.mask == r.pattern

/-! The rows of R58, in the table's order. -/

def rowCsrrd : OpcodeRow := { pattern := 0x04000000#32, mask := 0xFF0003E0#32 }
def rowCsrwr : OpcodeRow := { pattern := 0x04000020#32, mask := 0xFF0003E0#32 }
def rowCsrxchg : OpcodeRow := { pattern := 0x04000000#32, mask := 0xFF000000#32 }
def rowCacop : OpcodeRow := { pattern := 0x06000000#32, mask := 0xFFC00000#32 }
def rowTlbsrch : OpcodeRow := { pattern := 0x06482800#32, mask := 0xFFFFFFFF#32 }
def rowTlbrd : OpcodeRow := { pattern := 0x06482C00#32, mask := 0xFFFFFFFF#32 }
def rowTlbwr : OpcodeRow := { pattern := 0x06483000#32, mask := 0xFFFFFFFF#32 }
def rowTlbfill : OpcodeRow := { pattern := 0x06483400#32, mask := 0xFFFFFFFF#32 }
def rowErtn : OpcodeRow := { pattern := 0x06483800#32, mask := 0xFFFFFFFF#32 }
def rowIdle : OpcodeRow := { pattern := 0x06488000#32, mask := 0xFFFF8000#32 }
def rowInvtlb : OpcodeRow := { pattern := 0x06498000#32, mask := 0xFFFF8000#32 }

/-- The rows whose words no other row of the same priority takes (R59: every row but CSRXCHG's). -/
def priorityOneRows : List OpcodeRow :=
  [rowCsrrd, rowCsrwr, rowCacop, rowTlbsrch, rowTlbrd, rowTlbwr, rowTlbfill, rowErtn, rowIdle, rowInvtlb]

/-! The operand fields (R56, R57). -/

def fieldRd (w : Word) : RegNum := getField w 0 5
def fieldRj (w : Word) : RegNum := getField w 5 5
def fieldRk (w : Word) : RegNum := getField w 10 5
def fieldCsr (w : Word) : CsrNum := getField w 10 14
def fieldCode (w : Word) : BitVec 5 := getField w 0 5
def fieldSi12 (w : Word) : BitVec 12 := getField w 10 12
def fieldOp (w : Word) : BitVec 5 := getField w 0 5
def fieldLevel (w : Word) : BitVec 15 := getField w 0 15

/-- Why a run of bytes is no instruction of the model. -/
inductive DecodeReject where
  /-- the word matches no row of R58: out of scope, not illegal (R60, R63) -/
  | outOfScope (w : Word)
  /-- fewer than the four bytes of an instruction (R55) -/
  | truncated
  deriving DecidableEq, Repr

/-- The decoder (R58, R59, R60): total, the rows of priority 1 first, CSRXCHG's after them. -/
def decodeWord (w : Word) : Except DecodeReject Instr :=
  if rowCsrrd.accepts w then .ok (.csrrd (fieldRd w) (fieldCsr w))
  else if rowCsrwr.accepts w then .ok (.csrwr (fieldRd w) (fieldCsr w))
  else if rowCacop.accepts w then .ok (.cacop (fieldCode w) (fieldRj w) (fieldSi12 w))
  else if rowTlbsrch.accepts w then .ok .tlbsrch
  else if rowTlbrd.accepts w then .ok .tlbrd
  else if rowTlbwr.accepts w then .ok .tlbwr
  else if rowTlbfill.accepts w then .ok .tlbfill
  else if rowErtn.accepts w then .ok .ertn
  else if rowIdle.accepts w then .ok (.idle (fieldLevel w))
  else if rowInvtlb.accepts w then .ok (.invtlb (fieldOp w) (fieldRj w) (fieldRk w))
  else if rowCsrxchg.accepts w then .ok (.csrxchg (fieldRd w) (fieldRj w) (fieldCsr w))
  else .error (.outOfScope w)

/-- The instruction at the front of a run of bytes, little-endian (R42, R55), and the bytes after it. -/
def decodeBytes : List Byte → Except DecodeReject (Instr × List Byte)
  | b0 :: b1 :: b2 :: b3 :: rest =>
    match decodeWord (BitVec.ofNat 32 (leNat [b0, b1, b2, b3])) with
    | .ok i => .ok (i, rest)
    | .error r => .error r
  | _ => .error .truncated

/-- The decoder on a row of spec/opcode_table.json: the word as four little-endian bytes. -/
def decodeTableWord (nbits w : Nat) : Option Instr :=
  match decodeBytes (leBytes 4 (w % 2 ^ nbits)) with
  | .ok (i, _) => some i
  | .error _ => none

/-- The encoder: the word of an instruction, from the formulas of R58. -/
def encode : Instr → Word
  | .csrrd rd n => 0x04000000#32 ||| (n.setWidth 32 <<< 10) ||| rd.setWidth 32
  | .csrwr rd n => 0x04000020#32 ||| (n.setWidth 32 <<< 10) ||| rd.setWidth 32
  | .csrxchg rd rj n => 0x04000000#32 ||| (n.setWidth 32 <<< 10) ||| (rj.setWidth 32 <<< 5) ||| rd.setWidth 32
  | .cacop code rj si => 0x06000000#32 ||| (si.setWidth 32 <<< 10) ||| (rj.setWidth 32 <<< 5) ||| code.setWidth 32
  | .tlbsrch => 0x06482800#32
  | .tlbrd => 0x06482C00#32
  | .tlbwr => 0x06483000#32
  | .tlbfill => 0x06483400#32
  | .invtlb op rj rk => 0x06498000#32 ||| (rk.setWidth 32 <<< 10) ||| (rj.setWidth 32 <<< 5) ||| op.setWidth 32
  | .ertn => 0x06483800#32
  | .idle level => 0x06488000#32 ||| level.setWidth 32

/-- The bytes of an instruction as they lie in memory (R42, R55). -/
def encodeBytes (i : Instr) : List Byte := leBytes 4 (encode i).toNat

end Sys2Proof
end

