-- ==== Sys2Proof/Config.lean ====
section
/-! DEFINITION. What an implementation fixes (the OPEN parameters of R4) and the free values: what the
spec leaves to a `draw`. -/

namespace Sys2Proof.Machine

/-- The exceptions of R125. -/
inductive Exc where
  | int | pil | pis | pif | pme | ppi | adef | adem | ale | sys | brk | ine | ipe | fpd | fpe | tlbr
  deriving DecidableEq, Repr

end Sys2Proof.Machine

namespace Sys2Proof

/-- The three caches a CACOP can name (R27, R82). -/
inductive CacheId where
  /-- `Cache[0]`, the level-1 private instruction cache -/
  | l1i
  /-- `Cache[1]`, the level-1 private data cache -/
  | l1d
  /-- `Cache[2]`, the level-2 shared unified cache -/
  | l2
  deriving DecidableEq, Repr

/-- The geometry of one cache (R4): `1<<way` ways of `1<<index` lines of `1<<offset` bytes, and whether
the cache exists (CACHE_PRESENT). -/
structure CacheGeom where
  present : Bool
  way : Nat
  index : Nat
  offset : Nat
  deriving DecidableEq, Repr

/-- IDLE_WAKE, the condition under which an interrupt ends the wait of IDLE (R113). -/
inductive WakeRule where
  /-- instance (a) of R113: any pending interrupt wakes -/
  | anyPending
  /-- instance (b): a pending interrupt whose local enable is set wakes -/
  | locallyEnabled
  /-- instance (c): only an interrupt that will be taken wakes -/
  | taken
  /-- the implementation does not say: all a claim may assume is that (c) implies wake and wake
  implies (a) (R113). Between the two the wake is a free value. -/
  | unstated
  deriving DecidableEq, Repr

/-- CACOP_CUSTOM, the meaning of CACOP with code[4:3] = 3 (R87, U2). -/
inductive CustomRule where
  /-- the model is given no operation: the instruction is refused (R4's default) -/
  | refused
  /-- the implementation defines the operation. What it does to the caches and to memory is a free value,
  `Config.customChanges` (DESIGN CHOICE, log 20) -/
  | defined
  deriving DecidableEq, Repr

/-- One thing an implementation's own cache operation does: U2 says that it may change cache and memory
state in ways the source does not bound. -/
inductive CacheChange where
  /-- the line at a position of a cache becomes this -/
  | line (c : CacheId) (pos : Nat) (tag : PAddr) (valid dirty : Bool) (data : List Byte)
  /-- a position of a cache holds nothing any more -/
  | clear (c : CacheId) (pos : Nat)
  /-- a byte of physical memory is written -/
  | byte (a : PAddr) (b : Byte)
  deriving DecidableEq, Repr

/-- A run of physical addresses at which the platform has memory: `size` bytes from `base` up (R46, D5). -/
structure Region where
  base : Nat
  size : Nat
  deriving DecidableEq, Repr

/-- The platform's own fault behaviour where a fetch finds no memory (R46, D5). -/
inductive UnmappedRule where
  /-- the platform does not say: the step stops by name -/
  | stop
  /-- the platform reports it as this exception, with the pc as the address -/
  | raises (x : Machine.Exc)
  deriving DecidableEq, Repr

/-- The parameters of R4 that the spec leaves OPEN, and the platform's memory map of R46. They are fixed for a
machine: no step changes them. A statement for every state holds for every value of them. -/
structure Params where
  /-- PALEN, physical address width -/
  palen : Nat
  /-- TLBIDXLEN: TLB_ENTRIES = 2 ^ tlbIdxLen -/
  tlbIdxLen : Nat
  /-- PS_LEGAL, the legal page-size exponents -/
  psLegal : List Nat
  /-- `CACHE[0]` -/
  l1i : CacheGeom
  /-- `CACHE[1]` -/
  l1d : CacheGeom
  /-- `CACHE[2]` -/
  l2 : CacheGeom
  /-- CACOP_WB_ONLY_DIRTY (U1): a coherence CACOP writes back dirty lines only -/
  wbOnlyDirty : Bool
  /-- CACOP_CUSTOM -/
  cacopCustom : CustomRule
  /-- IDLE_WAKE -/
  idleWake : WakeRule
  /-- RESET_PC -/
  resetPc : Word
  /-- which physical addresses hold memory (R46, D5) -/
  memMap : List Region
  /-- the platform's fault behaviour at the other ones (R46, D5) -/
  unmapped : UnmappedRule
  deriving DecidableEq, Repr

/-- TLB_ENTRIES, a power of two (R4). -/
def Params.tlbEntries (p : Params) : Nat := 2 ^ p.tlbIdxLen

/-- The geometry of the cache a CACOP names. -/
def Params.geom (p : Params) : CacheId → CacheGeom
  | .l1i => p.l1i
  | .l1d => p.l1d
  | .l2 => p.l2

/-- The bounds R4 and R49 put on the parameters: 13 <= PALEN <= 36, 2 <= TLB_ENTRIES <= 65536, every
legal page-size exponent in 12..30. -/
def Params.wf (p : Params) : Bool :=
  decide (13 ≤ p.palen) && decide (p.palen ≤ 36) && decide (1 ≤ p.tlbIdxLen) && decide (p.tlbIdxLen ≤ 16)
    && p.psLegal.all fun ps => decide (12 ≤ ps) && decide (ps ≤ 30)

/-- The defaults of R4 (PALEN = 32, PS_LEGAL = 12 and 22, CACOP_CUSTOM refused, RESET_PC = 0x1C000000). DESIGN CHOICE (log 8)
where R4 gives none: 16 TLB entries and the cache geometries of spec/95_test_vectors.md, every cache
present, write back of dirty lines only, the wake condition left free, and a platform with memory at every
physical address (log 6). -/
def Params.default : Params where
  palen := 32
  tlbIdxLen := 4
  psLegal := [12, 22]
  l1i := { present := true, way := 1, index := 7, offset := 4 }
  l1d := { present := true, way := 1, index := 7, offset := 4 }
  l2 := { present := true, way := 2, index := 6, offset := 6 }
  wbOnlyDirty := true
  cacopCustom := .refused
  idleWake := .unstated
  resetPc := 0x1C000000#32
  memMap := [{ base := 0, size := 2 ^ 32 }]
  unmapped := .stop

/-! The free values. Each is a constant with no body: a proof about a run holds for every choice. The
first argument is the value of the state's draw counter, so every draw is a fresh value. -/

/-- The index TLBFILL writes is this value modulo TLB_ENTRIES: a draw over every index (R96, D16). -/
opaque Config.freeTlbIndex : Nat → Nat

/-- What a read of a number that names no CSR answers: a draw over all words (R14, D22). -/
opaque Config.freeCsrRead : Nat → Word

/-- Whether INVTLB with op > 6 at PLV3 raises IPE (else INE): a draw (R100, D11). -/
opaque Config.freeIpeOverIne : Nat → Bool

/-- Whether a pending interrupt wakes the core where R113 leaves it open. -/
opaque Config.freeWake : Nat → Bool

/-- Whether a write-back from the level-1 data cache that the level-2 cache takes reaches memory too:
R53 promises neither (log 22). -/
opaque Config.freeReachesMemory : Nat → Bool

/-- What an implementation's own CACOP operation does, on a cache and a virtual address (R87, U2; log 20). -/
opaque Config.customChanges : CacheId → Word → Nat → List CacheChange

/-- What general register `k + 1` holds after a reset event (R151: unspecified). -/
opaque Config.freeResetReg : Nat → Nat → Word

/-- What the CSR of a number holds after a reset event, in the fields R151 leaves unspecified. -/
opaque Config.freeResetCsr : Nat → Nat → Word

/-- What TLB entry `i` holds after a reset event, as four words of fields (R151: unspecified). -/
opaque Config.freeResetTlb : Nat → Nat → Nat → Word

/-- The tag of line `pos` of a cache after a reset event (R151: unspecified). -/
opaque Config.freeResetTag : Nat → CacheId → Nat → PAddr

/-- Bit 0: that line is valid; bit 1: that line is dirty (R151: unspecified). -/
opaque Config.freeResetLineBits : Nat → CacheId → Nat → BitVec 2

/-- Byte `k` of that line (R151: unspecified). -/
opaque Config.freeResetLineByte : Nat → CacheId → Nat → Nat → Byte

end Sys2Proof
end

