-- ==== Sys2Proof/Machine/State.lean ====
section
/-! DEFINITION. The state of the machine as plain data, the reasons a step can stop, and reset. -/

namespace Sys2Proof.Machine

/-- Why a step faults. Closed. -/
inductive Fault where
  /-- Raised by the fetch of `step`: there is no memory at the physical address, and the platform's fault
  behaviour there is not given (R46, D5). Safe: the model stops where a machine may go on (log 6). -/
  | noMemoryAtFetch (pa : PAddr)
  /-- Raised by the fetch of `step`: there is memory at the physical address, and what it holds was neither
  given nor written (R46, D5). Safe: the model stops where a machine goes on (log 6). -/
  | noByteAtFetch (pa : PAddr)
  deriving DecidableEq, Repr

/-- Why the model refuses a step: the spec's `refuse` (R7), each case by its own name. Closed. Every one
is safe: the model stops where a machine may go on. -/
inductive Refusal where
  /-- Raised by `exec` for an instruction whose meaning is not written yet; no arm does so now. -/
  | notModelled (mnemonic : String)
  /-- Raised by the fetch of `step`: the word is none of the eleven instructions (R60, U18; log 25). -/
  | outOfScope (w : Word)
  /-- Raised by `step` and by every meaning while CRMD.PLV is 1 or 2 (U6, D28; log 13). -/
  | illegalPlv
  /-- Raised by `translate`: CRMD.DA and CRMD.PG are both 0 or both 1 (R48, U7; log 14). -/
  | translationMode
  /-- Raised by `translate` and TLBSRCH: more than one TLB entry hits (R48, R90, U9; log 15). -/
  | multipleTlbHits
  /-- Raised where an address is matched against a TLB entry whose PS is not in PS_LEGAL (R49, U8; log 16). -/
  | illegalPageSize
  /-- Raised by CSRRD, CSRWR, CSRXCHG: a CSR that R15 lists and the spec does not model (R14, U11; log 18). -/
  | unmodelledCsr (n : CsrNum)
  /-- Raised by INVTLB with op 4, 5 or 6: bits 31:10 of the ASID register are not 0 (R99, U5; log 17). -/
  | invtlbAsidHighBits
  /-- Raised by CACOP: code[2:0] names no cache of the spec (R82, U3; log 20). -/
  | unnamedCache (code : BitVec 5)
  /-- Raised by CACOP: code[4:3] = 3, the implementation's own operation, where the parameter
  CACOP_CUSTOM gives none (R4, R87, U2; log 20). -/
  | customCacheOp (code : BitVec 5)
  deriving DecidableEq, Repr

/-- The CSRs the spec gives rules for (R15). LLBCTL stores one bit only (R25). -/
inductive Csr where
  | crmd | prmd | ecfg | estat | era | badv | eentry | tlbidx | tlbehi | tlbelo0 | tlbelo1 | asid
  | save0 | save1 | save2 | save3 | llbctl | tlbrentry | dmw0 | dmw1
  deriving DecidableEq, Repr

/-- The stored control and status registers, each a whole 32-bit word (R13); the fields of R16 to R23,
R29 to R31 are read and written through the accessors of Machine/CsrFile.lean. -/
structure Csrs where
  crmd : Word
  prmd : Word
  ecfg : Word
  estat : Word
  era : Word
  badv : Word
  eentry : Word
  tlbidx : Word
  tlbehi : Word
  tlbelo0 : Word
  tlbelo1 : Word
  asid : Word
  save0 : Word
  save1 : Word
  save2 : Word
  save3 : Word
  /-- LLBCTL.KLO, the one stored bit of LLBCTL (R25) -/
  klo : Bool
  tlbrentry : Word
  dmw0 : Word
  dmw1 : Word
  deriving DecidableEq, Repr

/-- One page-table entry of a TLB entry (R26). -/
structure Page where
  v : Bool
  d : Bool
  plv : BitVec 2
  mat : BitVec 2
  ppn : Ppn
  deriving DecidableEq, Repr

/-- One TLB entry: its own valid bit E, and a pair of page-table entries, even and odd (R26). -/
structure TlbEntry where
  e : Bool
  asid : BitVec 10
  g : Bool
  ps : BitVec 6
  vppn : BitVec 19
  page0 : Page
  page1 : Page
  deriving DecidableEq, Repr

/-- A page-table entry with every field 0. -/
def Page.zero : Page := { v := false, d := false, plv := 0#2, mat := 0#2, ppn := 0#24 }

/-- A TLB entry with every field 0: invalid. -/
def TlbEntry.zero : TlbEntry :=
  { e := false, asid := 0#10, g := false, ps := 0#6, vppn := 0#19, page0 := Page.zero, page1 := Page.zero }

/-- What one cache line holds (R27). DESIGN CHOICE (log 21): the tag is the physical address of the
line's first byte, and the valid bit is no part of it. So the line of physical address 0 has a tag of
zeros and may yet be valid: a tag of zeros makes a line invalid only where CACOP stores it (R84). -/
structure CacheLine where
  tag : PAddr
  valid : Bool
  dirty : Bool
  data : List Byte
  deriving DecidableEq, Repr

/-- A line with a tag of zeros, invalid, holding nothing. -/
def CacheLine.zero : CacheLine := { tag := 0#36, valid := false, dirty := false, data := [] }

/-- The lines of one cache that hold something, by position `way * 2^Index + line`, positions rising.
A position not listed holds `CacheLine.zero`. -/
abbrev Cache := List (Nat × CacheLine)

/-- What physical memory is known to hold: (address, byte) pairs, addresses strictly rising. What an
address not listed holds is not known (R46; log 6). Which addresses hold memory is a parameter. -/
abbrev Memory := List Host.Cell

/-- A step of the environment (R32, R131, R150). -/
inductive EnvEvent where
  /-- the interrupt inputs as they are sampled at the next step: pins HWI7..HWI0, the timer's line, the
  inter-processor line (R131) -/
  | lines (hwi : BitVec 8) (ti ipi : Bool)
  /-- the reset event (R150) -/
  | reset
  deriving DecidableEq, Repr

/-- The state of the machine. -/
structure State where
  /-- the parameters of R4 and the memory map of R46; no step changes them (the model's own field, log 8) -/
  params : Params
  /-- `x[1]` to `x[31]` (R11); `x[0]` is not stored -/
  gpr : Vector Word 31
  /-- the program counter (R12) -/
  pc : Word
  /-- the CSRs (R15) -/
  csr : Csrs
  /-- the link flag (R24) -/
  llbit : Bool
  /-- the TLB, entry `i` at place `i` (R26, R91) -/
  tlb : List TlbEntry
  /-- `Cache[0]` (R27) -/
  l1i : Cache
  /-- `Cache[1]` (R27) -/
  l1d : Cache
  /-- `Cache[2]` (R27) -/
  l2 : Cache
  /-- `core.idle` (R28) -/
  idle : Bool
  /-- physical memory (R40) -/
  mem : Memory
  /-- the environment events still to come, the next first (the model's own field, log 9) -/
  env : List EnvEvent
  /-- how many draws have been made (the model's own field, log 10) -/
  draws : Nat
  deriving DecidableEq, Repr

/-- The CSRs right after reset (R151). Where R151 says unspecified the model has 0: DESIGN CHOICE (log 2). -/
def Csrs.atReset : Csrs where
  crmd := 0x00000008#32
  prmd := 0#32
  ecfg := 0#32
  estat := 0#32
  era := 0#32
  badv := 0#32
  eentry := 0#32
  tlbidx := 0#32
  tlbehi := 0#32
  tlbelo0 := 0#32
  tlbelo1 := 0#32
  asid := 0x000A0000#32
  save0 := 0#32
  save1 := 0#32
  save2 := 0#32
  save3 := 0#32
  klo := false
  tlbrentry := 0#32
  dmw0 := 0#32
  dmw1 := 0#32

/-- The machine of the given parameters right after reset (R150, R151), with the memory the platform
gives it (R46, D5). -/
def State.resetWith (p : Params) (m : Memory) : State where
  params := p
  gpr := Vector.replicate 31 0#32
  pc := p.resetPc
  csr := Csrs.atReset
  llbit := false
  tlb := List.replicate p.tlbEntries TlbEntry.zero
  l1i := []
  l1d := []
  l2 := []
  idle := false
  mem := m
  env := []
  draws := 0

/-- The machine right after reset, with the default parameters and nothing known of what memory holds
(R150, R151; log 1 to 6, 8). -/
def State.reset : State := State.resetWith Params.default []

end Sys2Proof.Machine
end

