-- ==== Sys2Proof/Machine/Memory.lean ====
section
/-! DEFINITION. Physical memory: the platform's map, the canonical form, reading and writing one byte, and
the accesses of several bytes built from them. -/

namespace Sys2Proof

/-- Whether a physical address holds memory (R46). -/
def Params.holdsMemory (p : Params) (x : Nat) : Bool :=
  p.memMap.any fun r => decide (r.base ≤ x) && decide (x < r.base + r.size)

/-- Whether the four bytes of a fetch all lie in memory (R44, R46). -/
def Params.holdsWord (p : Params) (x : Nat) : Bool :=
  p.holdsMemory x && p.holdsMemory (x + 1) && p.holdsMemory (x + 2) && p.holdsMemory (x + 3)

/-- The parameters with memory at the four bytes of a fetch, where there was none (R46). -/
def Params.withWordAt (p : Params) (x : Nat) : Params :=
  if p.holdsWord x then p else { p with memMap := { base := x, size := 4 } :: p.memMap }

end Sys2Proof

namespace Sys2Proof.Machine

/-- The canonical form: addresses strictly rising. No address reads as a default byte, so no entry can
equal one. -/
abbrev Memory.wf (m : Memory) : Prop := m.Pairwise fun c d => c.1 < d.1

/-- The byte at a physical address; `none` where it is not known (log 6). -/
def Memory.readByte : Memory → Nat → Option Byte
  | [], _ => none
  | (k, v) :: m, a => if k = a then some v else Memory.readByte m a

/-- Writes one byte, keeping the canonical form. -/
def Memory.writeByte : Memory → Nat → Byte → Memory
  | [], a, b => [(a, b)]
  | (k, v) :: m, a, b =>
    if a < k then (a, b) :: (k, v) :: m
    else if a = k then (a, b) :: m
    else (k, v) :: Memory.writeByte m a b

/-- The `n` bytes from an address up; `none` where one is missing. -/
def Memory.readBytes (m : Memory) : Nat → Nat → Option (List Byte)
  | _, 0 => some []
  | a, n + 1 =>
    match Memory.readByte m a, Memory.readBytes m (a + 1) n with
    | some b, some bs => some (b :: bs)
    | _, _ => none

/-- Writes bytes from an address up. -/
def Memory.writeBytes : Memory → Nat → List Byte → Memory
  | m, _, [] => m
  | m, a, b :: bs => Memory.writeBytes (Memory.writeByte m a b) (a + 1) bs

/-- Writes those bytes from an address up whose address is chosen. -/
def Memory.writeBytesWhere (chosen : Nat → Bool) : Memory → Nat → List Byte → Memory
  | m, _, [] => m
  | m, a, b :: bs => Memory.writeBytesWhere chosen (if chosen a then Memory.writeByte m a b else m) (a + 1) bs

/-- `MemRead(addr, n)` (R7, R42): little-endian. -/
def memRead (m : Memory) (a n : Nat) : Option Nat := (m.readBytes a n).map leNat

/-- `MemWrite(addr, n, v)` (R7, R42): little-endian. -/
def memWrite (m : Memory) (a n v : Nat) : Memory := m.writeBytes a (leBytes n v)

end Sys2Proof.Machine
end

