-- ==== Sys2Proof/Machine/CacheOps.lean ====
section
/-! DEFINITION. The caches: direct index (R83), and the operations a CACOP performs on a line (R84 to
R86). -/

namespace Sys2Proof.Machine

/-- `VA[Way-1:0]` (R83): 0 when Way = 0 (R5). -/
def wayOf (g : CacheGeom) (va : Word) : Nat := va.toNat % 2 ^ g.way

/-- `VA[Index+Offset-1:Offset]` (R83). -/
def lineOf (g : CacheGeom) (va : Word) : Nat := va.toNat / 2 ^ g.offset % 2 ^ g.index

/-- The position of the line that direct address index selects: line number `line` of way `way`. -/
def directPos (g : CacheGeom) (va : Word) : Nat := wayOf g va * 2 ^ g.index + lineOf g va

/-- How many lines the cache has (R27). -/
def lineCount (g : CacheGeom) : Nat := 2 ^ g.way * 2 ^ g.index

/-- The physical address of the first byte of the line that holds an address. -/
def lineBase (g : CacheGeom) (a : PAddr) : PAddr := (a >>> g.offset) <<< g.offset

/-- The line at a position. -/
def Cache.at : Cache → Nat → CacheLine
  | [], _ => CacheLine.zero
  | (k, l) :: c, pos => if k = pos then l else Cache.at c pos

/-- The cache with the line at a position, if it holds something, replaced. -/
def Cache.replace (c : Cache) (pos : Nat) (l : CacheLine) : Cache :=
  c.map fun x => if x.1 = pos then (x.1, l) else x

/-- The cache with a line put at a position, the positions still rising. -/
def Cache.put : Cache → Nat → CacheLine → Cache
  | [], pos, l => [(pos, l)]
  | (k, v) :: c, pos, l =>
    if pos < k then (pos, l) :: (k, v) :: c
    else if pos = k then (pos, l) :: c
    else (k, v) :: Cache.put c pos l

/-- The cache with nothing at a position: tag of zeros, invalid, the data lost (R84). -/
def Cache.erase (c : Cache) (pos : Nat) : Cache := c.filter fun x => x.1 != pos

/-- The position of the valid line for a line address, if the cache holds one (R86). DESIGN CHOICE (log
21): the first valid line whose tag is that address. The valid bit alone says whether a line can hit,
so a valid line of physical address 0, whose tag is zeros, hits. -/
def Cache.findLine (c : Cache) (base : PAddr) : Option Nat :=
  (c.find? fun x => x.2.valid && x.2.tag == base).map (·.1)

/-- `Cache[c]` -/
def State.cache (s : State) : CacheId → Cache
  | .l1i => s.l1i
  | .l1d => s.l1d
  | .l2 => s.l2

def State.setCache (s : State) (c : CacheId) (l : Cache) : State :=
  match c with
  | .l1i => { s with l1i := l }
  | .l1d => { s with l1d := l }
  | .l2 => { s with l2 := l }

/-- Whether a coherence operation writes a valid line back: never for the instruction cache; for the
others always, or when dirty, as the implementation decides (R85, U1). Valid is the valid bit: a tag of
zeros, physical address 0, is written back like any other (DESIGN CHOICE, log 21). -/
def writesBack (p : Params) (c : CacheId) (l : CacheLine) : Bool :=
  c != .l1i && l.valid && (l.dirty || !p.wbOnlyDirty)

/-- Whether a valid line of a cache holds the byte at a physical address. -/
def Cache.holdsByte (c : Cache) (x : Nat) : Bool :=
  c.any fun y => y.2.valid && decide (y.2.tag.toNat ≤ x) && decide (x < y.2.tag.toNat + y.2.data.length)

/-- A valid line takes those of the bytes from address `a` up that are its own; it is dirty then, unless
they reach memory too. -/
def CacheLine.take (l : CacheLine) (a : Nat) (bs : List Byte) (reachesMemory : Bool) : CacheLine :=
  if l.valid && decide (l.tag.toNat < a + bs.length) && decide (a < l.tag.toNat + l.data.length) then
    { l with
      data := l.data.mapIdx fun k b => if a ≤ l.tag.toNat + k then bs.getD (l.tag.toNat + k - a) b else b
      dirty := l.dirty || !reachesMemory }
  else l

/-- A write-back from the level-1 data cache into the level-2 cache, its next level (R85). A byte that
no valid line there holds passes on to memory, and whether the others reach memory too is a free value
(R53; DESIGN CHOICE, log 22). A byte that passes on to an address without memory is lost (log 35). -/
def State.writeToL2 (s : State) (l : CacheLine) : State :=
  let reachesMemory := Config.freeReachesMemory s.draws
  { s with
    l2 := s.l2.map fun y => (y.1, y.2.take l.tag.toNat l.data reachesMemory)
    mem := s.mem.writeBytesWhere (fun x => s.params.holdsMemory x && (reachesMemory || !s.l2.holdsByte x))
      l.tag.toNat l.data
    draws := s.draws + 1 }

/-- `write L.data back to the next level at L's physical address` (R85): the level-2 cache for a line of
the level-1 data cache, where there is one; memory for any other, where the map has memory (R46; log 35). -/
def State.writeNextLevel (s : State) (c : CacheId) (l : CacheLine) : State :=
  if c = .l1d ∧ (s.params.geom .l2).present = true then s.writeToL2 l
  else { s with mem := s.mem.writeBytesWhere s.params.holdsMemory l.tag.toNat l.data }

/-- Write back and invalidate the line at a position (R85, C7: the write-back comes first). -/
def State.writebackInvalidate (s : State) (c : CacheId) (pos : Nat) : State :=
  let l := (s.cache c).at pos
  (if writesBack s.params c l then s.writeNextLevel c l else s).setCache c
    ((s.cache c).replace pos { l with valid := false })

/-- `store_tag` (R84). A cache that is not present has no line to change (R82). -/
def State.storeTag (s : State) (c : CacheId) (va : Word) : State :=
  if (s.params.geom c).present then s.setCache c ((s.cache c).erase (directPos (s.params.geom c) va)) else s

/-- `index_invalidate_writeback` (R85). -/
def State.indexInvalidate (s : State) (c : CacheId) (va : Word) : State :=
  if (s.params.geom c).present then s.writebackInvalidate c (directPos (s.params.geom c) va) else s

/-- The cache part of `hit_invalidate_writeback` (R86): on a hit the same operation, else nothing. -/
def State.hitInvalidate (s : State) (c : CacheId) (a : PAddr) : State :=
  if (s.params.geom c).present then
    match (s.cache c).findLine (lineBase (s.params.geom c) a) with
    | some pos => s.writebackInvalidate c pos
    | none => s
  else s

end Sys2Proof.Machine
end

