-- ==== Sys2Proof/Machine/CsrFile.lean ====
section
/-! DEFINITION. The control and status registers: numbers (R15), write masks and layouts (R14, R16 to
R25, R29 to R31), field accessors, and the access primitives `csr_read` and `csr_write`. -/

namespace Sys2Proof.Machine

/-- The number of a CSR (R15). -/
def Csr.num : Csr → CsrNum
  | .crmd => 0x0#14
  | .prmd => 0x1#14
  | .ecfg => 0x4#14
  | .estat => 0x5#14
  | .era => 0x6#14
  | .badv => 0x7#14
  | .eentry => 0xC#14
  | .tlbidx => 0x10#14
  | .tlbehi => 0x11#14
  | .tlbelo0 => 0x12#14
  | .tlbelo1 => 0x13#14
  | .asid => 0x18#14
  | .save0 => 0x30#14
  | .save1 => 0x31#14
  | .save2 => 0x32#14
  | .save3 => 0x33#14
  | .llbctl => 0x60#14
  | .tlbrentry => 0x88#14
  | .dmw0 => 0x180#14
  | .dmw1 => 0x181#14

/-- Every CSR the spec models, in the order of R15. -/
def modelledCsrs : List Csr :=
  [.crmd, .prmd, .ecfg, .estat, .era, .badv, .eentry, .tlbidx, .tlbehi, .tlbelo0, .tlbelo1, .asid,
   .save0, .save1, .save2, .save3, .llbctl, .tlbrentry, .dmw0, .dmw1]

/-- The numbers R15 lists as not modelled: EUEN, PGDL, PGDH, PGD, CPUID, TID, TCFG, TVAL, TICLR, CTAG. -/
def unmodelledNums : List CsrNum :=
  [0x2#14, 0x19#14, 0x1A#14, 0x1B#14, 0x20#14, 0x40#14, 0x41#14, 0x42#14, 0x44#14, 0x98#14]

/-- What a CSR number names (R14, R15). -/
inductive CsrSlot where
  | modelled (c : Csr)
  | unmodelled
  | undefined
  deriving DecidableEq, Repr

def csrSlot (n : CsrNum) : CsrSlot :=
  match modelledCsrs.find? fun c => c.num == n with
  | some c => .modelled c
  | none => if n ∈ unmodelledNums then .unmodelled else .undefined

/-- The write mask `WM` of each CSR (R14, R16 to R23, R29 to R31). LLBCTL has none:
its write is R25's, and the 0 here stands in no write (log 27). -/
def writeMask (p : Params) : Csr → Word
  | .crmd => 0x000001FF#32
  | .prmd => 0x00000007#32
  | .ecfg => 0x00001BFF#32
  | .estat => 0x00000003#32
  | .era => 0xFFFFFFFF#32
  | .badv => 0xFFFFFFFF#32
  | .eentry => 0xFFFFFFC0#32
  | .tlbidx => 0xBF000000#32 ||| lowMask 32 p.tlbIdxLen
  | .tlbehi => 0xFFFFE000#32
  | .tlbelo0 => lowMask 32 (p.palen - 4) &&& ~~~0x80#32
  | .tlbelo1 => lowMask 32 (p.palen - 4) &&& ~~~0x80#32
  | .asid => 0x000003FF#32
  | .save0 => 0xFFFFFFFF#32
  | .save1 => 0xFFFFFFFF#32
  | .save2 => 0xFFFFFFFF#32
  | .save3 => 0xFFFFFFFF#32
  | .llbctl => 0x00000000#32
  | .tlbrentry => 0xFFFFFFC0#32
  | .dmw0 => 0xEE000039#32
  | .dmw1 => 0xEE000039#32

/-- The bits of each CSR that are not hard-wired (not R0 and not constant): the writable ones, the
status bits of ESTAT that hardware sets (R19), and LLBCTL's KLO and ROLLB (R25). -/
def liveBits (p : Params) : Csr → Word
  | .estat => 0x7FFF1BFF#32
  | .llbctl => 0x00000005#32
  | c => writeMask p c

/-- What the hard-wired bits of each CSR read: 0, and 10 in ASID.ASIDBITS (R20). -/
def wiredBits : Csr → Word
  | .asid => 0x000A0000#32
  | _ => 0#32

/-- The 32-bit value of a CSR (R14); LLBCTL's is `{KLO, 0, LLbit}` (R25). -/
def State.readCsr (s : State) : Csr → Word
  | .crmd => s.csr.crmd
  | .prmd => s.csr.prmd
  | .ecfg => s.csr.ecfg
  | .estat => s.csr.estat
  | .era => s.csr.era
  | .badv => s.csr.badv
  | .eentry => s.csr.eentry
  | .tlbidx => s.csr.tlbidx
  | .tlbehi => s.csr.tlbehi
  | .tlbelo0 => s.csr.tlbelo0
  | .tlbelo1 => s.csr.tlbelo1
  | .asid => s.csr.asid
  | .save0 => s.csr.save0
  | .save1 => s.csr.save1
  | .save2 => s.csr.save2
  | .save3 => s.csr.save3
  | .llbctl => setBit (setBit 0#32 2 s.csr.klo) 0 s.llbit
  | .tlbrentry => s.csr.tlbrentry
  | .dmw0 => s.csr.dmw0
  | .dmw1 => s.csr.dmw1

/-- Stores a whole word into a CSR, as hardware does. LLBCTL takes KLO from bit 2 and clears LLbit where
bit 1 is set (R25). -/
def State.putCsr (s : State) (c : Csr) (v : Word) : State :=
  match c with
  | .crmd => { s with csr := { s.csr with crmd := v } }
  | .prmd => { s with csr := { s.csr with prmd := v } }
  | .ecfg => { s with csr := { s.csr with ecfg := v } }
  | .estat => { s with csr := { s.csr with estat := v } }
  | .era => { s with csr := { s.csr with era := v } }
  | .badv => { s with csr := { s.csr with badv := v } }
  | .eentry => { s with csr := { s.csr with eentry := v } }
  | .tlbidx => { s with csr := { s.csr with tlbidx := v } }
  | .tlbehi => { s with csr := { s.csr with tlbehi := v } }
  | .tlbelo0 => { s with csr := { s.csr with tlbelo0 := v } }
  | .tlbelo1 => { s with csr := { s.csr with tlbelo1 := v } }
  | .asid => { s with csr := { s.csr with asid := v } }
  | .save0 => { s with csr := { s.csr with save0 := v } }
  | .save1 => { s with csr := { s.csr with save1 := v } }
  | .save2 => { s with csr := { s.csr with save2 := v } }
  | .save3 => { s with csr := { s.csr with save3 := v } }
  | .llbctl => { s with csr := { s.csr with klo := getBit v 2 }, llbit := s.llbit && !getBit v 1 }
  | .tlbrentry => { s with csr := { s.csr with tlbrentry := v } }
  | .dmw0 => { s with csr := { s.csr with dmw0 := v } }
  | .dmw1 => { s with csr := { s.csr with dmw1 := v } }

/-- The word a software write of `v` leaves in a CSR that holds `old`: the writable bits of `v`, the
other bits of `old` (R14). -/
def maskedWrite (p : Params) (c : Csr) (v old : Word) : Word :=
  (v &&& writeMask p c) ||| (old &&& ~~~writeMask p c)

/-- `csr_write` on a modelled CSR (R14, R25). -/
def State.writeCsr (s : State) (c : Csr) (v : Word) : State :=
  match c with
  | .llbctl => s.putCsr .llbctl v
  | c => s.putCsr c (maskedWrite s.params c v (s.readCsr c))

/-! The fields the rules name. -/

/-- CRMD.PLV (R16) -/
def State.plv (s : State) : BitVec 2 := getField s.csr.crmd 0 2
/-- CRMD.IE -/
def State.ie (s : State) : Bool := getBit s.csr.crmd 2
/-- CRMD.DA -/
def State.da (s : State) : Bool := getBit s.csr.crmd 3
/-- CRMD.PG -/
def State.pg (s : State) : Bool := getBit s.csr.crmd 4
/-- PRMD.PPLV (R17) -/
def State.pplv (s : State) : BitVec 2 := getField s.csr.prmd 0 2
/-- PRMD.PIE -/
def State.pie (s : State) : Bool := getBit s.csr.prmd 2
/-- ESTAT.Ecode (R19) -/
def State.ecode (s : State) : BitVec 6 := getField s.csr.estat 16 6
/-- ESTAT.EsubCode -/
def State.esubcode (s : State) : BitVec 9 := getField s.csr.estat 22 9
/-- ASID.ASID (R20) -/
def State.asid (s : State) : BitVec 10 := getField s.csr.asid 0 10
/-- TLBEHI.VPPN (R21) -/
def State.vppn (s : State) : BitVec 19 := getField s.csr.tlbehi 13 19
/-- TLBIDX.Index, bits n-1:0 (R23) -/
def State.tlbIndex (s : State) : Nat := s.csr.tlbidx.toNat % 2 ^ s.params.tlbIdxLen
/-- TLBIDX.PS -/
def State.tlbPs (s : State) : BitVec 6 := getField s.csr.tlbidx 24 6
/-- TLBIDX.NE -/
def State.ne (s : State) : Bool := getBit s.csr.tlbidx 31

/-- A TLBIDX word with its Index field replaced (R23). -/
def setTlbIndex (p : Params) (w : Word) (i : Nat) : Word :=
  (w &&& ~~~lowMask 32 p.tlbIdxLen) ||| (BitVec.ofNat 32 i &&& lowMask 32 p.tlbIdxLen)

/-- `draw`: the next draw is a fresh value (log 10). -/
def State.tick (s : State) : State := { s with draws := s.draws + 1 }

/-- `csr_read` (R14): the value and the state after; a number that names no CSR answers a free value, a
number the spec lists and does not model is refused. -/
def csrRead (n : CsrNum) (s : State) : Except Refusal (Word × State) :=
  match csrSlot n with
  | .modelled c => .ok (s.readCsr c, s)
  | .unmodelled => .error (.unmodelledCsr n)
  | .undefined => .ok (Config.freeCsrRead s.draws, s.tick)

/-- `csr_write` (R14): a number that names no CSR changes nothing. -/
def csrWrite (n : CsrNum) (v : Word) (s : State) : State :=
  match csrSlot n with
  | .modelled c => s.writeCsr c v
  | .unmodelled => s
  | .undefined => s

end Sys2Proof.Machine
end

