-- ==== Sys2Proof/Machine/Flags.lean ====
section
/-! DEFINITION. The machine has no condition codes (10_state.md B3). What stands in their place: the bits
that instructions compute or consult: the pending interrupts (R132, R133), the wake condition (R113), the
E bit a TLB write gives (R95), and the privilege check (R122). -/

namespace Sys2Proof.Machine

/-- The interrupt lines that exist: IS[12:0] but bit 10 (R131). -/
def interruptLines : BitVec 13 := 0x1BFF#13

/-- `ESTAT.IS[12:0]` (R19, R131) -/
def State.pending (s : State) : BitVec 13 := getField s.csr.estat 0 13 &&& interruptLines

/-- `int_vec` (R132) -/
def State.intVec (s : State) : BitVec 13 := s.pending &&& getField s.csr.ecfg 0 13

/-- Whether an interrupt is taken at the start of a step (R133). -/
def State.takesInterrupt (s : State) : Bool := s.ie && s.intVec != 0#13

/-- IDLE_WAKE (R113): the three admissible instances, or, where the implementation does not say, a free
value between the strongest and the weakest of them. -/
def State.wakes (s : State) : Bool :=
  match s.params.idleWake with
  | .anyPending => s.pending != 0#13
  | .locallyEnabled => s.intVec != 0#13
  | .taken => s.takesInterrupt
  | .unstated => s.takesInterrupt || (s.pending != 0#13 && Config.freeWake s.draws)

/-- The E bit TLBWR and TLBFILL write (R95): 1 while a TLB refill is handled, else NE inverted. -/
def State.writtenE (s : State) : Bool := s.ecode == 0x3F#6 || !s.ne

/-- What the privilege check of R122 finds: PLV0, PLV3, or a value that denotes no level (U6). -/
inductive Level where
  | plv0 | plv3 | illegal
  deriving DecidableEq, Repr

def State.level (s : State) : Level :=
  if s.plv = 0#2 then .plv0 else if s.plv = 3#2 then .plv3 else .illegal

end Sys2Proof.Machine
end

