-- ==== Sys2Proof/Machine/Tlb.lean ====
section
/-! DEFINITION. The TLB: packing to and from the TLB CSRs (R94, R95), the match predicate (R49), the
search (R48, R90), and address translation (R48). -/

namespace Sys2Proof.Machine

/-- The page-table entry a TLBELO word holds (R22, R95). PPN is bits PALEN-5:8. -/
def Page.ofElo (p : Params) (w : Word) : Page where
  v := getBit w 0
  d := getBit w 1
  plv := getField w 2 2
  mat := getField w 4 2
  ppn := getField w 8 24 &&& lowMask 24 (p.palen - 12)

/-- TLBELO.G (R22) -/
def eloG (w : Word) : Bool := getBit w 6

/-- `elo` (R94): the TLBELO word of a page-table entry and the entry's G. -/
def eloWord (p : Params) (pg : Page) (g : Bool) : Word :=
  (pg.ppn &&& lowMask 24 (p.palen - 12)) ++ 0#1 ++ BitVec.ofBool g ++ pg.mat ++ pg.plv ++ BitVec.ofBool pg.d
    ++ BitVec.ofBool pg.v

/-- The 32-bit word with VPPN in bits 31:13 and zeros below (R49). -/
def vppnWord (vppn : BitVec 19) : Word := vppn ++ 0#13

/-- The entry the TLB CSRs describe (R95); `valid` is its E bit. -/
def State.csrEntry (s : State) (valid : Bool) : TlbEntry where
  e := valid
  asid := s.asid
  g := eloG s.csr.tlbelo0 && eloG s.csr.tlbelo1
  ps := s.tlbPs
  vppn := s.vppn
  page0 := Page.ofElo s.params s.csr.tlbelo0
  page1 := Page.ofElo s.params s.csr.tlbelo1

/-- `tlb_va_match` (R49): the bits above the page pair agree. Refused where PS is not legal (U8). -/
def tlbVaMatch (p : Params) (e : TlbEntry) (va : Word) : Except Refusal Bool :=
  if e.ps.toNat ∈ p.psLegal then .ok (va >>> (e.ps.toNat + 1) == vppnWord e.vppn >>> (e.ps.toNat + 1))
  else .error .illegalPageSize

/-- `tlb_hit` (R49). Its conditions are taken in order, so PS is looked at only in a valid entry that is
global or of the given ASID (log 16). -/
def tlbHit (p : Params) (e : TlbEntry) (va : Word) (asid : BitVec 10) : Except Refusal Bool :=
  if e.e && (e.g || e.asid == asid) then tlbVaMatch p e va else .ok false

/-- The indices of the entries that hit, the list's first entry being number `i`. -/
def tlbHitsFrom (p : Params) (va : Word) (asid : BitVec 10) : Nat → List TlbEntry → Except Refusal (List Nat)
  | _, [] => .ok []
  | i, e :: es =>
    match tlbHit p e va asid, tlbHitsFrom p va asid (i + 1) es with
    | .error r, _ => .error r
    | .ok _, .error r => .error r
    | .ok hit, .ok is => .ok (if hit then i :: is else is)

/-- The outcome of a search. -/
inductive Lookup where
  | miss
  | hit (i : Nat)
  | refuse (r : Refusal)
  deriving DecidableEq, Repr

/-- The set H of R48 and R90: empty, one member, or refused (U9). -/
def State.tlbLookup (s : State) (va : Word) (asid : BitVec 10) : Lookup :=
  match tlbHitsFrom s.params va asid 0 s.tlb with
  | .error r => .refuse r
  | .ok [] => .miss
  | .ok [i] => .hit i
  | .ok (_ :: _ :: _) => .refuse .multipleTlbHits

/-- `TLB[i]`. Every index a rule forms is below TLB_ENTRIES; the answer beyond is never used (log 30). -/
def State.tlbAt (s : State) (i : Nat) : TlbEntry := s.tlb.getD i TlbEntry.zero

/-- The kinds of access `Translate` tells apart (R48). -/
inductive Access where
  | fetch | load | store
  deriving DecidableEq, Repr

/-- What `Translate` answers; a raised exception records the virtual address. -/
inductive Xlate where
  | pa (a : PAddr)
  | raise (x : Exc)
  | refuse (r : Refusal)
  deriving DecidableEq, Repr

/-- A value kept to PALEN bits (R48). -/
def toPhys (p : Params) (a : PAddr) : PAddr := a &&& lowMask 36 p.palen

/-- Whether a direct mapping window takes an address at a privilege level (R30, R48). -/
def windowTakes (w va : Word) (plv : BitVec 2) : Bool :=
  getField va 29 3 == getField w 29 3 && ((plv == 0#2 && getBit w 0) || (plv == 3#2 && getBit w 3))

/-- The address a window maps to: `{PSEG, va[28:0]}` (R48). -/
def windowAddr (w va : Word) : PAddr := (getField w 25 3 ++ getField va 0 29).setWidth 36

/-- The page of the pair that an address falls in: `va[PS]` picks it (R48). -/
def TlbEntry.pageOf (e : TlbEntry) (va : Word) : Page := if getBit va e.ps.toNat then e.page1 else e.page0

/-- `{PPN[PALEN-13 : PS-12], va[PS-1 : 0]}` (R48). -/
def pageAddr (p : Params) (ps : Nat) (ppn : Ppn) (va : Word) : PAddr :=
  (((ppn &&& lowMask 24 (p.palen - 12)).setWidth 36 >>> (ps - 12)) <<< ps) ||| (va.setWidth 36 &&& lowMask 36 ps)

/-- The exception of an invalid page, by the kind of access (R48). -/
def Access.invalidPage : Access → Exc
  | .fetch => .pif
  | .load => .pil
  | .store => .pis

/-- The checks and the address of a page that was found, in R48's order: V, privilege, D. -/
def pageAccess (p : Params) (plv : BitVec 2) (e : TlbEntry) (va : Word) (k : Access) : Xlate :=
  let pg := e.pageOf va
  if !pg.v then .raise k.invalidPage
  else if pg.plv < plv then .raise .ppi
  else if k = .store ∧ pg.d = false then .raise .pme
  else .pa (toPhys p (pageAddr p e.ps.toNat pg.ppn va))

/-- `Translate(va, kind)` (R48). -/
def translate (s : State) (va : Word) (k : Access) : Xlate :=
  if s.da && !s.pg then .pa (toPhys s.params (va.setWidth 36))
  else if !s.da && s.pg then
    if windowTakes s.csr.dmw0 va s.plv then .pa (toPhys s.params (windowAddr s.csr.dmw0 va))
    else if windowTakes s.csr.dmw1 va s.plv then .pa (toPhys s.params (windowAddr s.csr.dmw1 va))
    else
      match s.tlbLookup va s.asid with
      | .miss => .raise .tlbr
      | .refuse r => .refuse r
      | .hit i => pageAccess s.params s.plv (s.tlbAt i) va k
  else .refuse .translationMode

/-- TLBRD's reading of an entry into the CSRs, and of an invalid one (R93). -/
def State.readTlbEntry (s : State) (e : TlbEntry) : State :=
  if e.e then
    { s with csr := { s.csr with
        tlbehi := vppnWord e.vppn
        tlbelo0 := eloWord s.params e.page0 e.g
        tlbelo1 := eloWord s.params e.page1 e.g
        tlbidx := setBit (setField s.csr.tlbidx 24 e.ps) 31 false
        asid := setField s.csr.asid 0 e.asid } }
  else
    { s with csr := { s.csr with
        tlbehi := 0#32
        tlbelo0 := 0#32
        tlbelo1 := 0#32
        tlbidx := setBit (setField s.csr.tlbidx 24 0#6) 31 true
        asid := setField s.csr.asid 0 0#10 } }

end Sys2Proof.Machine
end

