-- ==== Sys2Proof/Machine/Ops.lean ====
section
/-! DEFINITION. The shared operations of the machine: general registers and the pc, the privilege check,
taking an exception and returning from one, fetching, the environment's events. -/

namespace Sys2Proof.Machine

/-- `x[i]` (R11): `x[0]` reads as 0. -/
def State.readReg (s : State) (r : RegNum) : Word :=
  if r = 0#5 then 0#32 else s.gpr[r.toNat - 1]'(by omega)

/-- `x[i] <- v` (R11): a write to `x[0]` is discarded. -/
def State.writeReg (s : State) (r : RegNum) (v : Word) : State :=
  if r = 0#5 then s else { s with gpr := s.gpr.set (r.toNat - 1) v (by omega) }

/-- `pc <- pc + 4` modulo 2^32 (R8, R12). -/
def State.advance (s : State) : State := { s with pc := s.pc + 4#32 }

/-! Taking an exception, and returning from one. -/

/-- ESTAT.Ecode of an exception (R125) -/
def Exc.ecode : Exc → BitVec 6
  | .int => 0x0#6
  | .pil => 0x1#6
  | .pis => 0x2#6
  | .pif => 0x3#6
  | .pme => 0x4#6
  | .ppi => 0x7#6
  | .adef => 0x8#6
  | .adem => 0x8#6
  | .ale => 0x9#6
  | .sys => 0xB#6
  | .brk => 0xC#6
  | .ine => 0xD#6
  | .ipe => 0xE#6
  | .fpd => 0xF#6
  | .fpe => 0x12#6
  | .tlbr => 0x3F#6

/-- ESTAT.EsubCode of an exception (R125) -/
def Exc.esubcode : Exc → BitVec 9
  | .adem => 1#9
  | _ => 0#9

/-- Whether an exception records its page number in TLBEHI.VPPN (R128, R136) -/
def Exc.recordsVppn : Exc → Bool
  | .tlbr | .pil | .pis | .pif | .pme | .ppi => true
  | .int | .adef | .adem | .ale | .sys | .brk | .ine | .ipe | .fpd | .fpe => false

/-- Whether an exception records the address in BADV (R136) -/
def Exc.recordsBadv : Exc → Bool
  | .adef | .adem | .ale => true
  | x => x.recordsVppn

/-- Where an exception goes: TLBRENTRY for TLB refill, EENTRY for every other (R136, R137). -/
def State.entryOf (s : State) (x : Exc) : Word :=
  (if x = .tlbr then s.csr.tlbrentry else s.csr.eentry) &&& 0xFFFFFFC0#32

/-- CRMD at exception entry: PLV and IE 0; direct address mode for TLB refill (R136). -/
def entryCrmd (x : Exc) (crmd : Word) : Word :=
  let w := setBit (setField crmd 0 0#2) 2 false
  if x = .tlbr then setBit (setBit w 3 true) 4 false else w

/-- Trap entry (R136), for an exception and for an interrupt: the pc is the raising instruction's, or
that of the instruction not executed. `badv` is used only by the exceptions that record an address. -/
def State.takeException (s : State) (x : Exc) (badv : Word) : State :=
  { s with
    csr := { s.csr with
      prmd := setBit (setField s.csr.prmd 0 s.plv) 2 s.ie
      crmd := entryCrmd x s.csr.crmd
      era := s.pc
      estat := setField (setField s.csr.estat 16 x.ecode) 22 x.esubcode
      badv := if x.recordsBadv then badv else s.csr.badv
      tlbehi := if x.recordsVppn then setField s.csr.tlbehi 13 (getField badv 13 19) else s.csr.tlbehi }
    pc := s.entryOf x }

/-- Trap entry of an exception that records no address (R125, R136). -/
def State.raise (s : State) (x : Exc) : State := s.takeException x 0#32

/-- CRMD after ERTN: PLV and IE from PRMD, and mapped mode again after a TLB refill (R110, D19). -/
def State.returnCrmd (s : State) : Word :=
  let w := setBit (setField s.csr.crmd 0 s.pplv) 2 s.pie
  if s.ecode = 0x3F#6 then setBit (setBit w 3 false) 4 true else w

/-- The return from an exception (R110, R111): LLbit is cleared unless KLO = 1, and then KLO is. -/
def State.exceptionReturn (s : State) : State :=
  { s with
    csr := { s.csr with crmd := s.returnCrmd, klo := false }
    llbit := s.csr.klo && s.llbit
    pc := s.csr.era }

/-! The privilege check. -/

/-- The check of R122 in front of an instruction only PLV0 may execute: IPE at PLV3 (R126), a refusal
where CRMD.PLV denotes no level (U6). -/
def State.atPlv0 (s : State) (body : Host.Outcome State Fault Refusal) : Host.Outcome State Fault Refusal :=
  match s.level with
  | .plv0 => body
  | .plv3 => .next (s.raise .ipe)
  | .illegal => .refused .illegalPlv

/-- The check of R122 in front of a Hit-class CACOP: either level may execute it (R88). -/
def State.atAnyPlv (s : State) (body : Host.Outcome State Fault Refusal) : Host.Outcome State Fault Refusal :=
  match s.level with
  | .plv0 => body
  | .plv3 => body
  | .illegal => .refused .illegalPlv

/-! The fetch. -/

/-- What a fetch gives; an exception it raises records the pc (R44). -/
inductive Fetched where
  | instr (i : Instr)
  | raise (x : Exc)
  | fault (f : Fault)
  | refuse (r : Refusal)
  deriving DecidableEq, Repr

/-- What a fetch gives where there is no memory: what the platform says (R46, D5; log 6). -/
def fetchUnmapped (p : Params) (a : PAddr) : Fetched :=
  match p.unmapped with
  | .stop => .fault (.noMemoryAtFetch a)
  | .raises x => .raise x

/-- The instruction in the four bytes at a physical address (R42, R44, R46, R60). -/
def fetchAt (p : Params) (m : Memory) (a : PAddr) : Fetched :=
  if p.holdsWord a.toNat then
    match memRead m a.toNat 4 with
    | none => .fault (.noByteAtFetch a)
    | some w =>
      match decodeWord (BitVec.ofNat 32 w) with
      | .ok i => .instr i
      | .error _ => .refuse (.outOfScope (BitVec.ofNat 32 w))
  else fetchUnmapped p a

/-- Instruction fetch (R44): the alignment of the pc, the translation, the word. -/
def fetch (s : State) : Fetched :=
  if getField s.pc 0 2 ≠ 0#2 then .raise .adef
  else
    match translate s s.pc .fetch with
    | .pa a => fetchAt s.params s.mem a
    | .raise x => .raise x
    | .refuse r => .refuse r

/-- The physical address the word at the pc is placed at: where the fetch looks for it. -/
def State.fetchAddr (s : State) : PAddr :=
  match translate s s.pc .fetch with
  | .pa a => a
  | .raise _ => toPhys s.params (s.pc.setWidth 36)
  | .refuse _ => toPhys s.params (s.pc.setWidth 36)

/-! The implementation's own cache operation (R87). -/

/-- One change the operation makes, as the hardware can hold it: a position of a cache that is present,
a tag that is the address of a line, the bytes of one line, an address of PALEN bits where the map has
memory (R46). What does not fit changes nothing. -/
def State.applyChange (s : State) : CacheChange → State
  | .line c pos tag valid dirty data =>
    let g := s.params.geom c
    if g.present && decide (pos < lineCount g) then
      s.setCache c ((s.cache c).put pos
        { tag := lineBase g (toPhys s.params tag), valid := valid, dirty := dirty,
          data := (List.range (2 ^ g.offset)).map fun k => data.getD k 0#8 })
    else s
  | .clear c pos => if (s.params.geom c).present then s.setCache c ((s.cache c).erase pos) else s
  | .byte a b =>
    { s with mem := if s.params.holdsMemory (toPhys s.params a).toNat
                    then s.mem.writeByte (toPhys s.params a).toNat b else s.mem }

/-- `CACOP_CUSTOM(c, VA)` where the implementation defines it (R87, U2): free changes of the caches and
of memory, and nothing else (DESIGN CHOICE, log 20). On a cache that is not present it does nothing (R82). -/
def State.customCacop (s : State) (c : CacheId) (va : Word) : State :=
  if (s.params.geom c).present then ((Config.customChanges c va s.draws).foldl State.applyChange s).tick else s

/-! The environment. -/

/-- The interrupt inputs sampled into ESTAT.IS[9:2], IS[11], IS[12] (R19, R131). -/
def State.sampleLines (s : State) (hwi : BitVec 8) (ti ipi : Bool) : State :=
  { s with csr := { s.csr with estat := setBit (setBit (setField s.csr.estat 2 hwi) 11 ti) 12 ipi } }

/-- The state in which the core's next step runs: the next event's inputs sampled, if it brings any. -/
def State.sampled (s : State) : State :=
  match s.env with
  | .lines hwi ti ipi :: env => { s with env := env }.sampleLines hwi ti ipi
  | .reset :: _ => s
  | [] => s

/-- A free word in the fields of a CSR that reset leaves unspecified, `known` in the others (R151). -/
def freeFields (d : Nat) (c : Csr) (mask known : Word) : Word :=
  (Config.freeResetCsr d c.num.toNat &&& mask) ||| (known &&& ~~~mask)

/-- The CSRs after a reset event (R151). ESTAT keeps its sampled inputs. -/
def State.csrsAfterReset (s : State) : Csrs :=
  let p := s.params
  let d := s.draws
  { crmd := 0x00000008#32
    prmd := freeFields d .prmd (writeMask p .prmd) 0#32
    ecfg := 0#32
    estat := freeFields d .estat 0x7FFF0000#32 (s.csr.estat &&& 0x00001BFC#32)
    era := freeFields d .era (writeMask p .era) 0#32
    badv := freeFields d .badv (writeMask p .badv) 0#32
    eentry := freeFields d .eentry (writeMask p .eentry) 0#32
    tlbidx := freeFields d .tlbidx (writeMask p .tlbidx) 0#32
    tlbehi := freeFields d .tlbehi (writeMask p .tlbehi) 0#32
    tlbelo0 := freeFields d .tlbelo0 (writeMask p .tlbelo0) 0#32
    tlbelo1 := freeFields d .tlbelo1 (writeMask p .tlbelo1) 0#32
    asid := freeFields d .asid (writeMask p .asid) 0x000A0000#32
    save0 := freeFields d .save0 (writeMask p .save0) 0#32
    save1 := freeFields d .save1 (writeMask p .save1) 0#32
    save2 := freeFields d .save2 (writeMask p .save2) 0#32
    save3 := freeFields d .save3 (writeMask p .save3) 0#32
    klo := false
    tlbrentry := freeFields d .tlbrentry (writeMask p .tlbrentry) 0#32
    dmw0 := freeFields d .dmw0 0xEE000030#32 0#32
    dmw1 := freeFields d .dmw1 0xEE000030#32 0#32 }

/-- A TLB entry after a reset event: every field free, E included (R151). -/
def freeTlbEntry (p : Params) (d i : Nat) : TlbEntry :=
  let w := Config.freeResetTlb d i 0
  { e := getBit w 0
    asid := getField w 1 10
    g := getBit w 11
    ps := getField w 12 6
    vppn := getField (Config.freeResetTlb d i 1) 0 19
    page0 := Page.ofElo p (Config.freeResetTlb d i 2)
    page1 := Page.ofElo p (Config.freeResetTlb d i 3) }

/-- A cache line after a reset event: everything free, the tag the address of a line of physical memory
(R151; log 21). The valid bit is free whatever the tag, so a line with a tag of zeros may be valid
(DESIGN CHOICE, log 21). -/
def freeLine (p : Params) (d : Nat) (c : CacheId) (pos : Nat) : CacheLine :=
  { tag := lineBase (p.geom c) (toPhys p (Config.freeResetTag d c pos))
    valid := (Config.freeResetLineBits d c pos).getLsbD 0
    dirty := (Config.freeResetLineBits d c pos).getLsbD 1
    data := (List.range (2 ^ (p.geom c).offset)).map fun k => Config.freeResetLineByte d c pos k }

/-- A cache after a reset event: every line free; none where the cache is not present. -/
def freeCache (p : Params) (d : Nat) (c : CacheId) : Cache :=
  if (p.geom c).present then (List.range (lineCount (p.geom c))).map fun pos => (pos, freeLine p d c pos)
  else []

/-- The reset event (R150, R151): what R151 defines takes its value, what it leaves unspecified is free,
and memory, the platform's, stays (log 12). -/
def State.resetEvent (s : State) : State where
  params := s.params
  gpr := Vector.ofFn fun i => Config.freeResetReg s.draws i
  pc := s.params.resetPc
  csr := s.csrsAfterReset
  llbit := false
  tlb := (List.range s.params.tlbEntries).map fun i => freeTlbEntry s.params s.draws i
  l1i := freeCache s.params s.draws .l1i
  l1d := freeCache s.params s.draws .l1d
  l2 := freeCache s.params s.draws .l2
  idle := false
  mem := s.mem
  env := s.env
  draws := s.draws + 1

/-- One step of the waiting core (R113): woken, it fetches again from the next step on; else it waits.
`already` says that the wake condition held before the inputs of this step were sampled: it did when IDLE
executed, and the core leaves the wait at once (R112). -/
def State.waitStep (s : State) (already : Bool) : State := { s.tick with idle := !(already || s.wakes) }

end Sys2Proof.Machine
end

