-- ==== Sys2Proof/Machine/Operands.lean ====
section
/-! DEFINITION. The operand forms: CACOP's code and address (R80 to R82), INVTLB's op and register
operands (R97 to R99). -/

namespace Sys2Proof.Machine

/-- The operation `code[4:3]` names (R84 to R87; C2: 3 is the custom one). -/
inductive CacopKind where
  | storeTag | indexInvalidate | hitInvalidate | custom
  deriving DecidableEq, Repr

def cacopKind (code : BitVec 5) : CacopKind :=
  match (code.extractLsb' 3 2).toNat with
  | 0 => .storeTag
  | 1 => .indexInvalidate
  | 2 => .hitInvalidate
  | _ => .custom

/-- The cache `code[2:0]` names (R82); 3 to 7 name none (U3). -/
def cacopCache (code : BitVec 5) : Option CacheId :=
  match (code.extractLsb' 0 3).toNat with
  | 0 => some .l1i
  | 1 => some .l1d
  | 2 => some .l2
  | _ => none

/-- CACOP's virtual address: `x[rj] + sext_12(si12)` modulo 2^32 (R81). -/
def cacopVa (s : State) (rj : RegNum) (si12 : BitVec 12) : Word := s.readReg rj + sext12 si12

/-- The operations of INVTLB (R98). -/
inductive InvOp where
  /-- op 0: all entries -/
  | all
  /-- op 1: all entries -/
  | allToo
  /-- op 2: G = 1 -/
  | global
  /-- op 3: G = 0 -/
  | nonGlobal
  /-- op 4: G = 0 and the ASID -/
  | asid
  /-- op 5: G = 0, the ASID and the VA -/
  | asidVa
  /-- op 6: G = 1 or the ASID, and the VA -/
  | globalOrAsidVa
  deriving DecidableEq, Repr

/-- The operation an op names; 7 to 31 name none (R61, R100). -/
def invOp (op : BitVec 5) : Option InvOp :=
  match op.toNat with
  | 0 => some .all
  | 1 => some .allToo
  | 2 => some .global
  | 3 => some .nonGlobal
  | 4 => some .asid
  | 5 => some .asidVa
  | 6 => some .globalOrAsidVa
  | _ => none

/-- Whether an operation reads the ASID register (R98, R99). -/
def InvOp.usesAsid : InvOp → Bool
  | .all | .allToo | .global | .nonGlobal => false
  | .asid | .asidVa | .globalOrAsidVa => true

/-- `selected(op, e, asid, va)` (R98), its conditions taken in order. -/
def InvOp.selects (p : Params) (o : InvOp) (e : TlbEntry) (asid : BitVec 10) (va : Word) : Except Refusal Bool :=
  match o with
  | .all => .ok true
  | .allToo => .ok true
  | .global => .ok e.g
  | .nonGlobal => .ok !e.g
  | .asid => .ok (!e.g && e.asid == asid)
  | .asidVa => if !e.g && e.asid == asid then tlbVaMatch p e va else .ok false
  | .globalOrAsidVa => if e.g || e.asid == asid then tlbVaMatch p e va else .ok false

/-- One entry under INVTLB (R97): only a valid one is looked at, only its E bit changes. -/
def InvOp.onEntry (p : Params) (o : InvOp) (asid : BitVec 10) (va : Word) (e : TlbEntry) : Except Refusal TlbEntry :=
  if e.e then
    match o.selects p e asid va with
    | .ok sel => .ok { e with e := !sel }
    | .error r => .error r
  else .ok e

/-- Every entry under INVTLB (R97). -/
def InvOp.onTlb (p : Params) (o : InvOp) (asid : BitVec 10) (va : Word) : List TlbEntry → Except Refusal (List TlbEntry)
  | [] => .ok []
  | e :: es =>
    match o.onEntry p asid va e, o.onTlb p asid va es with
    | .error r, _ => .error r
    | .ok _, .error r => .error r
    | .ok e', .ok es' => .ok (e' :: es')

end Sys2Proof.Machine
end

