-- ==== Sys2Proof/Machine/CacheMaint.lean ====
section
/-! DEFINITION. The cache maintenance instruction (42_cache_maintenance.md). -/

namespace Sys2Proof.Machine

/-- CACOP after its privilege check, on a cache the spec names (R80). -/
def cacopOn (c : CacheId) (code : BitVec 5) (va : Word) (s : State) : Host.Outcome State Fault Refusal :=
  match cacopKind code with
  | .storeTag => .next (s.storeTag c va).advance
  | .indexInvalidate => .next (s.indexInvalidate c va).advance
  | .hitInvalidate =>
    match translate s va .load with
    | .pa a => .next (s.hitInvalidate c a).advance
    | .raise x => .next (s.takeException x va)
    | .refuse r => .refused r
  | .custom =>
    match s.params.cacopCustom with
    | .refused => .refused (.customCacheOp code)
    | .defined => .next (s.customCacop c va).advance

/-- CACOP after its privilege check (R80, R82). -/
def cacopBody (code : BitVec 5) (va : Word) (s : State) : Host.Outcome State Fault Refusal :=
  match cacopCache code with
  | none => .refused (.unnamedCache code)
  | some c => cacopOn c code va s

/-- CACOP (R80). Its Hit class, code[4:3] = 2, is the one privileged instruction PLV3 may execute (R88, C6). -/
def execCacop (code : BitVec 5) (rj : RegNum) (si12 : BitVec 12) (s : State) : Host.Outcome State Fault Refusal :=
  if cacopKind code = .hitInvalidate then s.atAnyPlv (cacopBody code (cacopVa s rj si12) s)
  else s.atPlv0 (cacopBody code (cacopVa s rj si12) s)

end Sys2Proof.Machine
end

