-- ==== Sys2Proof/Machine/CsrAccess.lean ====
section
/-! DEFINITION. The CSR access instructions (41_csr_access.md). -/

namespace Sys2Proof.Machine

/-- The exchange CSRWR and CSRXCHG share (R71, R72): `new` makes the word written from the old register
value and the old CSR value, both taken before either write. -/
def csrExchange (rd : RegNum) (n : CsrNum) (new : Word → Word → Word) (s : State) :
    Host.Outcome State Fault Refusal :=
  match csrRead n s with
  | .error r => .refused r
  | .ok (old, s') => .next ((csrWrite n (new (s.readReg rd) old) s').writeReg rd old).advance

/-- CSRRD (R70) -/
def execCsrrd (rd : RegNum) (n : CsrNum) (s : State) : Host.Outcome State Fault Refusal :=
  s.atPlv0 <|
    match csrRead n s with
    | .error r => .refused r
    | .ok (v, s') => .next (s'.writeReg rd v).advance

/-- CSRWR (R71) -/
def execCsrwr (rd : RegNum) (n : CsrNum) (s : State) : Host.Outcome State Fault Refusal :=
  s.atPlv0 (csrExchange rd n (fun oldRd _ => oldRd) s)

/-- CSRXCHG (R72; C1: the prose, not the printed formula) -/
def execCsrxchg (rd rj : RegNum) (n : CsrNum) (s : State) : Host.Outcome State Fault Refusal :=
  s.atPlv0 (csrExchange rd n (fun oldRd oldCsr => (oldRd &&& s.readReg rj) ||| (oldCsr &&& ~~~s.readReg rj)) s)

end Sys2Proof.Machine
end

