-- ==== Sys2Proof/Machine/Misc.lean ====
section
/-! DEFINITION. The miscellaneous privileged instructions (44_misc_ertn_idle.md). -/

namespace Sys2Proof.Machine

/-- ERTN (R110, R111) -/
def execErtn (s : State) : Host.Outcome State Fault Refusal := s.atPlv0 (.next s.exceptionReturn)

/-- IDLE (R112); `level` has no meaning (R114). -/
def execIdle (_level : BitVec 15) (s : State) : Host.Outcome State Fault Refusal :=
  s.atPlv0 (.next { s.advance with idle := true })

end Sys2Proof.Machine
end

