-- ==== Sys2Proof/Machine/TlbMaint.lean ====
section
/-! DEFINITION. The TLB maintenance instructions (43_tlb_maintenance.md). -/

namespace Sys2Proof.Machine

/-- `tlb_fill_entry(i)` (R95): the whole entry is replaced. -/
def State.fillEntry (s : State) (i : Nat) : State :=
  { s with tlb := s.tlb.set i (s.csrEntry s.writtenE) }

/-- TLBSRCH (R90, D29) -/
def execTlbsrch (s : State) : Host.Outcome State Fault Refusal :=
  s.atPlv0 <|
    match s.tlbLookup (vppnWord s.vppn) s.asid with
    | .miss => .next (s.putCsr .tlbidx (setBit s.csr.tlbidx 31 true)).advance
    | .hit i => .next (s.putCsr .tlbidx (setBit (setTlbIndex s.params s.csr.tlbidx i) 31 false)).advance
    | .refuse r => .refused r

/-- TLBRD (R93, D15) -/
def execTlbrd (s : State) : Host.Outcome State Fault Refusal :=
  s.atPlv0 (.next (s.readTlbEntry (s.tlbAt s.tlbIndex)).advance)

/-- TLBWR (R95, D15, D16) -/
def execTlbwr (s : State) : Host.Outcome State Fault Refusal :=
  s.atPlv0 (.next (s.fillEntry s.tlbIndex).advance)

/-- TLBFILL (R96; C4: the index is a draw over every index) -/
def execTlbfill (s : State) : Host.Outcome State Fault Refusal :=
  s.atPlv0 (.next (s.fillEntry (Config.freeTlbIndex s.draws % s.params.tlbEntries)).tick.advance)

/-- INVTLB with an undefined op (R100): INE at PLV0; at PLV3 IPE or INE, a draw. -/
def undefinedInvtlb (s : State) : Host.Outcome State Fault Refusal :=
  match s.level with
  | .plv0 => .next (s.raise .ine)
  | .plv3 => .next (s.tick.raise (if Config.freeIpeOverIne s.draws then .ipe else .ine))
  | .illegal => .refused .illegalPlv

/-- INVTLB with a defined op, after its privilege check (R97, R99). -/
def invtlbBody (o : InvOp) (rj rk : RegNum) (s : State) : Host.Outcome State Fault Refusal :=
  if o.usesAsid && getField (s.readReg rj) 10 22 != 0#22 then .refused .invtlbAsidHighBits
  else
    match o.onTlb s.params (getField (s.readReg rj) 0 10) (s.readReg rk) s.tlb with
    | .ok tlb => .next { s with tlb := tlb }.advance
    | .error r => .refused r

/-- INVTLB (R97 to R100) -/
def execInvtlb (op : BitVec 5) (rj rk : RegNum) (s : State) : Host.Outcome State Fault Refusal :=
  match invOp op with
  | none => undefinedInvtlb s
  | some o => s.atPlv0 (invtlbBody o rj rk s)

end Sys2Proof.Machine
end

