-- ==== Sys2Proof/Machine/Dispatch.lean ====
section
/-! DEFINITION. The meaning of every instruction: one arm per constructor of Instr. -/

namespace Sys2Proof.Machine

def exec (i : Instr) (s : State) : Host.Outcome State Fault Refusal :=
  match i with
  | .csrrd rd n => Sys2Proof.Machine.execCsrrd rd n s
  | .csrwr rd n => Sys2Proof.Machine.execCsrwr rd n s
  | .csrxchg rd rj n => Sys2Proof.Machine.execCsrxchg rd rj n s
  | .cacop code rj si12 => Sys2Proof.Machine.execCacop code rj si12 s
  | .tlbsrch => Sys2Proof.Machine.execTlbsrch s
  | .tlbrd => Sys2Proof.Machine.execTlbrd s
  | .tlbwr => Sys2Proof.Machine.execTlbwr s
  | .tlbfill => Sys2Proof.Machine.execTlbfill s
  | .invtlb op rj rk => Sys2Proof.Machine.execInvtlb op rj rk s
  | .ertn => Sys2Proof.Machine.execErtn s
  | .idle level => Sys2Proof.Machine.execIdle level s

end Sys2Proof.Machine
end

