-- ==== Sys2Proof/Machine/Step.lean ====
section
/-! DEFINITION. One step of the machine, and placing an instruction where it is fetched. -/

namespace Sys2Proof.Machine

/-- One step of the core (R8): refused while CRMD.PLV denotes no level (U6); waiting, woken or not
(R113; `already` as in `State.waitStep`); else an interrupt if one is taken (R133); else the instruction
fetched at the pc, or the exception its fetch raises (R44, R134). -/
def coreStep (already : Bool) (s : State) : Host.Outcome State Fault Refusal :=
  if s.level = .illegal then .refused .illegalPlv
  else if s.idle then .next (s.waitStep already)
  else if s.takesInterrupt then .next (s.raise .int)
  else
    match fetch s with
    | .instr i => exec i s
    | .raise x => .next (s.takeException x s.pc)
    | .fault f => .fault f
    | .refuse r => .refused r

/-- One step of the machine. A reset event is a step of its own (R150); otherwise the inputs are sampled
(R131), keeping their level when no event is left (log 9), and the core steps. A wait whose wake condition
holds already ends whatever the new sample is (R112; log 29). -/
def step (s : State) : Host.Outcome State Fault Refusal :=
  match s.env with
  | .reset :: env => .next { s with env := env }.resetEvent
  | .lines _ _ _ :: _ => coreStep s.wakes s.sampled
  | [] => coreStep s.wakes s

/-- The instruction whose bits are `w` stored where the next step fetches: there is memory there, the core is
not waiting and no event of the environment comes first; nothing else changes (log 7). -/
def State.withFetchWord (s : State) (nbits w : Nat) : State :=
  { s with
    params := s.params.withWordAt s.fetchAddr.toNat
    mem := memWrite s.mem s.fetchAddr.toNat 4 (w % 2 ^ nbits)
    idle := false
    env := [] }

end Sys2Proof.Machine
end

