-- ==== Sys2Proof/Safety.lean ====
section
/-! DEFINITION. The terms the statements use: what a step left unchanged, and the legal states. -/

namespace Sys2Proof.Machine

/-- The state after an outcome, if it has one. -/
def after : Host.Outcome State Fault Refusal → Option State
  | .next s => some s
  | .fault _ => none
  | .refused _ => none

/-- The frame of registers and CSRs: every general register but those listed, and every CSR but those
listed, reads as before; the parameters and the events to come are untouched. -/
structure Frame (regs : List RegNum) (csrs : List Csr) (s t : State) : Prop where
  regs_kept : ∀ r, r ∉ regs → t.readReg r = s.readReg r
  csrs_kept : ∀ c, c ∉ csrs → t.readCsr c = s.readCsr c
  params_kept : t.params = s.params
  env_kept : t.env = s.env

/-- Every byte of memory reads as before. -/
def SameMemory (s t : State) : Prop := ∀ a, t.mem.readByte a = s.mem.readByte a

/-- Every cache holds what it held. -/
def SameCaches (s t : State) : Prop := ∀ c, t.cache c = s.cache c

/-- The TLB, the caches, memory and the waiting bit are as before. -/
structure SameStores (s t : State) : Prop where
  tlb_kept : t.tlb = s.tlb
  caches_kept : SameCaches s t
  memory_kept : SameMemory s t
  idle_kept : t.idle = s.idle

/-- The LLbit and LLBCTL.KLO are as before. -/
structure SameLink (s t : State) : Prop where
  llbit_kept : t.llbit = s.llbit
  klo_kept : t.csr.klo = s.csr.klo

/-- `tlb_va_match` (R49), bit by bit: above the entry's page pair, each bit of the address is the bit of
VPPN that stands for it, and below bit 13 a zero. -/
abbrev VaAgrees (e : TlbEntry) (va : Word) : Prop :=
  ∀ k, k < 32 → e.ps.toNat < k → va.getLsbD k = (decide (13 ≤ k) && e.vppn.getLsbD (k - 13))

/-- `tlb_hit` (R49) where the entry's PS is legal: E = 1, G = 1 or the ASID equal, and the address
matches. -/
structure EntryHits (p : Params) (e : TlbEntry) (va : Word) (asid : BitVec 10) : Prop where
  valid : e.e = true
  space : e.g = true ∨ e.asid = asid
  legal : e.ps.toNat ∈ p.psLegal
  agrees : VaAgrees e va

/-- Entry `i` of the TLB hits (R49). -/
def HitsAt (s : State) (va : Word) (asid : BitVec 10) (i : Nat) : Prop :=
  ∃ e, s.tlb[i]? = some e ∧ EntryHits s.params e va asid

/-- No entry's PS stops a search: every valid entry that is global or of the ASID has a legal PS (R49,
U8; log 16). -/
def Searchable (s : State) (asid : BitVec 10) : Prop :=
  ∀ e ∈ s.tlb, e.e = true → e.g = true ∨ e.asid = asid → e.ps.toNat ∈ s.params.psLegal

/-- The table of INVTLB operations (R98), by the number of the op. -/
def selectedBy (op : Nat) (e : TlbEntry) (asid : BitVec 10) (va : Word) : Bool :=
  match op with
  | 0 => true
  | 1 => true
  | 2 => e.g
  | 3 => !e.g
  | 4 => !e.g && e.asid == asid
  | 5 => !e.g && e.asid == asid && decide (VaAgrees e va)
  | 6 => (e.g || e.asid == asid) && decide (VaAgrees e va)
  | _ => false

/-- No reset event comes next: the core makes the next step. -/
def CoreSteps (s : State) : Prop := ∀ env, s.env ≠ .reset :: env

/-- The state the core steps from is at PLV0 or PLV3, the two levels there are (R120). -/
def LegalLevel (s : State) : Prop := s.plv = 0#2 ∨ s.plv = 3#2

/-- Mapped mode, and neither window takes the address: the TLB translates it (R48). -/
structure ThroughTlb (s : State) (va : Word) : Prop where
  da_off : s.da = false
  pg_on : s.pg = true
  window0 : windowTakes s.csr.dmw0 va s.plv = false
  window1 : windowTakes s.csr.dmw1 va s.plv = false

/-- Some interrupt line is pending: a bit of ESTAT.IS[12:0] but bit 10 (R131). -/
abbrev InterruptPending (s : State) : Prop := ∃ k, k < 13 ∧ k ≠ 10 ∧ s.csr.estat.getLsbD k = true

/-- Some pending interrupt line is locally enabled (R132). -/
abbrev InterruptEnabled (s : State) : Prop :=
  ∃ k, k < 13 ∧ k ≠ 10 ∧ s.csr.estat.getLsbD k = true ∧ s.csr.ecfg.getLsbD k = true

/-- An interrupt is taken at the start of the next step (R133). -/
abbrev InterruptDue (s : State) : Prop := s.csr.crmd.getLsbD 2 = true ∧ InterruptEnabled s

/-- A physical address is one of a line's bytes. -/
abbrev InLine (l : CacheLine) (x : Nat) : Prop := l.tag.toNat ≤ x ∧ x < l.tag.toNat + l.data.length

/-- A valid line of the level-2 cache, where there is one, holds a physical address. -/
def HeldByL2 (s : State) (x : Nat) : Prop :=
  (s.params.geom .l2).present = true ∧ ∃ y ∈ s.l2, y.2.valid = true ∧ InLine y.2 x

/-- The line at a position is written back before it is invalidated (R85, U1). -/
def MustWriteBack (s : State) (c : CacheId) (pos : Nat) : Prop :=
  c ≠ .l1i ∧ ((s.cache c).at pos).valid = true ∧ (((s.cache c).at pos).dirty = true ∨ s.params.wbOnlyDirty = false)

/-- The level-2 line `new` is `old` with those bytes of `l` that are its own (R85). -/
structure TookBytes (l old new : CacheLine) (reachesMemory : Bool) : Prop where
  tag_kept : new.tag = old.tag
  valid_kept : new.valid = old.valid
  size_kept : new.data.length = old.data.length
  taken : ∀ k, k < old.data.length → InLine l (old.tag.toNat + k) →
    new.data[k]? = l.data[old.tag.toNat + k - l.tag.toNat]?
  others_kept : ∀ k, ¬ InLine l (old.tag.toNat + k) → new.data[k]? = old.data[k]?
  dirtied : (∃ x, InLine old x ∧ InLine l x) → new.dirty = (old.dirty || !reachesMemory)

/-- What write-back and invalidation of the line at a position leave (R85): the line invalid, every other
line of its cache and every other cache as it was, and, where the line is written back, its bytes in the
next level. That is memory for the level-2 cache, and for the level-1 data cache with no level-2 cache.
Otherwise it is the level-2 cache: the valid lines there that hold an address of the line take its byte,
an address they do not hold passes on to memory, and whether the others reach memory too is open
(`reachesMemory`; R53, log 22). A byte goes to memory only where the map has memory, and is lost elsewhere
(R46; log 35). The tag is the line's physical address (log 21). -/
structure WrittenBackInvalid (s t : State) (c : CacheId) (pos : Nat) (reachesMemory : Bool) : Prop where
  line : (t.cache c).at pos = { (s.cache c).at pos with valid := false }
  other_lines : ∀ pos', pos' ≠ pos → (t.cache c).at pos' = (s.cache c).at pos'
  other_caches : ∀ c', c' ≠ c → (c' = .l2 → c = .l1d → ¬ MustWriteBack s c pos ∨ (s.params.geom .l2).present = false) →
    t.cache c' = s.cache c'
  next_level : c = .l1d → MustWriteBack s c pos → (s.params.geom .l2).present = true → ∀ pos',
    (((s.l2).at pos').valid = true → TookBytes ((s.cache c).at pos) ((s.l2).at pos') ((t.l2).at pos') reachesMemory) ∧
    ((((s.l2).at pos').valid = false ∨ ¬ ∃ x, InLine ((s.l2).at pos') x ∧ InLine ((s.cache c).at pos) x) →
      (t.l2).at pos' = (s.l2).at pos')
  memory : ∀ x, MustWriteBack s c pos → InLine ((s.cache c).at pos) x → s.params.holdsMemory x = true →
    (c = .l1d → HeldByL2 s x → reachesMemory = true) →
    t.mem.readByte x = ((s.cache c).at pos).data[x - ((s.cache c).at pos).tag.toNat]?
  memory_kept : ∀ x, ¬ (MustWriteBack s c pos ∧ InLine ((s.cache c).at pos) x ∧ s.params.holdsMemory x = true ∧
    (c = .l1d → HeldByL2 s x → reachesMemory = true)) → t.mem.readByte x = s.mem.readByte x

/-- The bits PALEN leaves to a physical page number (R22, R26). -/
def ppnFits (p : Params) (n : Ppn) : Prop := n &&& ~~~lowMask 24 (p.palen - 12) = 0#24

/-- What a listed line of a cache may be: its position and its bytes within the geometry, its tag the
address of a line of physical memory. -/
def lineLegal (p : Params) (c : CacheId) (x : Nat × CacheLine) : Prop :=
  x.1 < lineCount (p.geom c) ∧ x.2.data.length = 2 ^ (p.geom c).offset ∧
    lineBase (p.geom c) x.2.tag = x.2.tag ∧ toPhys p x.2.tag = x.2.tag

/-- The legal states: the parameters within their bounds (R4), memory and the caches in canonical form,
memory listed only where the map has it (R46), every hard-wired bit of every CSR as its layout says (R14,
R16 to R31), one TLB entry per index (R26), every page number within PALEN (R22), every cache line within
its geometry (R27). -/
structure State.Inv (s : State) : Prop where
  params_wf : s.params.wf = true
  memory_wf : s.mem.wf
  memory_mapped : ∀ x ∈ s.mem, s.params.holdsMemory x.1 = true
  wired : ∀ c, s.readCsr c &&& ~~~liveBits s.params c = wiredBits c
  tlb_size : s.tlb.length = s.params.tlbEntries
  ppns_fit : ∀ e ∈ s.tlb, ppnFits s.params e.page0.ppn ∧ ppnFits s.params e.page1.ppn
  caches_sorted : ∀ c, (s.cache c).Pairwise fun x y => x.1 < y.1
  lines_legal : ∀ c, ∀ x ∈ s.cache c, lineLegal s.params c x

/-- Each valid line of each cache holds what memory holds at its address: the caches are transparent (R89). -/
def CachesCoherent (s : State) : Prop :=
  ∀ c, ∀ x ∈ s.cache c, x.2.valid = true →
    ∀ k (h : k < x.2.data.length), s.mem.readByte (x.2.tag.toNat + k) = some x.2.data[k]

end Sys2Proof.Machine
end

