-- ==== Sys2Proof/Certificates/Slice0/Obligations.lean ====
section
/-! DEFINITION. The statements for the provers, in the order of the spec's files. Each docstring names the
rule it formalises, or says what it rests on. -/

open Sys2Proof Sys2Proof.Machine

/-! Encoding (30_encoding.md) -/

/-- R67: the worked encodings, decoded and encoded. -/
def Obligations.SpecWordsDecode : Prop :=
  ∀ x ∈ ([(0x0400000C#32, .csrrd 12#5 0x0#14), (0x0400182C#32, .csrwr 12#5 0x6#14),
      (0x040001AC#32, .csrxchg 12#5 13#5 0x0#14), (0x063FC091#32, .cacop 0x11#5 4#5 0xFF0#12),
      (0x06482800#32, .tlbsrch), (0x06482C00#32, .tlbrd), (0x06483000#32, .tlbwr), (0x06483400#32, .tlbfill),
      (0x06483800#32, .ertn), (0x06488000#32, .idle 0#15), (0x064998A5#32, .invtlb 0x5#5 5#5 6#5)] :
      List (Word × Instr)),
    decodeWord x.1 = .ok x.2 ∧ encode x.2 = x.1

/-- Decoding the word, or the bytes in memory order, of a well-formed instruction gives it back, with
every operand at every value its field admits (R55 to R59). -/
def Obligations.DecodeEncodeAgree : Prop :=
  ∀ i : Instr, i.wf = true →
    decodeWord (encode i) = .ok i ∧ ∀ rest, decodeBytes (encodeBytes i ++ rest) = .ok (i, rest)

/-- A word that decodes is the one word of its instruction, which is well-formed (R58, R59). -/
def Obligations.EncodeDecodeAgree : Prop :=
  ∀ (w : Word) (i : Instr), decodeWord w = .ok i → i.wf = true ∧ encode i = w

/-- The opcode map R58 with the decode order R59: which words are each instruction's, and where its
operands stand (R56, R57). -/
def Obligations.DecoderFollowsOpcodeMap : Prop :=
  ∀ w : Word,
    (∀ rd n, decodeWord w = .ok (.csrrd rd n) ↔
      w &&& 0xFF0003E0#32 = 0x04000000#32 ∧ rd = w.extractLsb' 0 5 ∧ n = w.extractLsb' 10 14) ∧
    (∀ rd n, decodeWord w = .ok (.csrwr rd n) ↔
      w &&& 0xFF0003E0#32 = 0x04000020#32 ∧ rd = w.extractLsb' 0 5 ∧ n = w.extractLsb' 10 14) ∧
    (∀ rd rj n, decodeWord w = .ok (.csrxchg rd rj n) ↔
      w &&& 0xFF000000#32 = 0x04000000#32 ∧ rj ≠ 0#5 ∧ rj ≠ 1#5 ∧
        rd = w.extractLsb' 0 5 ∧ rj = w.extractLsb' 5 5 ∧ n = w.extractLsb' 10 14) ∧
    (∀ code rj si, decodeWord w = .ok (.cacop code rj si) ↔
      w &&& 0xFFC00000#32 = 0x06000000#32 ∧
        code = w.extractLsb' 0 5 ∧ rj = w.extractLsb' 5 5 ∧ si = w.extractLsb' 10 12) ∧
    (decodeWord w = .ok .tlbsrch ↔ w = 0x06482800#32) ∧
    (decodeWord w = .ok .tlbrd ↔ w = 0x06482C00#32) ∧
    (decodeWord w = .ok .tlbwr ↔ w = 0x06483000#32) ∧
    (decodeWord w = .ok .tlbfill ↔ w = 0x06483400#32) ∧
    (decodeWord w = .ok .ertn ↔ w = 0x06483800#32) ∧
    (∀ level, decodeWord w = .ok (.idle level) ↔
      w &&& 0xFFFF8000#32 = 0x06488000#32 ∧ level = w.extractLsb' 0 15) ∧
    (∀ op rj rk, decodeWord w = .ok (.invtlb op rj rk) ↔
      w &&& 0xFFFF8000#32 = 0x06498000#32 ∧
        op = w.extractLsb' 0 5 ∧ rj = w.extractLsb' 5 5 ∧ rk = w.extractLsb' 10 5)

/-- R60: a word that matches a row of R58 decodes, and a word that matches none is refused as out of
scope, by the decoder and by the step that fetches it. -/
def Obligations.WordOutOfScopeRefused : Prop :=
  ∀ w : Word,
    let matchesARow := ∃ x ∈ ([(0xFF0003E0#32, 0x04000000#32), (0xFF0003E0#32, 0x04000020#32),
        (0xFF000000#32, 0x04000000#32), (0xFFC00000#32, 0x06000000#32), (0xFFFFFFFF#32, 0x06482800#32),
        (0xFFFFFFFF#32, 0x06482C00#32), (0xFFFFFFFF#32, 0x06483000#32), (0xFFFFFFFF#32, 0x06483400#32),
        (0xFFFFFFFF#32, 0x06483800#32), (0xFFFF8000#32, 0x06488000#32), (0xFFFF8000#32, 0x06498000#32)] :
        List (Word × Word)), w &&& x.1 = x.2
    (matchesARow → ∃ i, decodeWord w = .ok i) ∧
    (¬ matchesARow → decodeWord w = .error (.outOfScope w) ∧
      ∀ (s : State) (a : PAddr), CoreSteps s → LegalLevel s.sampled → s.sampled.idle = false →
        ¬ InterruptDue s.sampled → s.sampled.pc.extractLsb' 0 2 = 0#2 →
        translate s.sampled s.sampled.pc .fetch = .pa a → s.sampled.params.holdsWord a.toNat = true →
        memRead s.sampled.mem a.toNat 4 = some w.toNat →
        step s = .refused (.outOfScope w))

/-! State, memory and translation (10_state.md, 20_memory.md) -/

/-- R11: register 0 reads 0 and takes no write; any other register reads what was last written to it. -/
def Obligations.RegisterReadAfterWrite : Prop :=
  ∀ (s : State) (r r' : RegNum) (v : Word),
    s.readReg 0#5 = 0#32 ∧ (s.writeReg 0#5 v).readReg r' = s.readReg r' ∧
    (r ≠ 0#5 → (s.writeReg r v).readReg r = v) ∧ (r' ≠ r → (s.writeReg r v).readReg r' = s.readReg r')

/-- The numbers of R15, those it lists as not modelled among them; the write masks of R16 to R23 and R29
to R31, with PALEN = 32 and 16 TLB entries, of every CSR but LLBCTL, which has none; that a software
write changes the masked bits and no other (R14); and LLBCTL's write and reading (R25). -/
def Obligations.CsrNumbersAndMasks : Prop :=
  modelledCsrs.map Csr.num =
    [0x0#14, 0x1#14, 0x4#14, 0x5#14, 0x6#14, 0x7#14, 0xC#14, 0x10#14, 0x11#14, 0x12#14, 0x13#14, 0x18#14,
     0x30#14, 0x31#14, 0x32#14, 0x33#14, 0x60#14, 0x88#14, 0x180#14, 0x181#14] ∧
  unmodelledNums =
    [0x2#14, 0x19#14, 0x1A#14, 0x1B#14, 0x20#14, 0x40#14, 0x41#14, 0x42#14, 0x44#14, 0x98#14] ∧
  (modelledCsrs.filter fun c => c ≠ .llbctl).map (fun c => (c.num, writeMask Params.default c)) =
    [(0x0#14, 0x000001FF#32), (0x1#14, 0x00000007#32), (0x4#14, 0x00001BFF#32), (0x5#14, 0x00000003#32),
     (0x6#14, 0xFFFFFFFF#32), (0x7#14, 0xFFFFFFFF#32), (0xC#14, 0xFFFFFFC0#32), (0x10#14, 0xBF00000F#32),
     (0x11#14, 0xFFFFE000#32), (0x12#14, 0x0FFFFF7F#32), (0x13#14, 0x0FFFFF7F#32), (0x18#14, 0x000003FF#32),
     (0x30#14, 0xFFFFFFFF#32), (0x31#14, 0xFFFFFFFF#32), (0x32#14, 0xFFFFFFFF#32), (0x33#14, 0xFFFFFFFF#32),
     (0x88#14, 0xFFFFFFC0#32), (0x180#14, 0xEE000039#32), (0x181#14, 0xEE000039#32)] ∧
  (∀ (s : State) (c : Csr) (v : Word), c ≠ .llbctl → ∀ k, k < 32 →
    getBit ((s.writeCsr c v).readCsr c) k =
      if getBit (writeMask s.params c) k then getBit v k else getBit (s.readCsr c) k) ∧
  (∀ (s : State) (v : Word), (s.writeCsr .llbctl v).csr.klo = v.getLsbD 2 ∧
    (s.writeCsr .llbctl v).llbit = (s.llbit && !v.getLsbD 1)) ∧
  (∀ (s : State) (k : Nat), k < 32 → (s.readCsr .llbctl).getLsbD k =
    if k = 2 then s.csr.klo else if k = 0 then s.llbit else false)

/-- R42: bytes are little-endian: byte `k` of a number written lies at the address plus `k`, no other byte
changes, and the number read back is the one written; the word fetched is the four bytes at the
translated pc. The canonical form is kept. -/
def Obligations.MemoryLittleEndian : Prop :=
  (∀ (m : Memory) (a n v : Nat), m.wf →
    (∀ k, k < n → (memWrite m a n v).readByte (a + k) = some (BitVec.ofNat 8 (v / 2 ^ (8 * k)))) ∧
    (∀ x, x < a ∨ a + n ≤ x → (memWrite m a n v).readByte x = m.readByte x) ∧
    memRead (memWrite m a n v) a n = some (v % 2 ^ (8 * n)) ∧
    (memWrite m a n v).wf) ∧
  (∀ (m : Memory) (a n v : Nat), memRead m a n = some v →
    v < 2 ^ (8 * n) ∧ ∀ k, k < n → m.readByte (a + k) = some (BitVec.ofNat 8 (v / 2 ^ (8 * k)))) ∧
  (∀ (s : State) (i : Instr), fetch s = .instr i →
    ∃ a w, translate s s.pc .fetch = .pa a ∧ s.params.holdsWord a.toNat = true ∧ memRead s.mem a.toNat 4 = some w ∧
      decodeWord (BitVec.ofNat 32 w) = .ok i)

/-- R48 in direct address mode, and where DA and PG are not complementary (U7). -/
def Obligations.TranslateByMode : Prop :=
  ∀ (s : State) (va : Word) (k : Access),
    (s.da = true → s.pg = false →
      ∃ a, translate s va k = .pa a ∧ a.toNat = va.toNat % 2 ^ (min s.params.palen 32)) ∧
    (s.da = s.pg → translate s va k = .refuse .translationMode)

/-- R48 through the direct mapping windows: DMW0 is tried before DMW1, a window takes an address whose
bits 31:29 are its VSEG at a level its PLV bit allows (R30), and gives `{PSEG, va[28:0]}` (kept to PALEN
bits, log 24). -/
def Obligations.TranslateThroughWindows : Prop :=
  ∀ (s : State) (va : Word) (k : Access), s.da = false → s.pg = true →
    let takes := fun w : Word => va.extractLsb' 29 3 = w.extractLsb' 29 3 ∧
      ((s.plv = 0#2 ∧ w.getLsbD 0 = true) ∨ (s.plv = 3#2 ∧ w.getLsbD 3 = true))
    let gives := fun w : Word => ∃ a, translate s va k = .pa a ∧
      a.toNat = ((w.extractLsb' 25 3).toNat * 2 ^ 29 + va.toNat % 2 ^ 29) % 2 ^ s.params.palen
    (takes s.csr.dmw0 → gives s.csr.dmw0) ∧ (¬ takes s.csr.dmw0 → takes s.csr.dmw1 → gives s.csr.dmw1)

/-- R48 through the TLB: no hit raises TLBR, several hits are refused (U9), one hit is checked in the
order V, privilege, D, and gives `{PPN, va[PS-1:0]}`. A hit is written out in `EntryHits` (R49): E = 1,
G = 1 or the ASID equal, PS legal, va[31:PS+1] equal to the entry's bits. That a valid entry of another
ASID, not global, whose PS is not legal does not stop the search, which `Searchable` admits, is the
model's reading (DEDUCED, log 16). -/
def Obligations.TranslateThroughEntries : Prop :=
  ∀ (s : State) (va : Word) (k : Access), s.Inv → ThroughTlb s va → Searchable s s.asid →
    ((∀ i, ¬ HitsAt s va s.asid i) → translate s va k = .raise .tlbr) ∧
    (∀ i j, i ≠ j → HitsAt s va s.asid i → HitsAt s va s.asid j → translate s va k = .refuse .multipleTlbHits) ∧
    (∀ i e, s.tlb[i]? = some e → HitsAt s va s.asid i → (∀ j, HitsAt s va s.asid j → j = i) →
      ∀ pg, pg = (if va.getLsbD e.ps.toNat = true then e.page1 else e.page0) →
        (pg.v = false →
          translate s va k = .raise (match k with | .fetch => .pif | .load => .pil | .store => .pis)) ∧
        (pg.v = true → pg.plv.toNat < s.plv.toNat → translate s va k = .raise .ppi) ∧
        (pg.v = true → s.plv.toNat ≤ pg.plv.toNat → k = .store → pg.d = false → translate s va k = .raise .pme) ∧
        (pg.v = true → s.plv.toNat ≤ pg.plv.toNat → (k = .store → pg.d = true) →
          ∃ a, translate s va k = .pa a ∧
            a.toNat = (pg.ppn.toNat / 2 ^ (e.ps.toNat - 12) * 2 ^ e.ps.toNat + va.toNat % 2 ^ e.ps.toNat)
              % 2 ^ s.params.palen))

/-- R50: what a translation raises for a load (a Hit-class CACOP) and for a fetch, and where it raises
nothing. -/
def Obligations.TranslationExceptions : Prop :=
  ∀ (s : State) (va : Word) (k : Access) (x : Exc), translate s va k = .raise x →
    (k = .load → x = .tlbr ∨ x = .pil ∨ x = .ppi) ∧
    (k = .fetch → x = .tlbr ∨ x = .pif ∨ x = .ppi) ∧
    (k = .store → x = .tlbr ∨ x = .pis ∨ x = .ppi ∨ x = .pme) ∧
    ¬ (s.da = true ∧ s.pg = false) ∧
    ¬ (windowTakes s.csr.dmw0 va s.plv = true ∨ windowTakes s.csr.dmw1 va s.plv = true)

/-- Where an entry's PS is not legal, an address matched against it stops the search, the translation
and INVTLB, by name (R49, U8; the order of the conditions: log 16). -/
def Obligations.IllegalPageSizeStops : Prop :=
  ∀ (s : State) (e : TlbEntry), e ∈ s.tlb → e.e = true → e.ps.toNat ∉ s.params.psLegal →
    (∀ va k, ThroughTlb s va → (e.g = true ∨ e.asid = s.asid) → translate s va k = .refuse .illegalPageSize) ∧
    (s.plv = 0#2 → (e.g = true ∨ e.asid = s.asid) → exec .tlbsrch s = .refused .illegalPageSize) ∧
    (∀ rj rk, s.plv = 0#2 → (s.readReg rj).extractLsb' 10 22 = 0#22 →
      (e.g = false → e.asid = (s.readReg rj).extractLsb' 0 10 →
        exec (.invtlb 5#5 rj rk) s = .refused .illegalPageSize) ∧
      (e.g = true ∨ e.asid = (s.readReg rj).extractLsb' 0 10 →
        exec (.invtlb 6#5 rj rk) s = .refused .illegalPageSize))

/-- R41: no instruction reads memory, and none but CACOP writes it: with other memory contents the same
happens. For CACOP with code[4:3] = 3 where CACOP_CUSTOM gives an operation, which U2 leaves unbounded, that
is the model's choice (log 20). So is that no instruction faults: the two faults there are, of a fetch, are
the model's (log 6). -/
def Obligations.InstructionsIgnoreMemory : Prop :=
  ∀ (i : Instr) (s : State) (m : Memory),
    (∀ t, exec i s = .next t → ∃ u, exec i { s with mem := m } = .next u ∧ { u with mem := t.mem } = t ∧
      ((∀ code rj si, i ≠ .cacop code rj si) → t.mem = s.mem ∧ u.mem = m)) ∧
    (∀ r, exec i s = .refused r → exec i { s with mem := m } = .refused r) ∧
    (∀ f, exec i s ≠ .fault f)

/-! CSR access (41_csr_access.md) -/

/-- R70, with LLBCTL's reading of R25. -/
def Obligations.CsrrdReads : Prop :=
  ∀ (s : State) (rd : RegNum) (n : CsrNum),
    (s.plv = 3#2 → exec (.csrrd rd n) s = .next (s.raise .ipe)) ∧
    (s.plv = 0#2 → ∀ c, n = Csr.num c → ∃ t, exec (.csrrd rd n) s = .next t ∧
      t.readReg rd = (if rd = 0#5 then 0#32 else s.readCsr c) ∧
      (c = .llbctl → rd ≠ 0#5 → ∀ k, k < 32 → (t.readReg rd).getLsbD k =
        if k = 2 then s.csr.klo else if k = 0 then s.llbit else false) ∧
      t.pc = s.pc + 4#32 ∧ Frame [rd] [] s t ∧ SameStores s t ∧ SameLink s t) ∧
    (s.plv = 0#2 → (∀ c, n ≠ Csr.num c) → n ∉ unmodelledNums → ∃ t v, exec (.csrrd rd n) s = .next t ∧
      t.readReg rd = (if rd = 0#5 then 0#32 else v) ∧ t.pc = s.pc + 4#32 ∧
      Frame [rd] [] s t ∧ SameStores s t ∧ SameLink s t) ∧
    (s.plv = 0#2 → n ∈ unmodelledNums → exec (.csrrd rd n) s = .refused (.unmodelledCsr n))

/-- R71, with the writable bits of R14 and LLBCTL's write of R25. -/
def Obligations.CsrwrSwaps : Prop :=
  ∀ (s : State) (rd : RegNum) (n : CsrNum),
    (s.plv = 3#2 → exec (.csrwr rd n) s = .next (s.raise .ipe)) ∧
    (s.plv = 0#2 → ∀ c, n = Csr.num c → ∃ t, exec (.csrwr rd n) s = .next t ∧
      t.readReg rd = (if rd = 0#5 then 0#32 else s.readCsr c) ∧
      (c ≠ .llbctl →
        t.readCsr c = (s.readReg rd &&& writeMask s.params c) ||| (s.readCsr c &&& ~~~writeMask s.params c) ∧
        SameLink s t) ∧
      (c = .llbctl → t.csr.klo = (s.readReg rd).getLsbD 2 ∧ t.llbit = (s.llbit && !(s.readReg rd).getLsbD 1)) ∧
      t.pc = s.pc + 4#32 ∧ Frame [rd] [c] s t ∧ SameStores s t) ∧
    (s.plv = 0#2 → (∀ c, n ≠ Csr.num c) → n ∉ unmodelledNums → ∃ t v, exec (.csrwr rd n) s = .next t ∧
      t.readReg rd = (if rd = 0#5 then 0#32 else v) ∧ t.pc = s.pc + 4#32 ∧
      Frame [rd] [] s t ∧ SameStores s t ∧ SameLink s t) ∧
    (s.plv = 0#2 → n ∈ unmodelledNums → exec (.csrwr rd n) s = .refused (.unmodelledCsr n))

/-- R72 (C1): the bits the mask register selects take the register's, the others stay. -/
def Obligations.CsrxchgExchangesUnderMask : Prop :=
  ∀ (s : State) (rd rj : RegNum) (n : CsrNum),
    (s.plv = 3#2 → exec (.csrxchg rd rj n) s = .next (s.raise .ipe)) ∧
    (s.plv = 0#2 → ∀ c, n = Csr.num c → ∃ t, exec (.csrxchg rd rj n) s = .next t ∧
      t.readReg rd = (if rd = 0#5 then 0#32 else s.readCsr c) ∧
      (c ≠ .llbctl → (∀ k, k < 32 → (t.readCsr c).getLsbD k =
          if (writeMask s.params c).getLsbD k = true ∧ (s.readReg rj).getLsbD k = true
          then (s.readReg rd).getLsbD k else (s.readCsr c).getLsbD k) ∧
        SameLink s t) ∧
      (c = .llbctl →
        t.csr.klo = (if (s.readReg rj).getLsbD 2 = true then (s.readReg rd).getLsbD 2 else s.csr.klo) ∧
        t.llbit = (s.llbit && !((s.readReg rj).getLsbD 1 && (s.readReg rd).getLsbD 1))) ∧
      t.pc = s.pc + 4#32 ∧ Frame [rd] [c] s t ∧ SameStores s t) ∧
    (s.plv = 0#2 → (∀ c, n ≠ Csr.num c) → n ∉ unmodelledNums → ∃ t v, exec (.csrxchg rd rj n) s = .next t ∧
      t.readReg rd = (if rd = 0#5 then 0#32 else v) ∧ t.pc = s.pc + 4#32 ∧
      Frame [rd] [] s t ∧ SameStores s t ∧ SameLink s t) ∧
    (s.plv = 0#2 → n ∈ unmodelledNums → exec (.csrxchg rd rj n) s = .refused (.unmodelledCsr n))

/-- A CSRWR that puts PLV3 into CRMD still writes its register, and the very next privileged instruction
is checked at PLV3 (R71 corner case (e), R74). -/
def Obligations.CrmdWriteActsOnNextInstruction : Prop :=
  ∀ (s : State) (rd rd' : RegNum) (n' : CsrNum), s.plv = 0#2 → (s.readReg rd).extractLsb' 0 2 = 3#2 →
    ∃ t, exec (.csrwr rd 0x0#14) s = .next t ∧ t.plv = 3#2 ∧ t.readReg rd = s.readCsr .crmd ∧
      exec (.csrrd rd' n') t = .next (t.raise .ipe) ∧ exec .ertn t = .next (t.raise .ipe)

/-! Cache maintenance (42_cache_maintenance.md) -/

/-- R81: the address is the base register plus the signed immediate, modulo 2^32; the base register is not
written. -/
def Obligations.CacopAddress : Prop :=
  ∀ (s : State) (rj : RegNum) (si : BitVec 12),
    ((cacopVa s rj si).toNat : Int) = (((s.readReg rj).toNat : Int) + si.toInt) % 2 ^ 32 ∧
    (rj = 0#5 → ((cacopVa s rj si).toNat : Int) = si.toInt % 2 ^ 32) ∧
    ∀ code t, exec (.cacop code rj si) s = .next t → ∀ r, t.readReg r = s.readReg r

/-- R83: direct address index takes the way from the low bits of the address and the line from bits
Index+Offset-1:Offset; the position keeps the two apart. -/
def Obligations.DirectIndexBits : Prop :=
  ∀ (g : CacheGeom) (va : Word),
    wayOf g va < 2 ^ g.way ∧ lineOf g va < 2 ^ g.index ∧ directPos g va < lineCount g ∧
    (∀ k, (wayOf g va).testBit k = (decide (k < g.way) && va.getLsbD k)) ∧
    (∀ k, (lineOf g va).testBit k = (decide (k < g.index) && va.getLsbD (k + g.offset))) ∧
    directPos g va / 2 ^ g.index = wayOf g va ∧ directPos g va % 2 ^ g.index = lineOf g va

/-- R84: code[4:3] = 0 sets the tag of the line that direct index selects to zeros, and writes nothing
back. That the model holds cache contents at all, and that the line becomes the zero line (invalid, its
data lost), is the model's choice (log 21). -/
def Obligations.CacopStoreTag : Prop :=
  ∀ (s : State) (code : BitVec 5) (rj : RegNum) (si : BitVec 12) (c : CacheId),
    s.plv = 0#2 → code.extractLsb' 3 2 = 0#2 →
    (code.extractLsb' 0 3, c) ∈ [(0#3, CacheId.l1i), (1#3, .l1d), (2#3, .l2)] →
    ∃ t, exec (.cacop code rj si) s = .next t ∧ t.pc = s.pc + 4#32 ∧
      ((s.params.geom c).present = true →
        (t.cache c).at (directPos (s.params.geom c) (cacopVa s rj si)) = CacheLine.zero ∧
        ∀ pos, pos ≠ directPos (s.params.geom c) (cacopVa s rj si) → (t.cache c).at pos = (s.cache c).at pos) ∧
      ((s.params.geom c).present = false → t.cache c = s.cache c) ∧
      (∀ c', c' ≠ c → t.cache c' = s.cache c') ∧
      SameMemory s t ∧ t.tlb = s.tlb ∧ t.idle = s.idle ∧ Frame [] [] s t ∧ SameLink s t

/-- R85: code[4:3] = 1 writes back and invalidates the line that direct index selects. The clauses on
where the bytes go rest on the model's choices: the line's tag is its physical address (log 21), what the
level-2 cache does not hold passes on to memory, while whether the rest reaches memory too is left free
(log 22), and a byte for an address without memory is lost (log 35). -/
def Obligations.CacopIndexInvalidate : Prop :=
  ∀ (s : State) (code : BitVec 5) (rj : RegNum) (si : BitVec 12) (c : CacheId),
    s.Inv → s.plv = 0#2 → code.extractLsb' 3 2 = 1#2 →
    (code.extractLsb' 0 3, c) ∈ [(0#3, CacheId.l1i), (1#3, .l1d), (2#3, .l2)] →
    ∃ t, exec (.cacop code rj si) s = .next t ∧ t.pc = s.pc + 4#32 ∧
      ((s.params.geom c).present = true →
        ∃ reachesMemory, WrittenBackInvalid s t c (directPos (s.params.geom c) (cacopVa s rj si)) reachesMemory) ∧
      ((s.params.geom c).present = false → SameCaches s t ∧ SameMemory s t) ∧
      t.tlb = s.tlb ∧ t.idle = s.idle ∧ Frame [] [] s t ∧ SameLink s t

/-- R86: code[4:3] = 2 translates its address as a load at the current level, PLV3 included, raises what
that raises, and writes back and invalidates the line it hits; on a miss it does nothing. The clauses on
which line hits and where its bytes go rest on the model's choices: a hit is a valid line whose tag is
the line address (log 21), and the next level is as log 22 and log 35 say. -/
def Obligations.CacopHitInvalidate : Prop :=
  ∀ (s : State) (code : BitVec 5) (rj : RegNum) (si : BitVec 12) (c : CacheId),
    s.Inv → LegalLevel s → code.extractLsb' 3 2 = 2#2 →
    (code.extractLsb' 0 3, c) ∈ [(0#3, CacheId.l1i), (1#3, .l1d), (2#3, .l2)] →
    (∀ x, translate s (cacopVa s rj si) .load = .raise x →
      exec (.cacop code rj si) s = .next (s.takeException x (cacopVa s rj si))) ∧
    (∀ r, translate s (cacopVa s rj si) .load = .refuse r → exec (.cacop code rj si) s = .refused r) ∧
    (∀ a, translate s (cacopVa s rj si) .load = .pa a →
      ∃ t, exec (.cacop code rj si) s = .next t ∧ t.pc = s.pc + 4#32 ∧
        (∀ pos l, (s.params.geom c).present = true → (pos, l) ∈ s.cache c → l.valid = true →
          l.tag = lineBase (s.params.geom c) a →
          (∀ x ∈ s.cache c, x.2.valid = true → x.2.tag = lineBase (s.params.geom c) a → x.1 = pos) →
          ∃ reachesMemory, WrittenBackInvalid s t c pos reachesMemory) ∧
        ((s.params.geom c).present = false ∨
            (∀ x ∈ s.cache c, x.2.valid = true → x.2.tag ≠ lineBase (s.params.geom c) a) →
          SameCaches s t ∧ SameMemory s t) ∧
        t.tlb = s.tlb ∧ t.idle = s.idle ∧ Frame [] [] s t ∧ SameLink s t)

/-- R89: where the caches hold what memory holds, initialising, writing back and invalidating changes no
byte a later fetch or load reads, and the caches still hold what memory holds; with nothing in the caches
it changes neither. -/
def Obligations.CoherentCachesAreTransparent : Prop :=
  ∀ (s t : State) (code : BitVec 5) (rj : RegNum) (si : BitVec 12), s.Inv → code.extractLsb' 3 2 ≠ 3#2 →
    exec (.cacop code rj si) s = .next t →
      (CachesCoherent s → SameMemory s t ∧ CachesCoherent t) ∧
      ((∀ c, s.cache c = []) → SameCaches s t ∧ SameMemory s t)

/-- After the privilege check a CACOP on code[2:0] in 3..7, and the custom operation where the parameter
CACOP_CUSTOM gives none, are refused by name (R82, U3; R4, R87, U2). That the first comes before a
Hit-class CACOP's translation, and the second for a cache that is not present too, is read from R80 and
D21 (DEDUCED, log 20). -/
def Obligations.CacopStops : Prop :=
  ∀ (s : State) (code : BitVec 5) (rj : RegNum) (si : BitVec 12),
    (3 ≤ (code.extractLsb' 0 3).toNat → s.plv = 0#2 ∨ (s.plv = 3#2 ∧ code.extractLsb' 3 2 = 2#2) →
      exec (.cacop code rj si) s = .refused (.unnamedCache code)) ∧
    ((code.extractLsb' 0 3).toNat < 3 → code.extractLsb' 3 2 = 3#2 → s.plv = 0#2 →
      s.params.cacopCustom = .refused →
      exec (.cacop code rj si) s = .refused (.customCacheOp code))

/-- CACOP raises IPE, TLBR, PIL or PPI and nothing else, so never an alignment exception (R43, R50, R88). -/
def Obligations.CacopExceptions : Prop :=
  ∀ (s t : State) (code : BitVec 5) (rj : RegNum) (si : BitVec 12), exec (.cacop code rj si) s = .next t →
    (t.csr = s.csr ∧ t.pc = s.pc + 4#32) ∨
    ∃ x badv, x ∈ [Exc.ipe, .tlbr, .pil, .ppi] ∧ t = s.takeException x badv

/-! TLB maintenance (43_tlb_maintenance.md) -/

/-- TLBSRCH (R90), a hit written out as in R49 (`EntryHits`). That a valid entry of another ASID, not
global, whose PS is not legal does not stop the search, which `Searchable` admits, is the model's reading
(DEDUCED, log 16). -/
def Obligations.TlbsrchFinds : Prop :=
  ∀ s : State, s.Inv →
    (s.plv = 3#2 → exec .tlbsrch s = .next (s.raise .ipe)) ∧
    (s.plv = 0#2 → ∀ va : Word, va = (s.csr.tlbehi.extractLsb' 13 19 ++ 0#13 : BitVec 32) → Searchable s s.asid →
      ((∀ i, ¬ HitsAt s va s.asid i) → ∃ t, exec .tlbsrch s = .next t ∧
        t.csr.tlbidx.getLsbD 31 = true ∧ (∀ k, k < 31 → t.csr.tlbidx.getLsbD k = s.csr.tlbidx.getLsbD k) ∧
        t.pc = s.pc + 4#32 ∧ Frame [] [.tlbidx] s t ∧ SameStores s t ∧ SameLink s t) ∧
      (∀ i, HitsAt s va s.asid i → (∀ j, HitsAt s va s.asid j → j = i) → ∃ t, exec .tlbsrch s = .next t ∧
        t.tlbIndex = i ∧ t.csr.tlbidx.getLsbD 31 = false ∧
        (∀ k, s.params.tlbIdxLen ≤ k → k < 31 → t.csr.tlbidx.getLsbD k = s.csr.tlbidx.getLsbD k) ∧
        t.pc = s.pc + 4#32 ∧ Frame [] [.tlbidx] s t ∧ SameStores s t ∧ SameLink s t) ∧
      (∀ i j, i ≠ j → HitsAt s va s.asid i → HitsAt s va s.asid j →
        exec .tlbsrch s = .refused .multipleTlbHits))

/-- R93. -/
def Obligations.TlbrdReads : Prop :=
  ∀ (s : State) (e : TlbEntry), s.tlb[s.tlbIndex]? = some e →
    (s.plv = 3#2 → exec .tlbrd s = .next (s.raise .ipe)) ∧
    (s.plv = 0#2 → ∃ t, exec .tlbrd s = .next t ∧
      (e.e = true → t.csr.tlbehi = e.vppn ++ 0#13 ∧ t.csr.tlbelo0 = eloWord s.params e.page0 e.g ∧
        t.csr.tlbelo1 = eloWord s.params e.page1 e.g ∧ t.tlbPs = e.ps ∧ t.ne = false ∧ t.asid = e.asid) ∧
      (e.e = false → t.csr.tlbehi = 0#32 ∧ t.csr.tlbelo0 = 0#32 ∧ t.csr.tlbelo1 = 0#32 ∧ t.tlbPs = 0#6 ∧
        t.ne = true ∧ t.asid = 0#10) ∧
      (∀ k, k < 24 ∨ k = 30 → t.csr.tlbidx.getLsbD k = s.csr.tlbidx.getLsbD k) ∧
      (∀ k, 10 ≤ k → t.csr.asid.getLsbD k = s.csr.asid.getLsbD k) ∧
      t.pc = s.pc + 4#32 ∧ Frame [] [.tlbehi, .tlbelo0, .tlbelo1, .tlbidx, .asid] s t ∧ SameStores s t ∧
      SameLink s t)

/-- R94: the layout of the TLBELO word of a page-table entry, and that reading the word back gives the
entry, its page number within PALEN. -/
def Obligations.EloWordPacks : Prop :=
  ∀ (p : Params) (pg : Page) (g : Bool), p.wf = true →
    (eloWord p pg g).getLsbD 0 = pg.v ∧ (eloWord p pg g).getLsbD 1 = pg.d ∧
    (eloWord p pg g).extractLsb' 2 2 = pg.plv ∧ (eloWord p pg g).extractLsb' 4 2 = pg.mat ∧
    (eloWord p pg g).getLsbD 6 = g ∧ (eloWord p pg g).getLsbD 7 = false ∧
    (∀ k, k < p.palen - 12 → (eloWord p pg g).getLsbD (8 + k) = pg.ppn.getLsbD k) ∧
    (∀ k, p.palen - 4 ≤ k → (eloWord p pg g).getLsbD k = false) ∧
    (ppnFits p pg.ppn → Page.ofElo p (eloWord p pg g) = pg)

/-- R95. -/
def Obligations.TlbwrWrites : Prop :=
  ∀ s : State, s.Inv →
    (s.plv = 3#2 → exec .tlbwr s = .next (s.raise .ipe)) ∧
    (s.plv = 0#2 → ∃ t e, exec .tlbwr s = .next t ∧
      t.tlb[s.tlbIndex]? = some e ∧ (∀ j, j ≠ s.tlbIndex → t.tlb[j]? = s.tlb[j]?) ∧
      (s.ecode = 0x3F#6 → e.e = true) ∧ (s.ecode ≠ 0x3F#6 → e.e = !s.csr.tlbidx.getLsbD 31) ∧
      e.asid = s.csr.asid.extractLsb' 0 10 ∧ e.g = (s.csr.tlbelo0.getLsbD 6 && s.csr.tlbelo1.getLsbD 6) ∧
      e.ps = s.csr.tlbidx.extractLsb' 24 6 ∧ e.vppn = s.csr.tlbehi.extractLsb' 13 19 ∧
      e.page0 = Page.ofElo s.params s.csr.tlbelo0 ∧ e.page1 = Page.ofElo s.params s.csr.tlbelo1 ∧
      t.pc = s.pc + 4#32 ∧ Frame [] [] s t ∧ SameCaches s t ∧ SameMemory s t ∧ t.idle = s.idle ∧ SameLink s t)

/-- R96: TLBFILL writes the entry TLBWR would write, at some index. -/
def Obligations.TlbfillWritesSomeEntry : Prop :=
  ∀ s : State, s.Inv →
    (s.plv = 3#2 → exec .tlbfill s = .next (s.raise .ipe)) ∧
    (s.plv = 0#2 → ∃ t i, exec .tlbfill s = .next t ∧ i < s.params.tlbEntries ∧
      (∀ u, exec .tlbwr s = .next u → t.tlb[i]? = u.tlb[s.tlbIndex]?) ∧
      (∀ j, j ≠ i → t.tlb[j]? = s.tlb[j]?) ∧
      t.pc = s.pc + 4#32 ∧ Frame [] [] s t ∧ SameCaches s t ∧ SameMemory s t ∧ t.idle = s.idle ∧ SameLink s t)

/-- TLBRD after TLBWR of a valid entry gives the CSRs back, the two G bits as their AND (R93, R94, R95). -/
def Obligations.TlbrdAfterTlbwr : Prop :=
  ∀ s t u : State, s.Inv → s.plv = 0#2 → (s.ecode = 0x3F#6 ∨ s.ne = false) →
    exec .tlbwr s = .next t → exec .tlbrd t = .next u →
      u.csr.tlbehi = s.csr.tlbehi ∧ u.csr.asid = s.csr.asid ∧ u.tlbPs = s.tlbPs ∧ u.ne = false ∧
      u.tlbIndex = s.tlbIndex ∧
      (∀ k, k ≠ 6 → u.csr.tlbelo0.getLsbD k = s.csr.tlbelo0.getLsbD k) ∧
      (∀ k, k ≠ 6 → u.csr.tlbelo1.getLsbD k = s.csr.tlbelo1.getLsbD k) ∧
      u.csr.tlbelo0.getLsbD 6 = (s.csr.tlbelo0.getLsbD 6 && s.csr.tlbelo1.getLsbD 6) ∧
      u.csr.tlbelo1.getLsbD 6 = (s.csr.tlbelo0.getLsbD 6 && s.csr.tlbelo1.getLsbD 6)

/-- TLBSRCH after TLBWR of a valid entry of a legal page size finds it, when nothing else hits (R90, R95).
That another valid entry whose PS is not legal does not stop the search where it is of another ASID and
not global, which the premise admits, is the model's reading (DEDUCED, log 16). -/
def Obligations.TlbsrchAfterTlbwr : Prop :=
  ∀ s t : State, s.Inv → s.plv = 0#2 → (s.ecode = 0x3F#6 ∨ s.ne = false) → s.tlbPs.toNat ∈ s.params.psLegal →
    (∀ j e, j ≠ s.tlbIndex → s.tlb[j]? = some e →
      ¬ EntryHits s.params e (s.csr.tlbehi.extractLsb' 13 19 ++ 0#13 : BitVec 32) s.asid ∧
      (e.e = true → e.g = true ∨ e.asid = s.asid → e.ps.toNat ∈ s.params.psLegal)) →
    exec .tlbwr s = .next t →
      ∃ u, exec .tlbsrch t = .next u ∧ u.tlbIndex = s.tlbIndex ∧ u.ne = false

/-- R97 with the table R98: INVTLB clears the E bit of the entries its op selects, and changes nothing
else. -/
def Obligations.InvtlbClears : Prop :=
  ∀ (s : State) (op : BitVec 5) (rj rk : RegNum), s.plv = 0#2 → op.toNat ≤ 6 →
    (4 ≤ op.toNat → (s.readReg rj).extractLsb' 10 22 = 0#22) →
    (5 ≤ op.toNat → ∀ e ∈ s.tlb, e.e = true → e.ps.toNat ∈ s.params.psLegal) →
    ∃ t, exec (.invtlb op rj rk) s = .next t ∧
      t.tlb = s.tlb.map (fun e =>
        if selectedBy op.toNat e ((s.readReg rj).extractLsb' 0 10) (s.readReg rk) then { e with e := false } else e) ∧
      t.pc = s.pc + 4#32 ∧ Frame [] [] s t ∧ SameCaches s t ∧ SameMemory s t ∧ t.idle = s.idle ∧ SameLink s t

/-- R99: an operand the op does not need is not read; high bits in the ASID register stop the ops that
use it (U5); r0 as ASID register stands for ASID 0. -/
def Obligations.InvtlbOperands : Prop :=
  ∀ (s : State) (op : BitVec 5) (rj rj' rk rk' : RegNum),
    (op.toNat ≤ 3 → exec (.invtlb op rj rk) s = exec (.invtlb op rj' rk') s) ∧
    (op.toNat = 4 → exec (.invtlb op rj rk) s = exec (.invtlb op rj rk') s) ∧
    (4 ≤ op.toNat → op.toNat ≤ 6 → s.plv = 0#2 → (s.readReg rj).extractLsb' 10 22 ≠ 0#22 →
      exec (.invtlb op rj rk) s = .refused .invtlbAsidHighBits) ∧
    (4 ≤ op.toNat → op.toNat ≤ 6 → rj = 0#5 →
      (s.readReg rj).extractLsb' 10 22 = 0#22 ∧ (s.readReg rj).extractLsb' 0 10 = 0#10)

/-- R100: an undefined op raises INE; at PLV3 it raises IPE or INE. No TLB entry changes. -/
def Obligations.UndefinedInvtlbOp : Prop :=
  ∀ (s : State) (op : BitVec 5) (rj rk : RegNum), 7 ≤ op.toNat →
    (s.plv = 0#2 → exec (.invtlb op rj rk) s = .next (s.raise .ine) ∧ (s.raise .ine).tlb = s.tlb) ∧
    (s.plv = 3#2 → ∃ t x, (x = .ipe ∨ x = .ine) ∧ exec (.invtlb op rj rk) s = .next t ∧
      { t with draws := s.draws } = s.raise x ∧ t.tlb = s.tlb)

/-! ERTN and IDLE (44_misc_ertn_idle.md) -/

/-- R110 and R111. -/
def Obligations.ErtnReturns : Prop :=
  ∀ s : State,
    (s.plv = 3#2 → exec .ertn s = .next (s.raise .ipe)) ∧
    (s.plv = 0#2 → ∃ t, exec .ertn s = .next t ∧
      t.plv = s.csr.prmd.extractLsb' 0 2 ∧ t.ie = s.csr.prmd.getLsbD 2 ∧
      (s.ecode = 0x3F#6 → t.da = false ∧ t.pg = true) ∧ (s.ecode ≠ 0x3F#6 → t.da = s.da ∧ t.pg = s.pg) ∧
      (∀ k, 5 ≤ k → t.csr.crmd.getLsbD k = s.csr.crmd.getLsbD k) ∧
      (s.csr.klo = false → t.llbit = false) ∧ (s.csr.klo = true → t.llbit = s.llbit) ∧ t.csr.klo = false ∧
      t.pc = s.csr.era ∧ Frame [] [.crmd, .llbctl] s t ∧ SameStores s t)

/-- Of two ERTNs after one write of KLO the second clears the LLbit (R111). -/
def Obligations.SecondErtnClearsLink : Prop :=
  ∀ s t : State, s.plv = 0#2 → s.pplv = 0#2 → exec .ertn s = .next t →
    ∃ u, exec .ertn t = .next u ∧ u.llbit = false ∧ u.csr.klo = false

/-- R112 and R114: IDLE advances the pc and waits, whatever its level operand is. -/
def Obligations.IdleWaits : Prop :=
  ∀ (s : State) (level level' : BitVec 15),
    exec (.idle level) s = exec (.idle level') s ∧
    (s.plv = 3#2 → exec (.idle level) s = .next (s.raise .ipe)) ∧
    (s.plv = 0#2 → ∃ t, exec (.idle level) s = .next t ∧ t.pc = s.pc + 4#32 ∧ t.idle = true ∧
      Frame [] [] s t ∧ t.tlb = s.tlb ∧ SameCaches s t ∧ SameMemory s t ∧ SameLink s t)

/-- R113 with R28: the waiting core keeps every piece of its state; an interrupt that will be taken wakes
it, nothing wakes it while no interrupt is pending, and each admissible instance of IDLE_WAKE wakes it
exactly on its condition, in the state before the step or with the inputs the step samples. So where the
condition holds when IDLE executes, the core enters the wait and leaves it at once, whatever is sampled next
(R112). That the core that is not woken makes a step at all, to a next state, is the model's choice (log 29;
R113 gives it no step), and so is the form in which an unstated IDLE_WAKE is left free (log 11). -/
def Obligations.WaitingCoreWakes : Prop :=
  (∀ s u : State, CoreSteps s → u = s.sampled → LegalLevel u → u.idle = true →
    ∃ t, step s = .next t ∧
      (InterruptDue s ∨ InterruptDue u → t.idle = false) ∧
      (t.idle = false → InterruptPending s ∨ InterruptPending u) ∧
      (u.params.idleWake = .anyPending → (t.idle = false ↔ InterruptPending s ∨ InterruptPending u)) ∧
      (u.params.idleWake = .locallyEnabled → (t.idle = false ↔ InterruptEnabled s ∨ InterruptEnabled u)) ∧
      (u.params.idleWake = .taken → (t.idle = false ↔ InterruptDue s ∨ InterruptDue u)) ∧
      t.pc = u.pc ∧ Frame [] [] u t ∧ t.tlb = u.tlb ∧ SameCaches u t ∧ SameMemory u t ∧ SameLink u t) ∧
  ∀ (s t : State) (level : BitVec 15), s.plv = 0#2 → exec (.idle level) s = .next t → CoreSteps t →
    InterruptDue s ∨ (s.params.idleWake = .anyPending ∧ InterruptPending s) ∨
      (s.params.idleWake = .locallyEnabled ∧ InterruptEnabled s) →
    ∃ v, t.idle = true ∧ step t = .next v ∧ v.idle = false ∧ v.pc = s.pc + 4#32

/-! Privilege, exceptions, interrupts (60_exceptions.md) -/

/-- At PLV3 every privileged instruction but a Hit-class CACOP raises IPE, and so writes nothing else
(R73, R88, R92, R122, R126; INVTLB with an undefined op: R100). -/
def Obligations.UserModeRaisesIpe : Prop :=
  ∀ (s : State) (i : Instr), s.plv = 3#2 →
    (∀ code rj si, i = .cacop code rj si → code.extractLsb' 3 2 ≠ 2#2) →
    (∀ op rj rk, i = .invtlb op rj rk → op.toNat ≤ 6) →
    exec i s = .next (s.raise .ipe)

/-- While CRMD.PLV is 1 or 2 every step of the core and every instruction is refused (U6, D28; log 13). -/
def Obligations.IllegalLevelRefused : Prop :=
  (∀ s : State, CoreSteps s → s.sampled.plv = 1#2 ∨ s.sampled.plv = 2#2 → step s = .refused .illegalPlv) ∧
  (∀ (s : State) (i : Instr), s.plv = 1#2 ∨ s.plv = 2#2 → exec i s = .refused .illegalPlv)

/-- The way from PLV3 to another level is a trap entry, which goes to PLV0 with interrupts off at an entry
address, or a reset event (R123). -/
def Obligations.OnlyTrapOrResetLeavesPlv3 : Prop :=
  ∀ s t : State, s.plv = 3#2 → step s = .next t → t.plv ≠ 3#2 →
    (∃ env, s.env = .reset :: env) ∨
    (t.plv = 0#2 ∧ t.ie = false ∧ t.pplv = 3#2 ∧ t.csr.era = s.pc ∧
      (t.pc = s.csr.eentry &&& 0xFFFFFFC0#32 ∨ t.pc = s.csr.tlbrentry &&& 0xFFFFFFC0#32))

/-- At PLV3 no step of the core changes a general register, the TLB, the LLbit or KLO, or a CSR but
those trap entry writes; and a step that stays at PLV3 changes no CSR but ESTAT's sampled inputs
(R121, R122). -/
def Obligations.UserModeKeepsPrivilegedState : Prop :=
  ∀ s t : State, s.plv = 3#2 → CoreSteps s → step s = .next t →
    (∀ r, t.readReg r = s.readReg r) ∧ t.tlb = s.tlb ∧ SameLink s t ∧ t.params = s.params ∧
    (∀ c, c ∉ [Csr.crmd, .prmd, .era, .estat, .badv, .tlbehi] → t.readCsr c = s.readCsr c) ∧
    (t.plv = 3#2 → ∀ c, t.readCsr c = s.sampled.readCsr c)

/-- R125: the codes of the exceptions, and which record the address and which the page number too. -/
def Obligations.ExceptionCodes : Prop :=
  ([.int, .pil, .pis, .pif, .pme, .ppi, .adef, .adem, .ale, .sys, .brk, .ine, .ipe, .fpd, .fpe, .tlbr] :
      List Exc).map (fun x => (x.ecode.toNat, x.esubcode.toNat, x.recordsBadv, x.recordsVppn)) =
    [(0x0, 0, false, false), (0x1, 0, true, true), (0x2, 0, true, true), (0x3, 0, true, true),
     (0x4, 0, true, true), (0x7, 0, true, true), (0x8, 0, true, false), (0x8, 1, true, false),
     (0x9, 0, true, false), (0xB, 0, false, false), (0xC, 0, false, false), (0xD, 0, false, false),
     (0xE, 0, false, false), (0xF, 0, false, false), (0x12, 0, false, false), (0x3F, 0, true, true)]

/-- Trap entry (R136); and the fetch: an exception that its translation raises is taken with the pc as its
address, and a translation that is refused refuses the step (R8, R44, R48, R134). That the address recorded
is the pc is read from R44 and R48 (DEDUCED, log 31). -/
def Obligations.TrapEntryWrites : Prop :=
  (∀ s u : State, CoreSteps s → u = s.sampled → LegalLevel u → u.idle = false → ¬ InterruptDue u →
    u.pc.extractLsb' 0 2 = 0#2 →
    (∀ x, translate u u.pc .fetch = .raise x → step s = .next (u.takeException x u.pc)) ∧
    (∀ r, translate u u.pc .fetch = .refuse r → step s = .refused r)) ∧
  ∀ (s t : State) (x : Exc) (badv : Word), t = s.takeException x badv →
    t.csr.prmd.extractLsb' 0 2 = s.plv ∧ t.csr.prmd.getLsbD 2 = s.ie ∧
    (∀ k, 3 ≤ k → t.csr.prmd.getLsbD k = s.csr.prmd.getLsbD k) ∧
    t.plv = 0#2 ∧ t.ie = false ∧ t.csr.era = s.pc ∧
    t.ecode = x.ecode ∧ t.esubcode = x.esubcode ∧
    (∀ k, k < 16 ∨ k = 31 → t.csr.estat.getLsbD k = s.csr.estat.getLsbD k) ∧
    (x ∈ [Exc.tlbr, .pil, .pis, .pif, .pme, .ppi, .adef, .adem, .ale] → t.csr.badv = badv) ∧
    (x ∉ [Exc.tlbr, .pil, .pis, .pif, .pme, .ppi, .adef, .adem, .ale] → t.csr.badv = s.csr.badv) ∧
    (x ∈ [Exc.tlbr, .pil, .pis, .pif, .pme, .ppi] → t.csr.tlbehi.extractLsb' 13 19 = badv.extractLsb' 13 19 ∧
      t.csr.tlbehi.extractLsb' 0 13 = s.csr.tlbehi.extractLsb' 0 13) ∧
    (x ∉ [Exc.tlbr, .pil, .pis, .pif, .pme, .ppi] → t.csr.tlbehi = s.csr.tlbehi) ∧
    (x = .tlbr → t.da = true ∧ t.pg = false ∧ t.pc = s.csr.tlbrentry.extractLsb' 6 26 ++ 0#6) ∧
    (x ≠ .tlbr → t.da = s.da ∧ t.pg = s.pg ∧ t.pc = s.csr.eentry.extractLsb' 6 26 ++ 0#6) ∧
    (∀ k, 5 ≤ k → t.csr.crmd.getLsbD k = s.csr.crmd.getLsbD k) ∧
    Frame [] [.prmd, .crmd, .era, .estat, .badv, .tlbehi] s t ∧ SameStores s t ∧ SameLink s t

/-- ERTN undoes trap entry: level, interrupt enable, pc and, after a TLB refill taken in mapped mode, the
translation mode are as before the exception (R110, R136, R139). -/
def Obligations.ErtnInvertsTrapEntry : Prop :=
  ∀ (s : State) (x : Exc) (badv : Word), (x = .tlbr → s.da = false ∧ s.pg = true) →
    ∃ t, exec .ertn (s.takeException x badv) = .next t ∧ t.pc = s.pc ∧ t.csr.crmd = s.csr.crmd ∧
      (∀ r, t.readReg r = s.readReg r)

/-- R133: at the start of a step an interrupt that is pending, locally and globally enabled (R132) is
taken before any instruction is fetched: the step is trap entry, and turns interrupts off. -/
def Obligations.InterruptTakenFirst : Prop :=
  ∀ s u : State, CoreSteps s → u = s.sampled → LegalLevel u → u.idle = false →
    u.csr.crmd.getLsbD 2 = true →
    (∃ k, k < 13 ∧ k ≠ 10 ∧ u.csr.estat.getLsbD k = true ∧ u.csr.ecfg.getLsbD k = true) →
    ∃ t, step s = .next t ∧ t = u.raise .int ∧ t.csr.era = u.pc ∧ t.ecode = 0#6 ∧ t.esubcode = 0#9 ∧
      t.pplv = u.plv ∧ t.pie = true ∧ t.plv = 0#2 ∧ t.ie = false ∧ ¬ InterruptDue t ∧
      t.pc = u.csr.eentry.extractLsb' 6 26 ++ 0#6 ∧
      Frame [] [.prmd, .crmd, .era, .estat] u t ∧ SameStores u t ∧ SameLink u t

/-- A fetch at a pc whose low two bits are not 0 raises ADEF with the pc as address (R44, R125, R136). -/
def Obligations.MisalignedPcRaisesAdef : Prop :=
  ∀ s u : State, CoreSteps s → u = s.sampled → LegalLevel u → u.idle = false → ¬ InterruptDue u →
    u.pc.extractLsb' 0 2 ≠ 0#2 →
    ∃ t, step s = .next t ∧ t = u.takeException .adef u.pc ∧
      t.ecode = 0x8#6 ∧ t.esubcode = 0#9 ∧ t.csr.badv = u.pc ∧ t.csr.era = u.pc ∧
      t.plv = 0#2 ∧ t.pc = u.csr.eentry.extractLsb' 6 26 ++ 0#6 ∧
      Frame [] [.prmd, .crmd, .era, .estat, .badv] u t ∧ SameStores u t ∧ SameLink u t

/-- A fetch in mapped mode that no window takes and no TLB entry hits raises TLBR, which switches to
direct address mode at TLBRENTRY (R44, R48, R49, R128, R136). That a valid entry of another ASID, not
global, whose PS is not legal does not stop the search, which `Searchable` admits, is the model's reading
(DEDUCED, log 16). -/
def Obligations.FetchMissRaisesRefill : Prop :=
  ∀ s u : State, CoreSteps s → u = s.sampled → LegalLevel u → u.idle = false → ¬ InterruptDue u →
    u.pc.extractLsb' 0 2 = 0#2 → ThroughTlb u u.pc → Searchable u u.asid →
    (∀ i, ¬ HitsAt u u.pc u.asid i) →
    ∃ t, step s = .next t ∧ t = u.takeException .tlbr u.pc ∧
      t.ecode = 0x3F#6 ∧ t.csr.badv = u.pc ∧ t.vppn = u.pc.extractLsb' 13 19 ∧
      t.csr.era = u.pc ∧ t.plv = 0#2 ∧ t.ie = false ∧ t.da = true ∧ t.pg = false ∧
      t.pc = u.csr.tlbrentry.extractLsb' 6 26 ++ 0#6 ∧
      Frame [] [.prmd, .crmd, .era, .estat, .badv, .tlbehi] u t ∧ SameStores u t ∧ SameLink u t

/-! The step, reset and the legal states (00_scope.md, 70_reset_and_hazards.md) -/

/-- R8: when no reset event comes, the core is at a legal level, not waiting, and no interrupt is taken,
because IE = 0 or no pending line is enabled (R132, R133), the step is the meaning of the instruction
that the four bytes at the translated pc decode to, run on the state with the inputs sampled. -/
def Obligations.StepRunsDecodedInstruction : Prop :=
  ∀ (s u : State) (a : PAddr) (w : Nat) (i : Instr), CoreSteps s → u = s.sampled → LegalLevel u →
    u.idle = false →
    (u.csr.crmd.getLsbD 2 = false ∨
      ∀ k, k < 13 → k ≠ 10 → u.csr.estat.getLsbD k = false ∨ u.csr.ecfg.getLsbD k = false) →
    u.pc.extractLsb' 0 2 = 0#2 →
    translate u u.pc .fetch = .pa a → u.params.holdsWord a.toNat = true → memRead u.mem a.toNat 4 = some w →
    decodeWord (BitVec.ofNat 32 w) = .ok i → step s = exec i u

/-- R46, D5: where a fetch finds no memory, the platform's fault behaviour decides: the exception the
platform says is taken with the pc as its address, and a platform that says nothing stops the step by name. Where
there is memory and its bytes are not known, the step stops by another name. The forms this takes are the
model's choice (log 6). -/
def Obligations.FetchWithoutMemoryFaults : Prop :=
  ∀ (s u : State) (a : PAddr), CoreSteps s → u = s.sampled → LegalLevel u → u.idle = false →
    ¬ InterruptDue u → u.pc.extractLsb' 0 2 = 0#2 → translate u u.pc .fetch = .pa a →
    ((∃ k, k < 4 ∧ u.params.holdsMemory (a.toNat + k) = false) →
      (u.params.unmapped = .stop → step s = .fault (.noMemoryAtFetch a)) ∧
      (∀ x, u.params.unmapped = .raises x → step s = .next (u.takeException x u.pc))) ∧
    ((∀ k, k < 4 → u.params.holdsMemory (a.toNat + k) = true) → memRead u.mem a.toNat 4 = none →
      step s = .fault (.noByteAtFetch a))

/-- R152: the mode and the interrupt masks after reset, for every choice of the parameters and of memory. -/
def Obligations.ResetModeAndMasks : Prop :=
  ∀ (p : Params) (m : Memory) (s : State), s = State.resetWith p m →
    s.plv = 0#2 ∧ s.ie = false ∧ s.csr.ecfg.extractLsb' 0 13 = 0#13 ∧ s.da = true ∧ s.pg = false

/-- R150, with the defined rows of R151: the reset event, at any time, the waiting state included. -/
def Obligations.ResetEventRestarts : Prop :=
  ∀ (s : State) (env : List EnvEvent), s.env = .reset :: env →
    ∃ t, step s = .next t ∧ t.idle = false ∧ t.pc = s.params.resetPc ∧ t.readReg 0#5 = 0#32 ∧
      t.csr.crmd = 0x00000008#32 ∧ t.plv = 0#2 ∧ t.ie = false ∧ t.csr.ecfg = 0#32 ∧
      t.csr.estat.extractLsb' 0 2 = 0#2 ∧ t.csr.asid.extractLsb' 10 22 = 0x280#22 ∧
      t.llbit = false ∧ t.csr.klo = false ∧
      t.csr.dmw0.getLsbD 0 = false ∧ t.csr.dmw0.getLsbD 3 = false ∧
      t.csr.dmw1.getLsbD 0 = false ∧ t.csr.dmw1.getLsbD 3 = false ∧
      t.tlb.length = s.params.tlbEntries ∧
      (∃ a, translate t t.pc .fetch = .pa a ∧ a.toNat = s.params.resetPc.toNat % 2 ^ s.params.palen)

/-- The reset state is legal, for every legal choice of the parameters and every memory the platform gives
that lies within its map (R46; the unspecified values are the model's choice, log 1 to 5). -/
def Obligations.ResetStateIsLegal : Prop :=
  ∀ (p : Params) (m : Memory), p.wf = true → m.wf → (∀ x ∈ m, p.holdsMemory x.1 = true) →
    (State.resetWith p m).Inv

/-- Every step keeps the legal states: memory and caches canonical, memory only where the platform's map, which
no step changes, has it (R46), every hard-wired CSR bit as its layout says (R14 to R31), one TLB entry per
index, page numbers within PALEN. -/
def Obligations.StepKeepsLegalStates : Prop :=
  ∀ s t : State, s.Inv → step s = .next t → t.Inv

/-- No step changes the parameters, and each takes exactly the next event of the environment (the model's
own fields, log 8 and 9). -/
def Obligations.StepKeepsParametersTakesOneEvent : Prop :=
  ∀ s t : State, step s = .next t → t.params = s.params ∧ t.env = s.env.tail

/-! What the environment brings, and the caches beyond one CACOP -/

/-- R19, R131: an event that brings the interrupt inputs puts them into ESTAT.IS[9:2], IS[11] and IS[12]
and changes no other bit of ESTAT and nothing else; where it is the last event listed and the core is not
waiting, the step is that of the state sampled (with more events to come, the statements about a step link
it to `sampled`; a waiting core looks at the inputs before the sample too: `WaitingCoreWakes`); with no
event, or before a reset event, the state is as it is. That the events are a list is the model's choice
(log 9). -/
def Obligations.InterruptInputsSampled : Prop :=
  ∀ s : State,
    (∀ hwi ti ipi env, s.env = .lines hwi ti ipi :: env →
      s.sampled.csr.estat.extractLsb' 2 8 = hwi ∧ s.sampled.csr.estat.getLsbD 11 = ti ∧
      s.sampled.csr.estat.getLsbD 12 = ipi ∧
      (∀ k, (k < 2 ∨ k = 10 ∨ 12 < k) → s.sampled.csr.estat.getLsbD k = s.csr.estat.getLsbD k) ∧
      s.sampled.env = env ∧
      { s.sampled with env := s.env, csr := { s.sampled.csr with estat := s.csr.estat } } = s ∧
      (env = [] → s.idle = false → step s = step s.sampled)) ∧
    ((∀ hwi ti ipi env, s.env ≠ .lines hwi ti ipi :: env) → s.sampled = s)

/-- R87 with U2: where CACOP_CUSTOM gives an operation, CACOP with code[4:3] = 3 on a named cache
completes at PLV0 and changes nothing but the caches and memory, and nothing at all but the pc where that
cache is not present (R82, D20). What it does to them is a free value: the model's choice (log 20). -/
def Obligations.CacopCustomOperation : Prop :=
  ∀ (s : State) (code : BitVec 5) (rj : RegNum) (si : BitVec 12) (c : CacheId),
    code.extractLsb' 3 2 = 3#2 → (code.extractLsb' 0 3, c) ∈ [(0#3, CacheId.l1i), (1#3, .l1d), (2#3, .l2)] →
    s.params.cacopCustom = .defined →
    (s.plv = 3#2 → exec (.cacop code rj si) s = .next (s.raise .ipe)) ∧
    (s.plv = 0#2 → ∃ t, exec (.cacop code rj si) s = .next t ∧ t.pc = s.pc + 4#32 ∧
      ((s.params.geom c).present = false → SameCaches s t ∧ SameMemory s t) ∧
      t.tlb = s.tlb ∧ t.idle = s.idle ∧ Frame [] [] s t ∧ SameLink s t ∧
      (s.Inv → t.Inv))

/-- R85 from level to level: when a dirty line of the level-1 data cache is written back, and then the
level-2 line that holds one of its addresses, memory holds the level-1 line's byte, where the map has memory:
the level-2 line was not left stale. The next level and the tag are as log 21 and log 22 say. -/
def Obligations.WriteBacksReachMemory : Prop :=
  ∀ (s t u : State) (rj rj' : RegNum) (si si' : BitVec 12) (pos pos' x : Nat), s.Inv → s.plv = 0#2 →
    (s.params.geom .l1d).present = true → (s.params.geom .l2).present = true →
    pos = directPos (s.params.geom .l1d) (cacopVa s rj si) →
    pos' = directPos (s.params.geom .l2) (cacopVa s rj' si') →
    (s.l1d.at pos).valid = true → (s.l1d.at pos).dirty = true → InLine (s.l1d.at pos) x →
    (s.l2.at pos').valid = true → InLine (s.l2.at pos') x → s.params.holdsMemory x = true →
    exec (.cacop 0x09#5 rj si) s = .next t → exec (.cacop 0x0A#5 rj' si') t = .next u →
      u.mem.readByte x = (s.l1d.at pos).data[x - (s.l1d.at pos).tag.toNat]? ∧
      (u.l1d.at pos).valid = false ∧ (u.l2.at pos').valid = false
end

