-- ==== Sys2Proof/Laws/Bits.lean ====
section
/-! SUPPORT. Bit fields: what a field holds after it, or another one, is written. -/

namespace Sys2Proof.Machine

theorem getLsbD_lowMask (w n i : Nat) : (lowMask w n).getLsbD i = (decide (i < w) && decide (i < n)) := by
  simp [lowMask, BitVec.getLsbD_ofNat, Nat.testBit_two_pow_sub_one]

theorem getElem_lowMask (w n i : Nat) (h : i < w) : (lowMask w n)[i] = decide (i < n) := by
  rw [← BitVec.getLsbD_eq_getElem, getLsbD_lowMask]; simp [h]

/-- Keeping the low bits of a word is taking a remainder. -/
theorem toNat_and_lowMask (w n : Nat) (a : BitVec w) : (a &&& lowMask w n).toNat = a.toNat % 2 ^ n := by
  apply Nat.eq_of_testBit_eq
  intro i
  rw [Nat.testBit_mod_two_pow, ← BitVec.getLsbD, ← BitVec.getLsbD, BitVec.getLsbD_and, getLsbD_lowMask]
  by_cases h : i < w
  · simp [h, Bool.and_comm]
  · simp [BitVec.getLsbD_of_ge a i (by omega)]

/-- A field write, bit by bit. -/
theorem getLsbD_setField (v : Word) (lo : Nat) {len : Nat} (f : BitVec len) (i : Nat) :
    (setField v lo f).getLsbD i =
      if lo ≤ i ∧ i < lo + len ∧ i < 32 then f.getLsbD (i - lo) else v.getLsbD i := by
  simp only [setField, BitVec.getLsbD_or, BitVec.getLsbD_and, BitVec.getLsbD_not,
    BitVec.getLsbD_shiftLeft, BitVec.getLsbD_setWidth, getLsbD_lowMask]
  by_cases h32 : i < 32
  · by_cases hlo : lo ≤ i
    · have h1 : ¬ i < lo := by omega
      have h2 : i - lo < 32 := by omega
      by_cases hl : i < lo + len
      · have h3 : i - lo < len := by omega
        simp [h32, hlo, h1, h2, hl, h3]
      · have h3 : ¬ i - lo < len := by omega
        have h4 : f.getLsbD (i - lo) = false := BitVec.getLsbD_of_ge _ _ (by omega)
        simp [h32, hlo, h1, h2, hl, h3, h4]
    · have h1 : i < lo := by omega
      simp [h32, hlo, h1]
  · have : v.getLsbD i = false := BitVec.getLsbD_of_ge _ _ (by omega)
    simp [h32, this]

theorem getLsbD_setBit (v : Word) (k : Nat) (b : Bool) (i : Nat) :
    (setBit v k b).getLsbD i = if i = k ∧ i < 32 then b else v.getLsbD i := by
  rw [setBit, getLsbD_setField]
  by_cases h : i = k ∧ i < 32
  · obtain ⟨rfl, h⟩ := h
    simp [h]
  · rw [if_neg (by omega), if_neg h]

/-- A field read right after it is written. -/
theorem getField_setField_same (v : Word) (lo : Nat) {len : Nat} (f : BitVec len) (h : lo + len ≤ 32) :
    getField (setField v lo f) lo len = f := by
  ext i hi
  simp only [getField, BitVec.getElem_extractLsb', getLsbD_setField]
  rw [if_pos (by omega)]
  simp [hi]

/-- A field read after a field that does not meet it is written. -/
theorem getField_setField_other (v : Word) (lo : Nat) {len : Nat} (f : BitVec len) (lo' len' : Nat)
    (h : lo' + len' ≤ lo ∨ lo + len ≤ lo') : getField (setField v lo f) lo' len' = getField v lo' len' := by
  ext i hi
  simp only [getField, BitVec.getElem_extractLsb', getLsbD_setField]
  rw [if_neg (by omega)]

theorem getBit_setBit_same (v : Word) (k : Nat) (b : Bool) (h : k < 32) : getBit (setBit v k b) k = b := by
  rw [getBit, getLsbD_setBit, if_pos ⟨rfl, h⟩]

theorem getBit_setBit_other (v : Word) (k : Nat) (b : Bool) (i : Nat) (h : i ≠ k) :
    getBit (setBit v k b) i = getBit v i := by
  rw [getBit, getLsbD_setBit, if_neg (by omega), getBit]

theorem getBit_setField_other (v : Word) (lo : Nat) {len : Nat} (f : BitVec len) (i : Nat)
    (h : i < lo ∨ lo + len ≤ i) : getBit (setField v lo f) i = getBit v i := by
  rw [getBit, getLsbD_setField, if_neg (by omega)]; rfl

theorem getField_setBit_other (v : Word) (k : Nat) (b : Bool) (lo len : Nat) (h : k < lo ∨ lo + len ≤ k) :
    getField (setBit v k b) lo len = getField v lo len :=
  getField_setField_other v k _ lo len (by omega)

/-- Writing back what a field holds changes nothing. -/
theorem setField_getField (v : Word) (lo len : Nat) : setField v lo (getField v lo len) = v := by
  apply BitVec.eq_of_getLsbD_eq
  intro i hi
  rw [getLsbD_setField]
  split
  · rw [getField, BitVec.getLsbD_extractLsb']
    have h1 : lo + (i - lo) = i := by omega
    have h2 : i - lo < len := by omega
    simp [h1, h2]
  · rfl

/-- Little-endian bytes stand for the number they were made from, kept to their width (R42). -/
theorem leNat_leBytes (n v : Nat) : leNat (leBytes n v) = v % 256 ^ n := by
  induction n generalizing v with
  | zero => simp [leBytes, leNat, Nat.mod_one]
  | succ n ih =>
    have h : v % 256 ^ (n + 1) = v % 256 + 256 * (v / 256 % 256 ^ n) := by
      rw [Nat.pow_succ' (m := 256), Nat.mod_mul]
    rw [leBytes, leNat, ih, BitVec.toNat_ofNat, h]

@[simp] theorem leBytes_length (n v : Nat) : (leBytes n v).length = n := by
  induction n generalizing v with
  | zero => rfl
  | succ n ih => simp [leBytes, ih]

/-- Byte `k` of a number is bits `8k+7:8k` of it (R42). -/
theorem leBytes_getElem (n v k : Nat) (h : k < (leBytes n v).length) :
    (leBytes n v)[k] = BitVec.ofNat 8 (v / 256 ^ k) := by
  induction n generalizing v k with
  | zero => simp [leBytes] at h
  | succ n ih =>
    cases k with
    | zero => simp [leBytes]
    | succ k =>
      simp only [leBytes, List.getElem_cons_succ]
      rw [ih (v / 256) k (by simpa [leBytes] using h), Nat.div_div_eq_div_mul, Nat.pow_succ']

end Sys2Proof.Machine
end

