-- ==== Sys2Proof/Laws/Memory.lean ====
section
/-! SUPPORT. Memory: reading after writing, and the canonical form. -/

namespace Sys2Proof.Machine

/-- Reading one byte after writing one. -/
theorem readByte_writeByte (m : Memory) (hm : m.wf) (a : Nat) (b : Byte) (x : Nat) :
    (m.writeByte a b).readByte x = if x = a then some b else m.readByte x := by
  induction m with
  | nil => simp only [Memory.writeByte, Memory.readByte]; grind
  | cons c m ih =>
    obtain ⟨k, v⟩ := c
    have hm' := List.pairwise_cons.mp hm
    simp only [Memory.writeByte]
    split
    · simp only [Memory.readByte]; grind
    · split
      · simp only [Memory.readByte]; grind
      · simp only [Memory.readByte, ih hm'.2]; grind

theorem mem_writeByte (m : Memory) (a : Nat) (b : Byte) (c : Host.Cell) (h : c ∈ m.writeByte a b) :
    c ∈ m ∨ c = (a, b) := by
  induction m with
  | nil => simp [Memory.writeByte] at h; simp [h]
  | cons d m ih =>
    obtain ⟨k, v⟩ := d
    simp only [Memory.writeByte] at h
    split at h
    · simp at h; grind
    · split at h
      · simp at h; grind
      · simp at h; grind

/-- Writing a byte keeps the canonical form. -/
theorem writeByte_wf (m : Memory) (hm : m.wf) (a : Nat) (b : Byte) : (m.writeByte a b).wf := by
  induction m with
  | nil => simp [Memory.writeByte, Memory.wf]
  | cons d m ih =>
    obtain ⟨k, v⟩ := d
    have hm' := List.pairwise_cons.mp hm
    simp only [Memory.writeByte]
    split
    · refine List.pairwise_cons.mpr ⟨?_, hm⟩
      intro c hc
      rcases List.mem_cons.mp hc with rfl | hc
      · assumption
      · have := hm'.1 c hc; grind
    · split
      · next h => subst h; exact List.pairwise_cons.mpr ⟨hm'.1, hm'.2⟩
      · refine List.pairwise_cons.mpr ⟨?_, ih hm'.2⟩
        intro c hc
        rcases mem_writeByte m a b c hc with hc | rfl
        · exact hm'.1 c hc
        · grind

/-- Writing bytes keeps the canonical form. -/
theorem writeBytes_wf (bs : List Byte) : ∀ (m : Memory) (a : Nat), m.wf → (m.writeBytes a bs).wf := by
  induction bs with
  | nil => exact fun _ _ h => h
  | cons b bs ih => exact fun m a h => ih _ _ (writeByte_wf m h a b)

theorem memWrite_wf (m : Memory) (hm : m.wf) (a n v : Nat) : (memWrite m a n v).wf :=
  writeBytes_wf _ _ _ hm

/-- Reading one byte after writing several: the written one within, as before without. -/
theorem readByte_writeBytes (bs : List Byte) : ∀ (m : Memory) (_ : m.wf) (a x : Nat),
    (m.writeBytes a bs).readByte x =
      if h : a ≤ x ∧ x < a + bs.length then some (bs[x - a]'(by omega)) else m.readByte x := by
  induction bs with
  | nil => intro m _ a x; simp [Memory.writeBytes]
  | cons b bs ih =>
    intro m hm a x
    rw [Memory.writeBytes, ih _ (writeByte_wf m hm a b), readByte_writeByte m hm]
    simp only [List.length_cons]
    by_cases h1 : x = a
    · subst h1
      rw [dif_neg (by omega), dif_pos (by omega)]; simp
    · by_cases h2 : a + 1 ≤ x ∧ x < a + 1 + bs.length
      · rw [dif_pos h2, dif_pos (by omega)]
        have : x - a = (x - (a + 1)) + 1 := by omega
        simp [this]
      · rw [dif_neg h2, dif_neg (by omega), if_neg h1]

/-- Writing chosen bytes keeps the canonical form. -/
theorem writeBytesWhere_wf (chosen : Nat → Bool) (bs : List Byte) :
    ∀ (m : Memory) (a : Nat), m.wf → (m.writeBytesWhere chosen a bs).wf := by
  induction bs with
  | nil => exact fun _ _ h => h
  | cons b bs ih =>
    intro m a h
    rw [Memory.writeBytesWhere]
    split
    · exact ih _ _ (writeByte_wf m h a b)
    · exact ih _ _ h

/-- Writing chosen bytes lists no other address. -/
theorem mem_writeBytesWhere (chosen : Nat → Bool) (bs : List Byte) (c : Host.Cell) :
    ∀ (m : Memory) (a : Nat), c ∈ m.writeBytesWhere chosen a bs → c ∈ m ∨ chosen c.1 = true := by
  induction bs with
  | nil => exact fun _ _ h => .inl h
  | cons b bs ih =>
    intro m a h
    rw [Memory.writeBytesWhere] at h
    rcases ih _ _ h with h | h
    · split at h
      · next hc => exact (mem_writeByte m a b c h).imp id fun e => by rw [e]; exact hc
      · exact .inl h
    · exact .inr h

/-- Reading one byte after writing chosen ones: the written one where it is within and chosen. -/
theorem readByte_writeBytesWhere (chosen : Nat → Bool) (bs : List Byte) : ∀ (m : Memory) (_ : m.wf) (a x : Nat),
    (m.writeBytesWhere chosen a bs).readByte x =
      if (a ≤ x ∧ x < a + bs.length) ∧ chosen x = true then bs[x - a]? else m.readByte x := by
  induction bs with
  | nil => intro m _ a x; rw [Memory.writeBytesWhere, if_neg (by simp only [List.length_nil]; omega)]
  | cons b bs ih =>
    intro m hm a x
    have hm' : Memory.wf (if chosen a = true then m.writeByte a b else m) := by
      split
      · exact writeByte_wf m hm a b
      · exact hm
    rw [Memory.writeBytesWhere, ih _ hm']
    simp only [List.length_cons]
    by_cases h1 : x = a
    · subst h1
      rw [if_neg (by omega)]
      by_cases hc : chosen x = true
      · rw [if_pos hc, if_pos ⟨by omega, hc⟩, readByte_writeByte m hm]; simp
      · rw [if_neg hc, if_neg (by simp [hc])]
    · have h0 : Memory.readByte (if chosen a = true then m.writeByte a b else m) x = m.readByte x := by
        split
        · rw [readByte_writeByte m hm, if_neg h1]
        · rfl
      rw [h0]
      by_cases h2 : a + 1 ≤ x ∧ x < a + 1 + bs.length
      · have : x - a = (x - (a + 1)) + 1 := by omega
        by_cases hc : chosen x = true
        · rw [if_pos ⟨h2, hc⟩, if_pos ⟨by omega, hc⟩, this]; simp
        · rw [if_neg (by simp [hc]), if_neg (by simp [hc])]
      · rw [if_neg (fun h => h2 h.1), if_neg (by omega)]

/-- What an access of several bytes reads, byte by byte. -/
theorem readBytes_eq_some (m : Memory) : ∀ (n a : Nat) (bs : List Byte),
    m.readBytes a n = some bs ↔ bs.length = n ∧ ∀ k (h : k < bs.length), m.readByte (a + k) = some bs[k] := by
  intro n
  induction n with
  | zero =>
    intro a bs
    simp only [Memory.readBytes, Option.some.injEq]
    constructor
    · rintro rfl; simp
    · rintro ⟨h, -⟩; exact (List.length_eq_zero_iff.mp h).symm
  | succ n ih =>
    intro a bs
    simp only [Memory.readBytes]
    constructor
    · intro h
      split at h
      · next b bs' hb hbs =>
        simp only [Option.some.injEq] at h
        subst h
        obtain ⟨hl, hk⟩ := (ih _ _).mp hbs
        refine ⟨by simp [hl], ?_⟩
        intro k hk'
        cases k with
        | zero => simpa using hb
        | succ k => have := hk k (by simpa using hk'); simpa [Nat.add_assoc, Nat.add_comm 1] using this
      · simp at h
    · rintro ⟨hl, hk⟩
      cases bs with
      | nil => simp at hl
      | cons b bs =>
        have h0 := hk 0 (by simp)
        have h1 : m.readBytes (a + 1) n = some bs := by
          refine (ih _ _).mpr ⟨by simpa using hl, ?_⟩
          intro k hk'
          have := hk (k + 1) (by simpa using hk')
          simpa [Nat.add_assoc, Nat.add_comm 1] using this
        simp at h0
        simp [h0, h1]

/-- A number read back where it was written (R42). -/
theorem memRead_memWrite (m : Memory) (hm : m.wf) (a n v : Nat) :
    memRead (memWrite m a n v) a n = some (v % 256 ^ n) := by
  have : (memWrite m a n v).readBytes a n = some (leBytes n v) := by
    refine (readBytes_eq_some _ _ _ _).mpr ⟨by simp, ?_⟩
    intro k hk
    rw [memWrite, readByte_writeBytes _ _ hm, dif_pos (by omega)]
    simp
  simp [memRead, this, leNat_leBytes]

end Sys2Proof.Machine
end

