-- ==== Sys2Proof/Laws/State.lean ====
section
/-! SUPPORT. One lemma per field per update of the state, and what registers and CSRs read as after each. -/

namespace Sys2Proof.Machine

theorem readReg_congr {s t : State} (h : t.gpr = s.gpr) (r : RegNum) : t.readReg r = s.readReg r := by
  simp only [State.readReg, h]

theorem readCsr_congr {s t : State} (h : t.csr = s.csr) (hl : t.llbit = s.llbit) (c : Csr) :
    t.readCsr c = s.readCsr c := by
  cases c <;> simp only [State.readCsr, h, hl]


@[simp] theorem advance_params (s : State) : s.advance.params = s.params := rfl
@[simp] theorem advance_gpr (s : State) : s.advance.gpr = s.gpr := rfl
@[simp] theorem advance_csr (s : State) : s.advance.csr = s.csr := rfl
@[simp] theorem advance_llbit (s : State) : s.advance.llbit = s.llbit := rfl
@[simp] theorem advance_tlb (s : State) : s.advance.tlb = s.tlb := rfl
@[simp] theorem advance_l1i (s : State) : s.advance.l1i = s.l1i := rfl
@[simp] theorem advance_l1d (s : State) : s.advance.l1d = s.l1d := rfl
@[simp] theorem advance_l2 (s : State) : s.advance.l2 = s.l2 := rfl
@[simp] theorem advance_idle (s : State) : s.advance.idle = s.idle := rfl
@[simp] theorem advance_mem (s : State) : s.advance.mem = s.mem := rfl
@[simp] theorem advance_env (s : State) : s.advance.env = s.env := rfl
@[simp] theorem advance_draws (s : State) : s.advance.draws = s.draws := rfl
@[simp] theorem readReg_advance (s : State) (r' : RegNum) : s.advance.readReg r' = s.readReg r' :=
  readReg_congr (by simp) r'
@[simp] theorem readCsr_advance (s : State) (c' : Csr) : s.advance.readCsr c' = s.readCsr c' :=
  readCsr_congr (by simp) (by simp) c'
@[simp] theorem cache_advance (s : State) (c' : CacheId) : s.advance.cache c' = s.cache c' := by
  cases c' <;> simp [State.cache]

@[simp] theorem tick_params (s : State) : s.tick.params = s.params := rfl
@[simp] theorem tick_gpr (s : State) : s.tick.gpr = s.gpr := rfl
@[simp] theorem tick_pc (s : State) : s.tick.pc = s.pc := rfl
@[simp] theorem tick_csr (s : State) : s.tick.csr = s.csr := rfl
@[simp] theorem tick_llbit (s : State) : s.tick.llbit = s.llbit := rfl
@[simp] theorem tick_tlb (s : State) : s.tick.tlb = s.tlb := rfl
@[simp] theorem tick_l1i (s : State) : s.tick.l1i = s.l1i := rfl
@[simp] theorem tick_l1d (s : State) : s.tick.l1d = s.l1d := rfl
@[simp] theorem tick_l2 (s : State) : s.tick.l2 = s.l2 := rfl
@[simp] theorem tick_idle (s : State) : s.tick.idle = s.idle := rfl
@[simp] theorem tick_mem (s : State) : s.tick.mem = s.mem := rfl
@[simp] theorem tick_env (s : State) : s.tick.env = s.env := rfl
@[simp] theorem readReg_tick (s : State) (r' : RegNum) : s.tick.readReg r' = s.readReg r' :=
  readReg_congr (by simp) r'
@[simp] theorem readCsr_tick (s : State) (c' : Csr) : s.tick.readCsr c' = s.readCsr c' :=
  readCsr_congr (by simp) (by simp) c'
@[simp] theorem cache_tick (s : State) (c' : CacheId) : s.tick.cache c' = s.cache c' := by
  cases c' <;> simp [State.cache]

@[simp] theorem writeReg_params (s : State) (r : RegNum) (v : Word) : (s.writeReg r v).params = s.params := by unfold State.writeReg; split <;> rfl
@[simp] theorem writeReg_pc (s : State) (r : RegNum) (v : Word) : (s.writeReg r v).pc = s.pc := by unfold State.writeReg; split <;> rfl
@[simp] theorem writeReg_csr (s : State) (r : RegNum) (v : Word) : (s.writeReg r v).csr = s.csr := by unfold State.writeReg; split <;> rfl
@[simp] theorem writeReg_llbit (s : State) (r : RegNum) (v : Word) : (s.writeReg r v).llbit = s.llbit := by unfold State.writeReg; split <;> rfl
@[simp] theorem writeReg_tlb (s : State) (r : RegNum) (v : Word) : (s.writeReg r v).tlb = s.tlb := by unfold State.writeReg; split <;> rfl
@[simp] theorem writeReg_l1i (s : State) (r : RegNum) (v : Word) : (s.writeReg r v).l1i = s.l1i := by unfold State.writeReg; split <;> rfl
@[simp] theorem writeReg_l1d (s : State) (r : RegNum) (v : Word) : (s.writeReg r v).l1d = s.l1d := by unfold State.writeReg; split <;> rfl
@[simp] theorem writeReg_l2 (s : State) (r : RegNum) (v : Word) : (s.writeReg r v).l2 = s.l2 := by unfold State.writeReg; split <;> rfl
@[simp] theorem writeReg_idle (s : State) (r : RegNum) (v : Word) : (s.writeReg r v).idle = s.idle := by unfold State.writeReg; split <;> rfl
@[simp] theorem writeReg_mem (s : State) (r : RegNum) (v : Word) : (s.writeReg r v).mem = s.mem := by unfold State.writeReg; split <;> rfl
@[simp] theorem writeReg_env (s : State) (r : RegNum) (v : Word) : (s.writeReg r v).env = s.env := by unfold State.writeReg; split <;> rfl
@[simp] theorem writeReg_draws (s : State) (r : RegNum) (v : Word) : (s.writeReg r v).draws = s.draws := by unfold State.writeReg; split <;> rfl
@[simp] theorem readCsr_writeReg (s : State) (r : RegNum) (v : Word) (c' : Csr) : (s.writeReg r v).readCsr c' = s.readCsr c' :=
  readCsr_congr (by simp) (by simp) c'
@[simp] theorem cache_writeReg (s : State) (r : RegNum) (v : Word) (c' : CacheId) : (s.writeReg r v).cache c' = s.cache c' := by
  cases c' <;> simp [State.cache]

@[simp] theorem putCsr_params (s : State) (c : Csr) (v : Word) : (s.putCsr c v).params = s.params := by cases c <;> rfl
@[simp] theorem putCsr_gpr (s : State) (c : Csr) (v : Word) : (s.putCsr c v).gpr = s.gpr := by cases c <;> rfl
@[simp] theorem putCsr_pc (s : State) (c : Csr) (v : Word) : (s.putCsr c v).pc = s.pc := by cases c <;> rfl
@[simp] theorem putCsr_tlb (s : State) (c : Csr) (v : Word) : (s.putCsr c v).tlb = s.tlb := by cases c <;> rfl
@[simp] theorem putCsr_l1i (s : State) (c : Csr) (v : Word) : (s.putCsr c v).l1i = s.l1i := by cases c <;> rfl
@[simp] theorem putCsr_l1d (s : State) (c : Csr) (v : Word) : (s.putCsr c v).l1d = s.l1d := by cases c <;> rfl
@[simp] theorem putCsr_l2 (s : State) (c : Csr) (v : Word) : (s.putCsr c v).l2 = s.l2 := by cases c <;> rfl
@[simp] theorem putCsr_idle (s : State) (c : Csr) (v : Word) : (s.putCsr c v).idle = s.idle := by cases c <;> rfl
@[simp] theorem putCsr_mem (s : State) (c : Csr) (v : Word) : (s.putCsr c v).mem = s.mem := by cases c <;> rfl
@[simp] theorem putCsr_env (s : State) (c : Csr) (v : Word) : (s.putCsr c v).env = s.env := by cases c <;> rfl
@[simp] theorem putCsr_draws (s : State) (c : Csr) (v : Word) : (s.putCsr c v).draws = s.draws := by cases c <;> rfl
@[simp] theorem readReg_putCsr (s : State) (c : Csr) (v : Word) (r' : RegNum) : (s.putCsr c v).readReg r' = s.readReg r' :=
  readReg_congr (by simp) r'
@[simp] theorem cache_putCsr (s : State) (c : Csr) (v : Word) (c' : CacheId) : (s.putCsr c v).cache c' = s.cache c' := by
  cases c' <;> simp [State.cache]

@[simp] theorem writeCsr_params (s : State) (c : Csr) (v : Word) : (s.writeCsr c v).params = s.params := by cases c <;> rfl
@[simp] theorem writeCsr_gpr (s : State) (c : Csr) (v : Word) : (s.writeCsr c v).gpr = s.gpr := by cases c <;> rfl
@[simp] theorem writeCsr_pc (s : State) (c : Csr) (v : Word) : (s.writeCsr c v).pc = s.pc := by cases c <;> rfl
@[simp] theorem writeCsr_tlb (s : State) (c : Csr) (v : Word) : (s.writeCsr c v).tlb = s.tlb := by cases c <;> rfl
@[simp] theorem writeCsr_l1i (s : State) (c : Csr) (v : Word) : (s.writeCsr c v).l1i = s.l1i := by cases c <;> rfl
@[simp] theorem writeCsr_l1d (s : State) (c : Csr) (v : Word) : (s.writeCsr c v).l1d = s.l1d := by cases c <;> rfl
@[simp] theorem writeCsr_l2 (s : State) (c : Csr) (v : Word) : (s.writeCsr c v).l2 = s.l2 := by cases c <;> rfl
@[simp] theorem writeCsr_idle (s : State) (c : Csr) (v : Word) : (s.writeCsr c v).idle = s.idle := by cases c <;> rfl
@[simp] theorem writeCsr_mem (s : State) (c : Csr) (v : Word) : (s.writeCsr c v).mem = s.mem := by cases c <;> rfl
@[simp] theorem writeCsr_env (s : State) (c : Csr) (v : Word) : (s.writeCsr c v).env = s.env := by cases c <;> rfl
@[simp] theorem writeCsr_draws (s : State) (c : Csr) (v : Word) : (s.writeCsr c v).draws = s.draws := by cases c <;> rfl
@[simp] theorem readReg_writeCsr (s : State) (c : Csr) (v : Word) (r' : RegNum) : (s.writeCsr c v).readReg r' = s.readReg r' :=
  readReg_congr (by simp) r'
@[simp] theorem cache_writeCsr (s : State) (c : Csr) (v : Word) (c' : CacheId) : (s.writeCsr c v).cache c' = s.cache c' := by
  cases c' <;> simp [State.cache]

@[simp] theorem setCache_params (s : State) (c : CacheId) (l : Cache) : (s.setCache c l).params = s.params := by cases c <;> rfl
@[simp] theorem setCache_gpr (s : State) (c : CacheId) (l : Cache) : (s.setCache c l).gpr = s.gpr := by cases c <;> rfl
@[simp] theorem setCache_pc (s : State) (c : CacheId) (l : Cache) : (s.setCache c l).pc = s.pc := by cases c <;> rfl
@[simp] theorem setCache_csr (s : State) (c : CacheId) (l : Cache) : (s.setCache c l).csr = s.csr := by cases c <;> rfl
@[simp] theorem setCache_llbit (s : State) (c : CacheId) (l : Cache) : (s.setCache c l).llbit = s.llbit := by cases c <;> rfl
@[simp] theorem setCache_tlb (s : State) (c : CacheId) (l : Cache) : (s.setCache c l).tlb = s.tlb := by cases c <;> rfl
@[simp] theorem setCache_idle (s : State) (c : CacheId) (l : Cache) : (s.setCache c l).idle = s.idle := by cases c <;> rfl
@[simp] theorem setCache_mem (s : State) (c : CacheId) (l : Cache) : (s.setCache c l).mem = s.mem := by cases c <;> rfl
@[simp] theorem setCache_env (s : State) (c : CacheId) (l : Cache) : (s.setCache c l).env = s.env := by cases c <;> rfl
@[simp] theorem setCache_draws (s : State) (c : CacheId) (l : Cache) : (s.setCache c l).draws = s.draws := by cases c <;> rfl
@[simp] theorem readReg_setCache (s : State) (c : CacheId) (l : Cache) (r' : RegNum) : (s.setCache c l).readReg r' = s.readReg r' :=
  readReg_congr (by simp) r'
@[simp] theorem readCsr_setCache (s : State) (c : CacheId) (l : Cache) (c' : Csr) : (s.setCache c l).readCsr c' = s.readCsr c' :=
  readCsr_congr (by simp) (by simp) c'

@[simp] theorem takeException_params (s : State) (x : Exc) (badv : Word) : (s.takeException x badv).params = s.params := rfl
@[simp] theorem takeException_gpr (s : State) (x : Exc) (badv : Word) : (s.takeException x badv).gpr = s.gpr := rfl
@[simp] theorem takeException_llbit (s : State) (x : Exc) (badv : Word) : (s.takeException x badv).llbit = s.llbit := rfl
@[simp] theorem takeException_tlb (s : State) (x : Exc) (badv : Word) : (s.takeException x badv).tlb = s.tlb := rfl
@[simp] theorem takeException_l1i (s : State) (x : Exc) (badv : Word) : (s.takeException x badv).l1i = s.l1i := rfl
@[simp] theorem takeException_l1d (s : State) (x : Exc) (badv : Word) : (s.takeException x badv).l1d = s.l1d := rfl
@[simp] theorem takeException_l2 (s : State) (x : Exc) (badv : Word) : (s.takeException x badv).l2 = s.l2 := rfl
@[simp] theorem takeException_idle (s : State) (x : Exc) (badv : Word) : (s.takeException x badv).idle = s.idle := rfl
@[simp] theorem takeException_mem (s : State) (x : Exc) (badv : Word) : (s.takeException x badv).mem = s.mem := rfl
@[simp] theorem takeException_env (s : State) (x : Exc) (badv : Word) : (s.takeException x badv).env = s.env := rfl
@[simp] theorem takeException_draws (s : State) (x : Exc) (badv : Word) : (s.takeException x badv).draws = s.draws := rfl
@[simp] theorem readReg_takeException (s : State) (x : Exc) (badv : Word) (r' : RegNum) : (s.takeException x badv).readReg r' = s.readReg r' :=
  readReg_congr (by simp) r'
@[simp] theorem cache_takeException (s : State) (x : Exc) (badv : Word) (c' : CacheId) : (s.takeException x badv).cache c' = s.cache c' := by
  cases c' <;> simp [State.cache]

@[simp] theorem exceptionReturn_params (s : State) : s.exceptionReturn.params = s.params := rfl
@[simp] theorem exceptionReturn_gpr (s : State) : s.exceptionReturn.gpr = s.gpr := rfl
@[simp] theorem exceptionReturn_tlb (s : State) : s.exceptionReturn.tlb = s.tlb := rfl
@[simp] theorem exceptionReturn_l1i (s : State) : s.exceptionReturn.l1i = s.l1i := rfl
@[simp] theorem exceptionReturn_l1d (s : State) : s.exceptionReturn.l1d = s.l1d := rfl
@[simp] theorem exceptionReturn_l2 (s : State) : s.exceptionReturn.l2 = s.l2 := rfl
@[simp] theorem exceptionReturn_idle (s : State) : s.exceptionReturn.idle = s.idle := rfl
@[simp] theorem exceptionReturn_mem (s : State) : s.exceptionReturn.mem = s.mem := rfl
@[simp] theorem exceptionReturn_env (s : State) : s.exceptionReturn.env = s.env := rfl
@[simp] theorem exceptionReturn_draws (s : State) : s.exceptionReturn.draws = s.draws := rfl
@[simp] theorem readReg_exceptionReturn (s : State) (r' : RegNum) : s.exceptionReturn.readReg r' = s.readReg r' :=
  readReg_congr (by simp) r'
@[simp] theorem cache_exceptionReturn (s : State) (c' : CacheId) : s.exceptionReturn.cache c' = s.cache c' := by
  cases c' <;> simp [State.cache]

@[simp] theorem fillEntry_params (s : State) (i : Nat) : (s.fillEntry i).params = s.params := rfl
@[simp] theorem fillEntry_gpr (s : State) (i : Nat) : (s.fillEntry i).gpr = s.gpr := rfl
@[simp] theorem fillEntry_pc (s : State) (i : Nat) : (s.fillEntry i).pc = s.pc := rfl
@[simp] theorem fillEntry_csr (s : State) (i : Nat) : (s.fillEntry i).csr = s.csr := rfl
@[simp] theorem fillEntry_llbit (s : State) (i : Nat) : (s.fillEntry i).llbit = s.llbit := rfl
@[simp] theorem fillEntry_l1i (s : State) (i : Nat) : (s.fillEntry i).l1i = s.l1i := rfl
@[simp] theorem fillEntry_l1d (s : State) (i : Nat) : (s.fillEntry i).l1d = s.l1d := rfl
@[simp] theorem fillEntry_l2 (s : State) (i : Nat) : (s.fillEntry i).l2 = s.l2 := rfl
@[simp] theorem fillEntry_idle (s : State) (i : Nat) : (s.fillEntry i).idle = s.idle := rfl
@[simp] theorem fillEntry_mem (s : State) (i : Nat) : (s.fillEntry i).mem = s.mem := rfl
@[simp] theorem fillEntry_env (s : State) (i : Nat) : (s.fillEntry i).env = s.env := rfl
@[simp] theorem fillEntry_draws (s : State) (i : Nat) : (s.fillEntry i).draws = s.draws := rfl
@[simp] theorem readReg_fillEntry (s : State) (i : Nat) (r' : RegNum) : (s.fillEntry i).readReg r' = s.readReg r' :=
  readReg_congr (by simp) r'
@[simp] theorem readCsr_fillEntry (s : State) (i : Nat) (c' : Csr) : (s.fillEntry i).readCsr c' = s.readCsr c' :=
  readCsr_congr (by simp) (by simp) c'
@[simp] theorem cache_fillEntry (s : State) (i : Nat) (c' : CacheId) : (s.fillEntry i).cache c' = s.cache c' := by
  cases c' <;> simp [State.cache]

@[simp] theorem readTlbEntry_params (s : State) (e : TlbEntry) : (s.readTlbEntry e).params = s.params := by unfold State.readTlbEntry; split <;> rfl
@[simp] theorem readTlbEntry_gpr (s : State) (e : TlbEntry) : (s.readTlbEntry e).gpr = s.gpr := by unfold State.readTlbEntry; split <;> rfl
@[simp] theorem readTlbEntry_pc (s : State) (e : TlbEntry) : (s.readTlbEntry e).pc = s.pc := by unfold State.readTlbEntry; split <;> rfl
@[simp] theorem readTlbEntry_llbit (s : State) (e : TlbEntry) : (s.readTlbEntry e).llbit = s.llbit := by unfold State.readTlbEntry; split <;> rfl
@[simp] theorem readTlbEntry_tlb (s : State) (e : TlbEntry) : (s.readTlbEntry e).tlb = s.tlb := by unfold State.readTlbEntry; split <;> rfl
@[simp] theorem readTlbEntry_l1i (s : State) (e : TlbEntry) : (s.readTlbEntry e).l1i = s.l1i := by unfold State.readTlbEntry; split <;> rfl
@[simp] theorem readTlbEntry_l1d (s : State) (e : TlbEntry) : (s.readTlbEntry e).l1d = s.l1d := by unfold State.readTlbEntry; split <;> rfl
@[simp] theorem readTlbEntry_l2 (s : State) (e : TlbEntry) : (s.readTlbEntry e).l2 = s.l2 := by unfold State.readTlbEntry; split <;> rfl
@[simp] theorem readTlbEntry_idle (s : State) (e : TlbEntry) : (s.readTlbEntry e).idle = s.idle := by unfold State.readTlbEntry; split <;> rfl
@[simp] theorem readTlbEntry_mem (s : State) (e : TlbEntry) : (s.readTlbEntry e).mem = s.mem := by unfold State.readTlbEntry; split <;> rfl
@[simp] theorem readTlbEntry_env (s : State) (e : TlbEntry) : (s.readTlbEntry e).env = s.env := by unfold State.readTlbEntry; split <;> rfl
@[simp] theorem readTlbEntry_draws (s : State) (e : TlbEntry) : (s.readTlbEntry e).draws = s.draws := by unfold State.readTlbEntry; split <;> rfl
@[simp] theorem readReg_readTlbEntry (s : State) (e : TlbEntry) (r' : RegNum) : (s.readTlbEntry e).readReg r' = s.readReg r' :=
  readReg_congr (by simp) r'
@[simp] theorem cache_readTlbEntry (s : State) (e : TlbEntry) (c' : CacheId) : (s.readTlbEntry e).cache c' = s.cache c' := by
  cases c' <;> simp [State.cache]

@[simp] theorem sampleLines_params (s : State) (h : BitVec 8) (t i : Bool) : (s.sampleLines h t i).params = s.params := rfl
@[simp] theorem sampleLines_gpr (s : State) (h : BitVec 8) (t i : Bool) : (s.sampleLines h t i).gpr = s.gpr := rfl
@[simp] theorem sampleLines_pc (s : State) (h : BitVec 8) (t i : Bool) : (s.sampleLines h t i).pc = s.pc := rfl
@[simp] theorem sampleLines_llbit (s : State) (h : BitVec 8) (t i : Bool) : (s.sampleLines h t i).llbit = s.llbit := rfl
@[simp] theorem sampleLines_tlb (s : State) (h : BitVec 8) (t i : Bool) : (s.sampleLines h t i).tlb = s.tlb := rfl
@[simp] theorem sampleLines_l1i (s : State) (h : BitVec 8) (t i : Bool) : (s.sampleLines h t i).l1i = s.l1i := rfl
@[simp] theorem sampleLines_l1d (s : State) (h : BitVec 8) (t i : Bool) : (s.sampleLines h t i).l1d = s.l1d := rfl
@[simp] theorem sampleLines_l2 (s : State) (h : BitVec 8) (t i : Bool) : (s.sampleLines h t i).l2 = s.l2 := rfl
@[simp] theorem sampleLines_idle (s : State) (h : BitVec 8) (t i : Bool) : (s.sampleLines h t i).idle = s.idle := rfl
@[simp] theorem sampleLines_mem (s : State) (h : BitVec 8) (t i : Bool) : (s.sampleLines h t i).mem = s.mem := rfl
@[simp] theorem sampleLines_env (s : State) (h : BitVec 8) (t i : Bool) : (s.sampleLines h t i).env = s.env := rfl
@[simp] theorem sampleLines_draws (s : State) (h : BitVec 8) (t i : Bool) : (s.sampleLines h t i).draws = s.draws := rfl
@[simp] theorem readReg_sampleLines (s : State) (h : BitVec 8) (t i : Bool) (r' : RegNum) : (s.sampleLines h t i).readReg r' = s.readReg r' :=
  readReg_congr (by simp) r'
@[simp] theorem cache_sampleLines (s : State) (h : BitVec 8) (t i : Bool) (c' : CacheId) : (s.sampleLines h t i).cache c' = s.cache c' := by
  cases c' <;> simp [State.cache]

@[simp] theorem writeToL2_params (s : State) (l : CacheLine) : (s.writeToL2 l).params = s.params := rfl
@[simp] theorem writeToL2_gpr (s : State) (l : CacheLine) : (s.writeToL2 l).gpr = s.gpr := rfl
@[simp] theorem writeToL2_pc (s : State) (l : CacheLine) : (s.writeToL2 l).pc = s.pc := rfl
@[simp] theorem writeToL2_csr (s : State) (l : CacheLine) : (s.writeToL2 l).csr = s.csr := rfl
@[simp] theorem writeToL2_llbit (s : State) (l : CacheLine) : (s.writeToL2 l).llbit = s.llbit := rfl
@[simp] theorem writeToL2_tlb (s : State) (l : CacheLine) : (s.writeToL2 l).tlb = s.tlb := rfl
@[simp] theorem writeToL2_idle (s : State) (l : CacheLine) : (s.writeToL2 l).idle = s.idle := rfl
@[simp] theorem writeToL2_env (s : State) (l : CacheLine) : (s.writeToL2 l).env = s.env := rfl

@[simp] theorem writeNextLevel_params (s : State) (c : CacheId) (l : CacheLine) : (s.writeNextLevel c l).params = s.params := by unfold State.writeNextLevel; split <;> rfl
@[simp] theorem writeNextLevel_gpr (s : State) (c : CacheId) (l : CacheLine) : (s.writeNextLevel c l).gpr = s.gpr := by unfold State.writeNextLevel; split <;> rfl
@[simp] theorem writeNextLevel_pc (s : State) (c : CacheId) (l : CacheLine) : (s.writeNextLevel c l).pc = s.pc := by unfold State.writeNextLevel; split <;> rfl
@[simp] theorem writeNextLevel_csr (s : State) (c : CacheId) (l : CacheLine) : (s.writeNextLevel c l).csr = s.csr := by unfold State.writeNextLevel; split <;> rfl
@[simp] theorem writeNextLevel_llbit (s : State) (c : CacheId) (l : CacheLine) : (s.writeNextLevel c l).llbit = s.llbit := by unfold State.writeNextLevel; split <;> rfl
@[simp] theorem writeNextLevel_tlb (s : State) (c : CacheId) (l : CacheLine) : (s.writeNextLevel c l).tlb = s.tlb := by unfold State.writeNextLevel; split <;> rfl
@[simp] theorem writeNextLevel_idle (s : State) (c : CacheId) (l : CacheLine) : (s.writeNextLevel c l).idle = s.idle := by unfold State.writeNextLevel; split <;> rfl
@[simp] theorem writeNextLevel_env (s : State) (c : CacheId) (l : CacheLine) : (s.writeNextLevel c l).env = s.env := by unfold State.writeNextLevel; split <;> rfl

@[simp] theorem writebackInvalidate_params (s : State) (c : CacheId) (pos : Nat) : (s.writebackInvalidate c pos).params = s.params := by unfold State.writebackInvalidate; dsimp only; split <;> simp
@[simp] theorem writebackInvalidate_gpr (s : State) (c : CacheId) (pos : Nat) : (s.writebackInvalidate c pos).gpr = s.gpr := by unfold State.writebackInvalidate; dsimp only; split <;> simp
@[simp] theorem writebackInvalidate_pc (s : State) (c : CacheId) (pos : Nat) : (s.writebackInvalidate c pos).pc = s.pc := by unfold State.writebackInvalidate; dsimp only; split <;> simp
@[simp] theorem writebackInvalidate_csr (s : State) (c : CacheId) (pos : Nat) : (s.writebackInvalidate c pos).csr = s.csr := by unfold State.writebackInvalidate; dsimp only; split <;> simp
@[simp] theorem writebackInvalidate_llbit (s : State) (c : CacheId) (pos : Nat) : (s.writebackInvalidate c pos).llbit = s.llbit := by unfold State.writebackInvalidate; dsimp only; split <;> simp
@[simp] theorem writebackInvalidate_tlb (s : State) (c : CacheId) (pos : Nat) : (s.writebackInvalidate c pos).tlb = s.tlb := by unfold State.writebackInvalidate; dsimp only; split <;> simp
@[simp] theorem writebackInvalidate_idle (s : State) (c : CacheId) (pos : Nat) : (s.writebackInvalidate c pos).idle = s.idle := by unfold State.writebackInvalidate; dsimp only; split <;> simp
@[simp] theorem writebackInvalidate_env (s : State) (c : CacheId) (pos : Nat) : (s.writebackInvalidate c pos).env = s.env := by unfold State.writebackInvalidate; dsimp only; split <;> simp
@[simp] theorem readReg_writebackInvalidate (s : State) (c : CacheId) (pos : Nat) (r' : RegNum) : (s.writebackInvalidate c pos).readReg r' = s.readReg r' :=
  readReg_congr (by simp) r'
@[simp] theorem readCsr_writebackInvalidate (s : State) (c : CacheId) (pos : Nat) (c' : Csr) : (s.writebackInvalidate c pos).readCsr c' = s.readCsr c' :=
  readCsr_congr (by simp) (by simp) c'

@[simp] theorem storeTag_params (s : State) (c : CacheId) (va : Word) : (s.storeTag c va).params = s.params := by unfold State.storeTag; split <;> simp
@[simp] theorem storeTag_gpr (s : State) (c : CacheId) (va : Word) : (s.storeTag c va).gpr = s.gpr := by unfold State.storeTag; split <;> simp
@[simp] theorem storeTag_pc (s : State) (c : CacheId) (va : Word) : (s.storeTag c va).pc = s.pc := by unfold State.storeTag; split <;> simp
@[simp] theorem storeTag_csr (s : State) (c : CacheId) (va : Word) : (s.storeTag c va).csr = s.csr := by unfold State.storeTag; split <;> simp
@[simp] theorem storeTag_llbit (s : State) (c : CacheId) (va : Word) : (s.storeTag c va).llbit = s.llbit := by unfold State.storeTag; split <;> simp
@[simp] theorem storeTag_tlb (s : State) (c : CacheId) (va : Word) : (s.storeTag c va).tlb = s.tlb := by unfold State.storeTag; split <;> simp
@[simp] theorem storeTag_idle (s : State) (c : CacheId) (va : Word) : (s.storeTag c va).idle = s.idle := by unfold State.storeTag; split <;> simp
@[simp] theorem storeTag_env (s : State) (c : CacheId) (va : Word) : (s.storeTag c va).env = s.env := by unfold State.storeTag; split <;> simp
@[simp] theorem storeTag_draws (s : State) (c : CacheId) (va : Word) : (s.storeTag c va).draws = s.draws := by unfold State.storeTag; split <;> simp
@[simp] theorem readReg_storeTag (s : State) (c : CacheId) (va : Word) (r' : RegNum) : (s.storeTag c va).readReg r' = s.readReg r' :=
  readReg_congr (by simp) r'
@[simp] theorem readCsr_storeTag (s : State) (c : CacheId) (va : Word) (c' : Csr) : (s.storeTag c va).readCsr c' = s.readCsr c' :=
  readCsr_congr (by simp) (by simp) c'

@[simp] theorem indexInvalidate_params (s : State) (c : CacheId) (va : Word) : (s.indexInvalidate c va).params = s.params := by unfold State.indexInvalidate; split <;> simp
@[simp] theorem indexInvalidate_gpr (s : State) (c : CacheId) (va : Word) : (s.indexInvalidate c va).gpr = s.gpr := by unfold State.indexInvalidate; split <;> simp
@[simp] theorem indexInvalidate_pc (s : State) (c : CacheId) (va : Word) : (s.indexInvalidate c va).pc = s.pc := by unfold State.indexInvalidate; split <;> simp
@[simp] theorem indexInvalidate_csr (s : State) (c : CacheId) (va : Word) : (s.indexInvalidate c va).csr = s.csr := by unfold State.indexInvalidate; split <;> simp
@[simp] theorem indexInvalidate_llbit (s : State) (c : CacheId) (va : Word) : (s.indexInvalidate c va).llbit = s.llbit := by unfold State.indexInvalidate; split <;> simp
@[simp] theorem indexInvalidate_tlb (s : State) (c : CacheId) (va : Word) : (s.indexInvalidate c va).tlb = s.tlb := by unfold State.indexInvalidate; split <;> simp
@[simp] theorem indexInvalidate_idle (s : State) (c : CacheId) (va : Word) : (s.indexInvalidate c va).idle = s.idle := by unfold State.indexInvalidate; split <;> simp
@[simp] theorem indexInvalidate_env (s : State) (c : CacheId) (va : Word) : (s.indexInvalidate c va).env = s.env := by unfold State.indexInvalidate; split <;> simp
@[simp] theorem readReg_indexInvalidate (s : State) (c : CacheId) (va : Word) (r' : RegNum) : (s.indexInvalidate c va).readReg r' = s.readReg r' :=
  readReg_congr (by simp) r'
@[simp] theorem readCsr_indexInvalidate (s : State) (c : CacheId) (va : Word) (c' : Csr) : (s.indexInvalidate c va).readCsr c' = s.readCsr c' :=
  readCsr_congr (by simp) (by simp) c'

@[simp] theorem hitInvalidate_params (s : State) (c : CacheId) (a : PAddr) : (s.hitInvalidate c a).params = s.params := by unfold State.hitInvalidate; split <;> (try split) <;> simp
@[simp] theorem hitInvalidate_gpr (s : State) (c : CacheId) (a : PAddr) : (s.hitInvalidate c a).gpr = s.gpr := by unfold State.hitInvalidate; split <;> (try split) <;> simp
@[simp] theorem hitInvalidate_pc (s : State) (c : CacheId) (a : PAddr) : (s.hitInvalidate c a).pc = s.pc := by unfold State.hitInvalidate; split <;> (try split) <;> simp
@[simp] theorem hitInvalidate_csr (s : State) (c : CacheId) (a : PAddr) : (s.hitInvalidate c a).csr = s.csr := by unfold State.hitInvalidate; split <;> (try split) <;> simp
@[simp] theorem hitInvalidate_llbit (s : State) (c : CacheId) (a : PAddr) : (s.hitInvalidate c a).llbit = s.llbit := by unfold State.hitInvalidate; split <;> (try split) <;> simp
@[simp] theorem hitInvalidate_tlb (s : State) (c : CacheId) (a : PAddr) : (s.hitInvalidate c a).tlb = s.tlb := by unfold State.hitInvalidate; split <;> (try split) <;> simp
@[simp] theorem hitInvalidate_idle (s : State) (c : CacheId) (a : PAddr) : (s.hitInvalidate c a).idle = s.idle := by unfold State.hitInvalidate; split <;> (try split) <;> simp
@[simp] theorem hitInvalidate_env (s : State) (c : CacheId) (a : PAddr) : (s.hitInvalidate c a).env = s.env := by unfold State.hitInvalidate; split <;> (try split) <;> simp
@[simp] theorem readReg_hitInvalidate (s : State) (c : CacheId) (a : PAddr) (r' : RegNum) : (s.hitInvalidate c a).readReg r' = s.readReg r' :=
  readReg_congr (by simp) r'
@[simp] theorem readCsr_hitInvalidate (s : State) (c : CacheId) (a : PAddr) (c' : Csr) : (s.hitInvalidate c a).readCsr c' = s.readCsr c' :=
  readCsr_congr (by simp) (by simp) c'

@[simp] theorem applyChange_params (s : State) (ch : CacheChange) : (s.applyChange ch).params = s.params := by unfold State.applyChange; split <;> (try dsimp only) <;> (try split) <;> simp
@[simp] theorem applyChange_gpr (s : State) (ch : CacheChange) : (s.applyChange ch).gpr = s.gpr := by unfold State.applyChange; split <;> (try dsimp only) <;> (try split) <;> simp
@[simp] theorem applyChange_pc (s : State) (ch : CacheChange) : (s.applyChange ch).pc = s.pc := by unfold State.applyChange; split <;> (try dsimp only) <;> (try split) <;> simp
@[simp] theorem applyChange_csr (s : State) (ch : CacheChange) : (s.applyChange ch).csr = s.csr := by unfold State.applyChange; split <;> (try dsimp only) <;> (try split) <;> simp
@[simp] theorem applyChange_llbit (s : State) (ch : CacheChange) : (s.applyChange ch).llbit = s.llbit := by unfold State.applyChange; split <;> (try dsimp only) <;> (try split) <;> simp
@[simp] theorem applyChange_tlb (s : State) (ch : CacheChange) : (s.applyChange ch).tlb = s.tlb := by unfold State.applyChange; split <;> (try dsimp only) <;> (try split) <;> simp
@[simp] theorem applyChange_idle (s : State) (ch : CacheChange) : (s.applyChange ch).idle = s.idle := by unfold State.applyChange; split <;> (try dsimp only) <;> (try split) <;> simp
@[simp] theorem applyChange_env (s : State) (ch : CacheChange) : (s.applyChange ch).env = s.env := by unfold State.applyChange; split <;> (try dsimp only) <;> (try split) <;> simp

/-- What one change keeps, the implementation's cache operation keeps. -/
theorem customCacop_keeps {α : Type} (f : State → α) (h : ∀ s ch, f (State.applyChange s ch) = f s)
    (ht : ∀ s : State, f s.tick = f s) (s : State) (c : CacheId) (va : Word) : f (s.customCacop c va) = f s := by
  have fold : ∀ (l : List CacheChange) (s : State), f (l.foldl State.applyChange s) = f s := by
    intro l
    induction l with
    | nil => exact fun _ => rfl
    | cons ch l ih => exact fun s => (ih _).trans (h s ch)
  unfold State.customCacop
  split
  · exact (ht _).trans (fold _ s)
  · rfl

/-- On a cache that is not present the operation does nothing (R82). -/
theorem customCacop_absent {s : State} {c : CacheId} (h : (s.params.geom c).present = false) (va : Word) :
    s.customCacop c va = s := by
  rw [State.customCacop, if_neg (by rw [h]; decide)]

@[simp] theorem customCacop_params (s : State) (c : CacheId) (va : Word) : (s.customCacop c va).params = s.params :=
  customCacop_keeps State.params (by simp) (by simp) s c va
@[simp] theorem customCacop_gpr (s : State) (c : CacheId) (va : Word) : (s.customCacop c va).gpr = s.gpr :=
  customCacop_keeps State.gpr (by simp) (by simp) s c va
@[simp] theorem customCacop_pc (s : State) (c : CacheId) (va : Word) : (s.customCacop c va).pc = s.pc :=
  customCacop_keeps State.pc (by simp) (by simp) s c va
@[simp] theorem customCacop_csr (s : State) (c : CacheId) (va : Word) : (s.customCacop c va).csr = s.csr :=
  customCacop_keeps State.csr (by simp) (by simp) s c va
@[simp] theorem customCacop_llbit (s : State) (c : CacheId) (va : Word) : (s.customCacop c va).llbit = s.llbit :=
  customCacop_keeps State.llbit (by simp) (by simp) s c va
@[simp] theorem customCacop_tlb (s : State) (c : CacheId) (va : Word) : (s.customCacop c va).tlb = s.tlb :=
  customCacop_keeps State.tlb (by simp) (by simp) s c va
@[simp] theorem customCacop_idle (s : State) (c : CacheId) (va : Word) : (s.customCacop c va).idle = s.idle :=
  customCacop_keeps State.idle (by simp) (by simp) s c va
@[simp] theorem customCacop_env (s : State) (c : CacheId) (va : Word) : (s.customCacop c va).env = s.env :=
  customCacop_keeps State.env (by simp) (by simp) s c va
@[simp] theorem readReg_customCacop (s : State) (c : CacheId) (va : Word) (r' : RegNum) : (s.customCacop c va).readReg r' = s.readReg r' :=
  readReg_congr (by simp) r'
@[simp] theorem readCsr_customCacop (s : State) (c : CacheId) (va : Word) (c' : Csr) : (s.customCacop c va).readCsr c' = s.readCsr c' :=
  readCsr_congr (by simp) (by simp) c'

@[simp] theorem waitStep_params (s : State) (b : Bool) : (s.waitStep b).params = s.params := rfl
@[simp] theorem waitStep_gpr (s : State) (b : Bool) : (s.waitStep b).gpr = s.gpr := rfl
@[simp] theorem waitStep_pc (s : State) (b : Bool) : (s.waitStep b).pc = s.pc := rfl
@[simp] theorem waitStep_csr (s : State) (b : Bool) : (s.waitStep b).csr = s.csr := rfl
@[simp] theorem waitStep_llbit (s : State) (b : Bool) : (s.waitStep b).llbit = s.llbit := rfl
@[simp] theorem waitStep_tlb (s : State) (b : Bool) : (s.waitStep b).tlb = s.tlb := rfl
@[simp] theorem waitStep_l1i (s : State) (b : Bool) : (s.waitStep b).l1i = s.l1i := rfl
@[simp] theorem waitStep_l1d (s : State) (b : Bool) : (s.waitStep b).l1d = s.l1d := rfl
@[simp] theorem waitStep_l2 (s : State) (b : Bool) : (s.waitStep b).l2 = s.l2 := rfl
@[simp] theorem waitStep_mem (s : State) (b : Bool) : (s.waitStep b).mem = s.mem := rfl
@[simp] theorem waitStep_env (s : State) (b : Bool) : (s.waitStep b).env = s.env := rfl
@[simp] theorem readReg_waitStep (s : State) (b : Bool) (r' : RegNum) : (s.waitStep b).readReg r' = s.readReg r' :=
  readReg_congr (by simp) r'
@[simp] theorem readCsr_waitStep (s : State) (b : Bool) (c' : Csr) : (s.waitStep b).readCsr c' = s.readCsr c' :=
  readCsr_congr (by simp) (by simp) c'
@[simp] theorem cache_waitStep (s : State) (b : Bool) (c' : CacheId) : (s.waitStep b).cache c' = s.cache c' := by
  cases c' <;> simp [State.cache]

/-! The reset event (R151). Cited by rewriting: unfolding it makes the elaborator compare lists of free
values. -/

@[simp] theorem resetEvent_params (s : State) : s.resetEvent.params = s.params := by simp only [State.resetEvent]
@[simp] theorem resetEvent_pc (s : State) : s.resetEvent.pc = s.params.resetPc := by simp only [State.resetEvent]
@[simp] theorem resetEvent_csr (s : State) : s.resetEvent.csr = s.csrsAfterReset := by simp only [State.resetEvent]
@[simp] theorem resetEvent_llbit (s : State) : s.resetEvent.llbit = false := by simp only [State.resetEvent]
@[simp] theorem resetEvent_tlb (s : State) : s.resetEvent.tlb = (List.range s.params.tlbEntries).map fun i => freeTlbEntry s.params s.draws i := by simp only [State.resetEvent]
@[simp] theorem resetEvent_idle (s : State) : s.resetEvent.idle = false := by simp only [State.resetEvent]
@[simp] theorem resetEvent_mem (s : State) : s.resetEvent.mem = s.mem := by simp only [State.resetEvent]
@[simp] theorem resetEvent_env (s : State) : s.resetEvent.env = s.env := by simp only [State.resetEvent]
@[simp] theorem resetEvent_draws (s : State) : s.resetEvent.draws = s.draws + 1 := by simp only [State.resetEvent]
@[simp] theorem cache_resetEvent (s : State) (c : CacheId) : s.resetEvent.cache c = freeCache s.params s.draws c := by
  cases c <;> simp only [State.resetEvent, State.cache]

@[simp] theorem advance_pc (s : State) : s.advance.pc = s.pc + 4#32 := rfl
@[simp] theorem tick_draws (s : State) : s.tick.draws = s.draws + 1 := rfl
@[simp] theorem takeException_pc (s : State) (x : Exc) (badv : Word) : (s.takeException x badv).pc = s.entryOf x := rfl
@[simp] theorem exceptionReturn_pc (s : State) : s.exceptionReturn.pc = s.csr.era := rfl
@[simp] theorem exceptionReturn_llbit (s : State) : s.exceptionReturn.llbit = (s.csr.klo && s.llbit) := rfl
@[simp] theorem fillEntry_tlb (s : State) (i : Nat) : (s.fillEntry i).tlb = s.tlb.set i (s.csrEntry s.writtenE) := rfl
@[simp] theorem waitStep_idle (s : State) (b : Bool) : (s.waitStep b).idle = !(b || s.wakes) := rfl

/-- Reading a general register after writing one (R11): register 0 reads 0 and takes no write. -/
theorem readReg_writeReg (s : State) (r : RegNum) (v : Word) (r' : RegNum) :
    (s.writeReg r v).readReg r' = if r' = r ∧ r ≠ 0#5 then v else s.readReg r' := by
  unfold State.writeReg State.readReg
  by_cases hr : r = 0#5
  · simp [hr]
  · by_cases hr' : r' = 0#5
    · have h : ¬ 0#5 = r := fun h => hr h.symm
      simp [hr, hr', h]
    · have h1 : r.toNat ≠ 0 := fun h => hr (BitVec.eq_of_toNat_eq (by simpa using h))
      have h2 : r'.toNat ≠ 0 := fun h => hr' (BitVec.eq_of_toNat_eq (by simpa using h))
      by_cases he : r' = r
      · subst he; simp [hr]
      · have : r.toNat - 1 ≠ r'.toNat - 1 := by
          intro h; exact he (BitVec.eq_of_toNat_eq (by omega))
        simp [hr, hr', he, this]

@[simp] theorem readReg_zero (s : State) : s.readReg 0#5 = 0#32 := by simp [State.readReg]

/-- Reading a CSR after a whole word is stored into another. -/
theorem readCsr_putCsr_other (s : State) (c : Csr) (v : Word) (c' : Csr) (h : c' ≠ c) :
    (s.putCsr c v).readCsr c' = s.readCsr c' := by
  cases c <;> cases c' <;> first | exact absurd rfl h | rfl

/-- Reading a CSR after a whole word is stored into it. -/
theorem readCsr_putCsr_same (s : State) (c : Csr) (v : Word) (h : c ≠ .llbctl) : (s.putCsr c v).readCsr c = v := by
  cases c <;> first | exact absurd rfl h | rfl

theorem writeCsr_eq_putCsr (s : State) (c : Csr) (v : Word) (h : c ≠ .llbctl) :
    s.writeCsr c v = s.putCsr c (maskedWrite s.params c v (s.readCsr c)) := by
  cases c <;> first | exact absurd rfl h | rfl

theorem readCsr_writeCsr_other (s : State) (c : Csr) (v : Word) (c' : Csr) (h : c' ≠ c) :
    (s.writeCsr c v).readCsr c' = s.readCsr c' := by
  by_cases hc : c = .llbctl
  · subst hc; exact readCsr_putCsr_other s .llbctl v c' h
  · rw [writeCsr_eq_putCsr s c v hc, readCsr_putCsr_other _ _ _ _ h]

theorem readCsr_writeCsr_same (s : State) (c : Csr) (v : Word) (h : c ≠ .llbctl) :
    (s.writeCsr c v).readCsr c = maskedWrite s.params c v (s.readCsr c) := by
  rw [writeCsr_eq_putCsr s c v h, readCsr_putCsr_same _ _ _ h]

theorem putCsr_llbit (s : State) (c : Csr) (v : Word) (h : c ≠ .llbctl) : (s.putCsr c v).llbit = s.llbit := by
  cases c <;> first | exact absurd rfl h | rfl

theorem putCsr_klo (s : State) (c : Csr) (v : Word) (h : c ≠ .llbctl) : (s.putCsr c v).csr.klo = s.csr.klo := by
  cases c <;> first | exact absurd rfl h | rfl

/-- The number of a modelled CSR names it (R15). -/
@[simp] theorem csrSlot_num (c : Csr) : csrSlot c.num = .modelled c := by cases c <;> rfl

/-- Reading a cache after one is replaced. -/
theorem cache_setCache (s : State) (c : CacheId) (l : Cache) (c' : CacheId) :
    (s.setCache c l).cache c' = if c' = c then l else s.cache c' := by
  cases c <;> cases c' <;> rfl

end Sys2Proof.Machine
end

