-- ==== Sys2Proof/Laws/Cache.lean ====
section
/-! SUPPORT. What the cache operations do to the lines and to memory. -/

namespace Sys2Proof.Machine

theorem at_replace (c : Cache) (pos : Nat) (l : CacheLine) (pos' : Nat) :
    (c.replace pos l).at pos' = if pos' = pos ∧ pos ∈ c.map (·.1) then l else c.at pos' := by
  induction c with
  | nil => simp [Cache.replace, Cache.at]
  | cons x c ih =>
    obtain ⟨k, v⟩ := x
    simp only [Cache.replace, List.map_cons] at ih ⊢
    by_cases hk : k = pos
    · subst hk
      simp only [if_true, Cache.at]
      grind
    · simp only [hk, if_false, Cache.at]
      grind

theorem at_erase (c : Cache) (pos pos' : Nat) :
    (c.erase pos).at pos' = if pos' = pos then CacheLine.zero else c.at pos' := by
  induction c with
  | nil => simp [Cache.erase, Cache.at]
  | cons x c ih =>
    obtain ⟨k, v⟩ := x
    simp only [Cache.erase, List.filter_cons] at ih ⊢
    by_cases hk : k = pos
    · subst hk
      simp only [bne_self_eq_false, Bool.false_eq_true, if_false, ih, Cache.at]
      grind
    · have : (k != pos) = true := by simp [hk]
      simp only [this, if_true, Cache.at, ih]
      grind

/-- A line that is not listed holds nothing (R27). -/
theorem at_not_listed (c : Cache) (pos : Nat) (h : pos ∉ c.map (·.1)) : c.at pos = CacheLine.zero := by
  induction c with
  | nil => rfl
  | cons x c ih =>
    obtain ⟨k, v⟩ := x
    simp only [List.map_cons, List.mem_cons, not_or] at h
    rw [Cache.at, if_neg (Ne.symm h.1), ih h.2]

/-- The line at a position is a listed one or holds nothing. -/
theorem at_mem (c : Cache) (pos : Nat) : (pos, c.at pos) ∈ c ∨ c.at pos = CacheLine.zero := by
  induction c with
  | nil => exact .inr rfl
  | cons x c ih =>
    obtain ⟨k, v⟩ := x
    by_cases hk : k = pos
    · subst hk; simp [Cache.at]
    · rw [Cache.at, if_neg hk]
      exact ih.imp (List.mem_cons_of_mem _) id

/-- In a cache in canonical form the line at a listed position is the listed one. -/
theorem at_of_mem {c : Cache} (hs : c.Pairwise fun x y => x.1 < y.1) {pos : Nat} {l : CacheLine}
    (h : (pos, l) ∈ c) : c.at pos = l := by
  induction c with
  | nil => simp at h
  | cons x c ih =>
    obtain ⟨k, v⟩ := x
    have hs' := List.pairwise_cons.mp hs
    rcases List.mem_cons.mp h with h | h
    · cases h; simp [Cache.at]
    · have hlt : k < pos := hs'.1 _ h
      rw [Cache.at, if_neg (by omega), ih hs'.2 h]

/-- The position `findLine` answers is of a valid line with that tag (R86). -/
theorem findLine_some {c : Cache} {base : PAddr} {pos : Nat} (h : c.findLine base = some pos) :
    ∃ l, (pos, l) ∈ c ∧ l.valid = true ∧ l.tag = base := by
  unfold Cache.findLine at h
  rw [Option.map_eq_some_iff] at h
  obtain ⟨x, hx, rfl⟩ := h
  have h1 := List.find?_some hx
  simp at h1
  exact ⟨x.2, List.mem_of_find?_eq_some hx, h1.1, h1.2⟩

theorem findLine_none {c : Cache} {base : PAddr} (h : c.findLine base = none) :
    ∀ x ∈ c, x.2.valid = true → x.2.tag ≠ base := by
  unfold Cache.findLine at h
  rw [Option.map_eq_none_iff, List.find?_eq_none] at h
  intro x hx hv ht
  exact h x hx (by simp [hv, ht])

/-! Putting a line (R87's operation). -/

theorem mem_put {c : Cache} {pos : Nat} {l : CacheLine} {x : Nat × CacheLine} (h : x ∈ c.put pos l) :
    x ∈ c ∨ x = (pos, l) := by
  induction c with
  | nil => simp [Cache.put] at h; simp [h]
  | cons y c ih =>
    obtain ⟨k, v⟩ := y
    simp only [Cache.put] at h
    split at h
    · simp at h; grind
    · split at h
      · simp at h; grind
      · simp at h; grind

theorem put_sorted {c : Cache} (h : c.Pairwise fun x y => x.1 < y.1) (pos : Nat) (l : CacheLine) :
    (c.put pos l).Pairwise fun x y => x.1 < y.1 := by
  induction c with
  | nil => simp [Cache.put]
  | cons y c ih =>
    obtain ⟨k, v⟩ := y
    have h' := List.pairwise_cons.mp h
    simp only [Cache.put]
    split
    · refine List.pairwise_cons.mpr ⟨?_, h⟩
      intro z hz
      rcases List.mem_cons.mp hz with rfl | hz
      · assumption
      · have := h'.1 z hz; grind
    · split
      · next hp => subst hp; exact List.pairwise_cons.mpr ⟨h'.1, h'.2⟩
      · refine List.pairwise_cons.mpr ⟨?_, ih h'.2⟩
        intro z hz
        rcases mem_put hz with hz | rfl
        · exact h'.1 z hz
        · grind

/-! Lines of the level-2 cache that take bytes (R85). -/

@[simp] theorem take_tag (l : CacheLine) (a : Nat) (bs : List Byte) (r : Bool) : (l.take a bs r).tag = l.tag := by
  unfold CacheLine.take; split <;> rfl
@[simp] theorem take_valid (l : CacheLine) (a : Nat) (bs : List Byte) (r : Bool) : (l.take a bs r).valid = l.valid := by
  unfold CacheLine.take; split <;> rfl
@[simp] theorem take_length (l : CacheLine) (a : Nat) (bs : List Byte) (r : Bool) :
    (l.take a bs r).data.length = l.data.length := by
  unfold CacheLine.take; split <;> simp

/-- The bytes of a valid line after it took some: those within the range, and its own elsewhere. -/
theorem take_data (l : CacheLine) (a : Nat) (bs : List Byte) (r : Bool) (hv : l.valid = true) (k : Nat)
    (hk : k < l.data.length) : (l.take a bs r).data[k]? =
      if a ≤ l.tag.toNat + k ∧ l.tag.toNat + k < a + bs.length then bs[l.tag.toNat + k - a]? else l.data[k]? := by
  unfold CacheLine.take
  split
  · rw [List.getElem?_mapIdx, List.getElem?_eq_getElem hk, Option.map_some]
    by_cases h1 : a ≤ l.tag.toNat + k
    · by_cases h2 : l.tag.toNat + k < a + bs.length
      · rw [if_pos h1, if_pos ⟨h1, h2⟩, List.getElem?_eq_getElem (by omega),
          List.getD_eq_getElem?_getD, List.getElem?_eq_getElem (by omega), Option.getD_some]
      · rw [if_pos h1, if_neg (by omega), List.getD_eq_getElem?_getD, List.getElem?_eq_none (by omega), Option.getD_none]
    · rw [if_neg h1, if_neg (by omega)]
  · next h =>
    rw [if_neg]
    simp only [hv, Bool.true_and, Bool.and_eq_true, decide_eq_true_eq] at h
    omega

theorem take_invalid (l : CacheLine) (a : Nat) (bs : List Byte) (r : Bool) (hv : l.valid = false) :
    l.take a bs r = l := by
  simp [CacheLine.take, hv]

/-- A line that holds none of the bytes takes none. -/
theorem take_apart (l : CacheLine) (a : Nat) (bs : List Byte) (r : Bool)
    (h : ¬ (l.tag.toNat < a + bs.length ∧ a < l.tag.toNat + l.data.length)) : l.take a bs r = l := by
  unfold CacheLine.take
  rw [if_neg]
  simp only [Bool.and_eq_true, decide_eq_true_eq]
  omega

theorem take_dirty (l : CacheLine) (a : Nat) (bs : List Byte) (r : Bool) (hv : l.valid = true)
    (h : l.tag.toNat < a + bs.length ∧ a < l.tag.toNat + l.data.length) :
    (l.take a bs r).dirty = (l.dirty || !r) := by
  unfold CacheLine.take
  rw [if_pos (by simp [hv, h])]

/-- The line at a position of a cache whose lines are all changed alike. -/
theorem at_mapLines (c : Cache) (f : CacheLine → CacheLine) (hf : f CacheLine.zero = CacheLine.zero) (pos : Nat) :
    Cache.at (c.map fun y => (y.1, f y.2)) pos = f (c.at pos) := by
  induction c with
  | nil => exact hf.symm
  | cons y c ih =>
    obtain ⟨k, v⟩ := y
    simp only [List.map_cons, Cache.at]
    split
    · rfl
    · exact ih

theorem mapLines_sorted {c : Cache} (h : c.Pairwise fun x y => x.1 < y.1) (f : CacheLine → CacheLine) :
    (c.map fun y => (y.1, f y.2)).Pairwise fun x y => x.1 < y.1 := by
  rw [List.pairwise_map]; exact h

/-! Write back and invalidate (R85). -/

/-- Whether the line at a position is written back (R85, U1). -/
theorem writesBack_iff (s : State) (c : CacheId) (pos : Nat) :
    writesBack s.params c ((s.cache c).at pos) = true ↔ MustWriteBack s c pos := by
  simp [writesBack, MustWriteBack, and_assoc]

/-- Memory after a write-back to the next level: only what the map has is written (R46). -/
theorem readByte_writeNextLevel (s : State) (hm : s.mem.wf) (c : CacheId) (l : CacheLine) (x : Nat) :
    (s.writeNextLevel c l).mem.readByte x =
      if InLine l x ∧ s.params.holdsMemory x = true ∧ ((c = .l1d ∧ (s.params.geom .l2).present = true) →
          (Config.freeReachesMemory s.draws || !s.l2.holdsByte x) = true)
      then l.data[x - l.tag.toNat]? else s.mem.readByte x := by
  unfold State.writeNextLevel
  split
  · next h =>
    unfold State.writeToL2
    rw [readByte_writeBytesWhere _ _ _ hm]
    simp only [h, true_and, forall_const, Bool.and_eq_true]
  · next h =>
    rw [readByte_writeBytesWhere _ _ _ hm]
    simp only [h, false_implies, and_true]

theorem writeNextLevel_wf (s : State) (hm : s.mem.wf) (c : CacheId) (l : CacheLine) : (s.writeNextLevel c l).mem.wf := by
  unfold State.writeNextLevel
  split
  · exact writeBytesWhere_wf _ _ _ _ hm
  · exact writeBytesWhere_wf _ _ _ _ hm

/-- A write-back lists no address that the map does not have (R46). -/
theorem writeNextLevel_mapped (s : State) (hm : ∀ x ∈ s.mem, s.params.holdsMemory x.1 = true) (c : CacheId)
    (l : CacheLine) : ∀ x ∈ (s.writeNextLevel c l).mem, s.params.holdsMemory x.1 = true := by
  intro x hx
  unfold State.writeNextLevel at hx
  split at hx
  · rcases mem_writeBytesWhere _ _ x _ _ hx with h | h
    · exact hm x h
    · exact (Bool.and_eq_true _ _ ▸ h).1
  · exact (mem_writeBytesWhere _ _ x _ _ hx).elim (hm x) id

/-- The caches after a write-back to the next level: only the level-2 cache takes anything, and only from
the level-1 data cache. -/
theorem writeNextLevel_cache (s : State) (c : CacheId) (l : CacheLine) (c' : CacheId) :
    (s.writeNextLevel c l).cache c' =
      if c' = .l2 ∧ c = .l1d ∧ (s.params.geom .l2).present = true
      then s.l2.map fun y => (y.1, y.2.take l.tag.toNat l.data (Config.freeReachesMemory s.draws))
      else s.cache c' := by
  unfold State.writeNextLevel
  split
  · next h => cases c' <;> simp [h, State.writeToL2, State.cache]
  · next h => rw [if_neg (fun h' => h h'.2)]; cases c' <;> rfl

theorem writebackInvalidate_mem (s : State) (c : CacheId) (pos : Nat) :
    (s.writebackInvalidate c pos).mem =
      (if writesBack s.params c ((s.cache c).at pos) then s.writeNextLevel c ((s.cache c).at pos) else s).mem := by
  simp [State.writebackInvalidate]

theorem writebackInvalidate_cache (s : State) (c : CacheId) (pos : Nat) (c' : CacheId) :
    (s.writebackInvalidate c pos).cache c' =
      if c' = c then (s.cache c).replace pos { (s.cache c).at pos with valid := false }
      else (if writesBack s.params c ((s.cache c).at pos) then s.writeNextLevel c ((s.cache c).at pos) else s).cache c' := by
  simp [State.writebackInvalidate, cache_setCache]

theorem writebackInvalidate_wf (s : State) (hm : s.mem.wf) (c : CacheId) (pos : Nat) :
    (s.writebackInvalidate c pos).mem.wf := by
  rw [writebackInvalidate_mem]
  split
  · exact writeNextLevel_wf s hm _ _
  · exact hm

/-- The operations keep the order of the positions. -/
theorem replace_sorted {c : Cache} (h : c.Pairwise fun x y => x.1 < y.1) (pos : Nat) (l : CacheLine) :
    (c.replace pos l).Pairwise fun x y => x.1 < y.1 := by
  unfold Cache.replace
  rw [List.pairwise_map]
  refine h.imp ?_
  intro a b hab
  split <;> split <;> exact hab

theorem erase_sorted {c : Cache} (h : c.Pairwise fun x y => x.1 < y.1) (pos : Nat) :
    (c.erase pos).Pairwise fun x y => x.1 < y.1 := h.filter _

theorem mem_replace {c : Cache} {pos : Nat} {l : CacheLine} {x : Nat × CacheLine} (h : x ∈ c.replace pos l) :
    x ∈ c ∨ (x = (pos, l) ∧ pos ∈ c.map (·.1)) := by
  unfold Cache.replace at h
  obtain ⟨y, hy, rfl⟩ := List.mem_map.mp h
  split
  · next hp => exact .inr ⟨by rw [hp], List.mem_map.mpr ⟨y, hy, hp⟩⟩
  · exact .inl hy

end Sys2Proof.Machine
end

