-- ==== Sys2Proof/Laws/Csr.lean ====
section
/-! SUPPORT. What the CSR operations do: the access primitives, the privilege level, trap entry and the
return, in terms of the named fields. -/

namespace Sys2Proof.Machine

/-! The access primitives. -/

/-- All a `csr_read` can answer (R14). -/
theorem csrRead_ok {n : CsrNum} {s s' : State} {v : Word} (h : csrRead n s = .ok (v, s')) :
    (∃ c, csrSlot n = .modelled c ∧ v = s.readCsr c ∧ s' = s) ∨
    (csrSlot n = .undefined ∧ v = Config.freeCsrRead s.draws ∧ s' = s.tick) := by
  unfold csrRead at h
  split at h <;> cases h
  · exact .inl ⟨_, by assumption, rfl, rfl⟩
  · exact .inr ⟨by assumption, rfl, rfl⟩

/-- A `csr_read` stops only at a CSR the spec lists and does not model (R14). -/
theorem csrRead_error {n : CsrNum} {s : State} {r : Refusal} (h : csrRead n s = .error r) :
    csrSlot n = .unmodelled ∧ r = .unmodelledCsr n := by
  unfold csrRead at h
  split at h <;> cases h
  exact ⟨by assumption, rfl⟩

@[simp] theorem csrRead_num (c : Csr) (s : State) : csrRead c.num s = .ok (s.readCsr c, s) := by
  simp [csrRead]

@[simp] theorem csrWrite_num (c : Csr) (v : Word) (s : State) : csrWrite c.num v s = s.writeCsr c v := by
  simp [csrWrite]

/-- All a `csr_write` can do (R14). -/
theorem csrWrite_cases (n : CsrNum) (v : Word) (s : State) :
    (∃ c, csrSlot n = .modelled c ∧ csrWrite n v s = s.writeCsr c v) ∨ csrWrite n v s = s := by
  unfold csrWrite
  split
  · exact .inl ⟨_, by assumption, rfl⟩
  · exact .inr rfl
  · exact .inr rfl

/-- A masked write, bit by bit (R14). -/
theorem getLsbD_maskedWrite (p : Params) (c : Csr) (v old : Word) (i : Nat) (hi : i < 32) :
    (maskedWrite p c v old).getLsbD i =
      if (writeMask p c).getLsbD i then v.getLsbD i else old.getLsbD i := by
  simp only [maskedWrite, BitVec.getLsbD_or, BitVec.getLsbD_and, BitVec.getLsbD_not, hi, decide_true,
    Bool.true_and]
  cases (writeMask p c).getLsbD i <;> simp

/-- A TLBIDX word with its Index field written, bit by bit (R23). -/
theorem getLsbD_setTlbIndex (p : Params) (w : Word) (i k : Nat) (hk : k < 32) :
    (setTlbIndex p w i).getLsbD k = if k < p.tlbIdxLen then i.testBit k else w.getLsbD k := by
  simp only [setTlbIndex, BitVec.getLsbD_or, BitVec.getLsbD_and, BitVec.getLsbD_not, getLsbD_lowMask, hk,
    BitVec.getLsbD_ofNat]
  by_cases h : k < p.tlbIdxLen <;> simp [h]

/-- What a CSR's fields hold after a reset event, bit by bit (R151). -/
theorem getLsbD_freeFields (d : Nat) (c : Csr) (mask known : Word) (i : Nat) (hi : i < 32) :
    (freeFields d c mask known).getLsbD i =
      if mask.getLsbD i then (Config.freeResetCsr d c.num.toNat).getLsbD i else known.getLsbD i := by
  simp only [freeFields, BitVec.getLsbD_or, BitVec.getLsbD_and, BitVec.getLsbD_not, hi]
  cases mask.getLsbD i <;> simp

/-- Every writable bit is live (R14). -/
theorem liveBits_of_writeMask (p : Params) (c : Csr) (k : Nat) (h : (writeMask p c).getLsbD k = true) :
    (liveBits p c).getLsbD k = true := by
  cases c <;> first | exact h | skip
  · simp only [writeMask, liveBits] at *
    by_cases hk : k < 32
    · revert h; interval_cases k <;> simp
    · rw [BitVec.getLsbD_of_ge _ _ (by omega)] at h; cases h
  · simp [writeMask] at h

/-- The hard-wired bits of a CSR's word, bit by bit. -/
theorem wired_iff (p : Params) (c : Csr) (v : Word) :
    v &&& ~~~liveBits p c = wiredBits c ↔
      ∀ k, k < 32 → (liveBits p c).getLsbD k = false → v.getLsbD k = (wiredBits c).getLsbD k := by
  have hw : ∀ k, (liveBits p c).getLsbD k = true → (wiredBits c).getLsbD k = false := by
    intro k h
    cases c <;> simp only [wiredBits] <;> try simp
    simp only [liveBits, writeMask] at h
    by_cases hk : k < 32
    · interval_cases k <;> simp_all
    · exact BitVec.getLsbD_of_ge _ _ (by omega)
  constructor
  · intro h k hk hl
    rw [← h, BitVec.getLsbD_and, BitVec.getLsbD_not, hl]
    simp [hk]
  · intro h
    apply BitVec.eq_of_getLsbD_eq; intro k hk
    rw [BitVec.getLsbD_and, BitVec.getLsbD_not]
    cases hl : (liveBits p c).getLsbD k
    · rw [h k hk hl]; simp [hk]
    · rw [hw k hl]; simp [hk]

/-! The privilege level. -/

theorem level_plv0 {s : State} : s.level = .plv0 ↔ s.plv = 0#2 := by
  unfold State.level
  by_cases h : s.plv = 0#2
  · simp [h]
  · by_cases h' : s.plv = 3#2 <;> simp [h, h']

theorem level_plv3 {s : State} : s.level = .plv3 ↔ s.plv = 3#2 := by
  unfold State.level
  by_cases h : s.plv = 0#2
  · simp [h]
  · by_cases h' : s.plv = 3#2 <;> simp [h, h']

theorem level_illegal {s : State} : s.level = .illegal ↔ s.plv = 1#2 ∨ s.plv = 2#2 := by
  unfold State.level
  generalize s.plv = p
  revert p; decide

/-- All the privilege check in front of a privileged instruction can do (R122). -/
theorem atPlv0_next {s t : State} {body : Host.Outcome State Fault Refusal} :
    s.atPlv0 body = .next t ↔ (s.plv = 0#2 ∧ body = .next t) ∨ (s.plv = 3#2 ∧ t = s.raise .ipe) := by
  unfold State.atPlv0
  cases h : s.level
  · have := level_plv0.mp h; simp [this]
  · have := level_plv3.mp h; simp [this, eq_comm]
  · rcases level_illegal.mp h with h | h <;> simp [h]

theorem atPlv0_plv0 {s : State} (h : s.plv = 0#2) (body : Host.Outcome State Fault Refusal) :
    s.atPlv0 body = body := by simp [State.atPlv0, level_plv0.mpr h]

theorem atPlv0_plv3 {s : State} (h : s.plv = 3#2) (body : Host.Outcome State Fault Refusal) :
    s.atPlv0 body = .next (s.raise .ipe) := by simp [State.atPlv0, level_plv3.mpr h]

theorem atAnyPlv_legal {s : State} (h : s.plv = 0#2 ∨ s.plv = 3#2) (body : Host.Outcome State Fault Refusal) :
    s.atAnyPlv body = body := by
  rcases h with h | h
  · simp [State.atAnyPlv, level_plv0.mpr h]
  · simp [State.atAnyPlv, level_plv3.mpr h]

/-- All the check in front of a Hit-class CACOP can do (R88). -/
theorem atAnyPlv_next {s t : State} {body : Host.Outcome State Fault Refusal} :
    s.atAnyPlv body = .next t ↔ (s.plv = 0#2 ∨ s.plv = 3#2) ∧ body = .next t := by
  unfold State.atAnyPlv
  cases h : s.level
  · have := level_plv0.mp h; simp [this]
  · have := level_plv3.mp h; simp [this]
  · rcases level_illegal.mp h with h | h <;> simp [h]

/-- All CSRWR and CSRXCHG can do after their privilege check (R71, R72). -/
theorem csrExchange_next {rd : RegNum} {n : CsrNum} {new : Word → Word → Word} {s t : State} :
    csrExchange rd n new s = .next t ↔
      ∃ old s', csrRead n s = .ok (old, s') ∧
        t = ((csrWrite n (new (s.readReg rd) old) s').writeReg rd old).advance := by
  unfold csrExchange
  split
  · next h => simp [h]
  · next h => simp [h, eq_comm]

/-! Trap entry (R136). -/

@[simp] theorem takeException_plv (s : State) (x : Exc) (badv : Word) : (s.takeException x badv).plv = 0#2 := by
  simp only [State.plv, State.takeException, entryCrmd]
  split
  · rw [getField_setBit_other _ _ _ _ _ (by omega), getField_setBit_other _ _ _ _ _ (by omega),
      getField_setBit_other _ _ _ _ _ (by omega), getField_setField_same _ _ _ (by omega)]
  · rw [getField_setBit_other _ _ _ _ _ (by omega), getField_setField_same _ _ _ (by omega)]

@[simp] theorem takeException_ie (s : State) (x : Exc) (badv : Word) : (s.takeException x badv).ie = false := by
  simp only [State.ie, State.takeException, entryCrmd]
  split
  · rw [getBit_setBit_other _ _ _ _ (by omega), getBit_setBit_other _ _ _ _ (by omega), getBit_setBit_same _ _ _ (by omega)]
  · rw [getBit_setBit_same _ _ _ (by omega)]

theorem takeException_da (s : State) (x : Exc) (badv : Word) :
    (s.takeException x badv).da = if x = .tlbr then true else s.da := by
  simp only [State.da, State.takeException, entryCrmd]
  split
  · rw [getBit_setBit_other _ _ _ _ (by omega), getBit_setBit_same _ _ _ (by omega)]
  · rw [getBit_setBit_other _ _ _ _ (by omega), getBit_setField_other _ _ _ _ (by omega)]

theorem takeException_pg (s : State) (x : Exc) (badv : Word) :
    (s.takeException x badv).pg = if x = .tlbr then false else s.pg := by
  simp only [State.pg, State.takeException, entryCrmd]
  split
  · rw [getBit_setBit_same _ _ _ (by omega)]
  · rw [getBit_setBit_other _ _ _ _ (by omega), getBit_setField_other _ _ _ _ (by omega)]

@[simp] theorem takeException_pplv (s : State) (x : Exc) (badv : Word) : (s.takeException x badv).pplv = s.plv := by
  simp only [State.pplv, State.takeException]
  rw [getField_setBit_other _ _ _ _ _ (by omega), getField_setField_same _ _ _ (by omega)]

@[simp] theorem takeException_pie (s : State) (x : Exc) (badv : Word) : (s.takeException x badv).pie = s.ie := by
  simp only [State.pie, State.takeException]
  rw [getBit_setBit_same _ _ _ (by omega)]

@[simp] theorem takeException_ecode (s : State) (x : Exc) (badv : Word) :
    (s.takeException x badv).ecode = x.ecode := by
  simp only [State.ecode, State.takeException]
  rw [getField_setField_other _ _ _ _ _ (by omega), getField_setField_same _ _ _ (by omega)]

@[simp] theorem takeException_esubcode (s : State) (x : Exc) (badv : Word) :
    (s.takeException x badv).esubcode = x.esubcode := by
  simp only [State.esubcode, State.takeException]
  rw [getField_setField_same _ _ _ (by omega)]

@[simp] theorem takeException_era (s : State) (x : Exc) (badv : Word) : (s.takeException x badv).csr.era = s.pc := rfl

theorem takeException_badv (s : State) (x : Exc) (badv : Word) :
    (s.takeException x badv).csr.badv = if x.recordsBadv then badv else s.csr.badv := rfl

/-- CRMD at exception entry, bit by bit (R136). -/
theorem getLsbD_entryCrmd (x : Exc) (w : Word) (k : Nat) :
    (entryCrmd x w).getLsbD k =
      if k < 3 then false
      else if x = .tlbr ∧ k = 3 then true
      else if x = .tlbr ∧ k = 4 then false
      else w.getLsbD k := by
  unfold entryCrmd
  dsimp only
  split
  · next h =>
    simp only [getLsbD_setBit, getLsbD_setField, h, true_and]
    rcases k with _|_|_|_|_|k <;> simp
  · next h =>
    simp only [getLsbD_setBit, getLsbD_setField, h, false_and, if_false]
    rcases k with _|_|_|_|_|k <;> simp

/-! The return from an exception (R110). -/

@[simp] theorem exceptionReturn_plv (s : State) : s.exceptionReturn.plv = s.pplv := by
  simp only [State.plv, State.exceptionReturn, State.returnCrmd]
  split
  · rw [getField_setBit_other _ _ _ _ _ (by omega), getField_setBit_other _ _ _ _ _ (by omega),
      getField_setBit_other _ _ _ _ _ (by omega), getField_setField_same _ _ _ (by omega)]
  · rw [getField_setBit_other _ _ _ _ _ (by omega), getField_setField_same _ _ _ (by omega)]

@[simp] theorem exceptionReturn_ie (s : State) : s.exceptionReturn.ie = s.pie := by
  simp only [State.ie, State.exceptionReturn, State.returnCrmd]
  split
  · rw [getBit_setBit_other _ _ _ _ (by omega), getBit_setBit_other _ _ _ _ (by omega), getBit_setBit_same _ _ _ (by omega)]
  · rw [getBit_setBit_same _ _ _ (by omega)]

theorem exceptionReturn_da (s : State) :
    s.exceptionReturn.da = if s.ecode = 0x3F#6 then false else s.da := by
  simp only [State.da, State.exceptionReturn, State.returnCrmd]
  split
  · rw [getBit_setBit_other _ _ _ _ (by omega), getBit_setBit_same _ _ _ (by omega)]
  · rw [getBit_setBit_other _ _ _ _ (by omega), getBit_setField_other _ _ _ _ (by omega)]

theorem exceptionReturn_pg (s : State) :
    s.exceptionReturn.pg = if s.ecode = 0x3F#6 then true else s.pg := by
  simp only [State.pg, State.exceptionReturn, State.returnCrmd]
  split
  · rw [getBit_setBit_same _ _ _ (by omega)]
  · rw [getBit_setBit_other _ _ _ _ (by omega), getBit_setField_other _ _ _ _ (by omega)]

/-! The mode after a reset event (R151, R152). -/

@[simp] theorem resetEvent_plv (s : State) : s.resetEvent.plv = 0#2 := by
  simp only [State.plv, resetEvent_csr, State.csrsAfterReset]; decide

@[simp] theorem resetEvent_ie (s : State) : s.resetEvent.ie = false := by
  simp only [State.ie, resetEvent_csr, State.csrsAfterReset]; decide

@[simp] theorem resetEvent_da (s : State) : s.resetEvent.da = true := by
  simp only [State.da, resetEvent_csr, State.csrsAfterReset]; decide

@[simp] theorem resetEvent_pg (s : State) : s.resetEvent.pg = false := by
  simp only [State.pg, resetEvent_csr, State.csrsAfterReset]; decide

end Sys2Proof.Machine
end

