-- ==== Sys2Proof/Laws/PerInstr.lean ====
section
/-! SUPPORT. The family of lemmas with one member per instruction: the word of an instruction is of its
row of R58. -/

namespace Sys2Proof.Laws

open Sys2Proof.Machine

/-- The row of R58 of each instruction. -/
def rowOf : Instr → OpcodeRow
  | .csrrd _ _ => rowCsrrd
  | .csrwr _ _ => rowCsrwr
  | .csrxchg _ _ _ => rowCsrxchg
  | .cacop _ _ _ => rowCacop
  | .tlbsrch => rowTlbsrch
  | .tlbrd => rowTlbrd
  | .tlbwr => rowTlbwr
  | .tlbfill => rowTlbfill
  | .invtlb _ _ _ => rowInvtlb
  | .ertn => rowErtn
  | .idle _ => rowIdle

/-- The word of the instruction has its row's fixed bits. -/
def EncodeRow.Statement (i : Instr) : Prop := (rowOf i).accepts (encode i) = true

theorem EncodeRow.csrrd (rd : RegNum) (n : CsrNum) : EncodeRow.Statement (.csrrd rd n) := by
  simp only [Statement, rowOf, OpcodeRow.accepts, rowCsrrd, encode, beq_iff_eq]
  apply BitVec.eq_of_getLsbD_eq
  intro i hi
  interval_cases i <;> simp

theorem EncodeRow.csrwr (rd : RegNum) (n : CsrNum) : EncodeRow.Statement (.csrwr rd n) := by
  simp only [Statement, rowOf, OpcodeRow.accepts, rowCsrwr, encode, beq_iff_eq]
  apply BitVec.eq_of_getLsbD_eq
  intro i hi
  interval_cases i <;> simp

theorem EncodeRow.csrxchg (rd rj : RegNum) (n : CsrNum) : EncodeRow.Statement (.csrxchg rd rj n) := by
  simp only [Statement, rowOf, OpcodeRow.accepts, rowCsrxchg, encode, beq_iff_eq]
  apply BitVec.eq_of_getLsbD_eq
  intro i hi
  interval_cases i <;> simp

theorem EncodeRow.cacop (code : BitVec 5) (rj : RegNum) (si12 : BitVec 12) :
    EncodeRow.Statement (.cacop code rj si12) := by
  simp only [Statement, rowOf, OpcodeRow.accepts, rowCacop, encode, beq_iff_eq]
  apply BitVec.eq_of_getLsbD_eq
  intro i hi
  interval_cases i <;> simp

theorem EncodeRow.tlbsrch : EncodeRow.Statement .tlbsrch := rfl

theorem EncodeRow.tlbrd : EncodeRow.Statement .tlbrd := rfl

theorem EncodeRow.tlbwr : EncodeRow.Statement .tlbwr := rfl

theorem EncodeRow.tlbfill : EncodeRow.Statement .tlbfill := rfl

theorem EncodeRow.invtlb (op : BitVec 5) (rj rk : RegNum) : EncodeRow.Statement (.invtlb op rj rk) := by
  simp only [Statement, rowOf, OpcodeRow.accepts, rowInvtlb, encode, beq_iff_eq]
  apply BitVec.eq_of_getLsbD_eq
  intro i hi
  interval_cases i <;> simp

theorem EncodeRow.ertn : EncodeRow.Statement .ertn := rfl

theorem EncodeRow.idle (level : BitVec 15) : EncodeRow.Statement (.idle level) := by
  simp only [Statement, rowOf, OpcodeRow.accepts, rowIdle, encode, beq_iff_eq]
  apply BitVec.eq_of_getLsbD_eq
  intro i hi
  interval_cases i <;> simp

end Sys2Proof.Laws
end

