-- ==== Sys2Proof/Laws/Tlb.lean ====
section
/-! SUPPORT. What a TLB search, a translation and an INVTLB can do. -/

namespace Sys2Proof.Machine

theorem tlbVaMatch_ok {p : Params} {e : TlbEntry} {va : Word} {b : Bool} :
    tlbVaMatch p e va = .ok b ↔
      e.ps.toNat ∈ p.psLegal ∧ b = (va >>> (e.ps.toNat + 1) == vppnWord e.vppn >>> (e.ps.toNat + 1)) := by
  unfold tlbVaMatch
  split <;> simp_all [eq_comm]

theorem tlbVaMatch_error {p : Params} {e : TlbEntry} {va : Word} {r : Refusal} :
    tlbVaMatch p e va = .error r ↔ e.ps.toNat ∉ p.psLegal ∧ r = .illegalPageSize := by
  unfold tlbVaMatch
  split <;> simp_all [eq_comm]

/-- The match as the model computes it, by shifting, is the match bit by bit (R49). -/
theorem shifted_eq_iff (e : TlbEntry) (va : Word) :
    va >>> (e.ps.toNat + 1) = vppnWord e.vppn >>> (e.ps.toNat + 1) ↔ VaAgrees e va := by
  have hv : ∀ k, (vppnWord e.vppn).getLsbD k = (decide (13 ≤ k) && e.vppn.getLsbD (k - 13)) := by
    intro k
    unfold vppnWord
    rw [BitVec.getLsbD_append]
    by_cases h : k < 13
    · simp [h]
    · simp [h, show 13 ≤ k by omega]
  constructor
  · intro h k hk hp
    have := congrArg (·.getLsbD (k - (e.ps.toNat + 1))) h
    simp only [BitVec.getLsbD_ushiftRight, show e.ps.toNat + 1 + (k - (e.ps.toNat + 1)) = k by omega] at this
    rw [this, hv]
  · intro h
    apply BitVec.eq_of_getLsbD_eq
    intro i hi
    simp only [BitVec.getLsbD_ushiftRight]
    by_cases hk : e.ps.toNat + 1 + i < 32
    · rw [h _ hk (by omega), hv]
    · rw [BitVec.getLsbD_of_ge _ _ (by omega), BitVec.getLsbD_of_ge _ _ (by omega)]

/-- An entry hits (R49) exactly where the statements' terms say so. -/
theorem tlbHit_true {p : Params} {e : TlbEntry} {va : Word} {asid : BitVec 10} :
    tlbHit p e va asid = .ok true ↔ EntryHits p e va asid := by
  unfold tlbHit
  split
  · next h =>
    simp only [Bool.and_eq_true, Bool.or_eq_true, beq_iff_eq] at h
    rw [tlbVaMatch_ok, eq_comm (a := true), beq_iff_eq, shifted_eq_iff]
    exact ⟨fun ⟨hl, ha⟩ => ⟨h.1, h.2, hl, ha⟩, fun hh => ⟨hh.legal, hh.agrees⟩⟩
  · next h =>
    simp only [Bool.and_eq_true, Bool.or_eq_true, beq_iff_eq] at h
    simp only [Except.ok.injEq, Bool.false_eq_true, false_iff]
    exact fun hh => h ⟨hh.valid, hh.space⟩

/-- Where no PS stops a search every entry has an answer. -/
theorem tlbHit_of_searchable {s : State} {asid : BitVec 10} (h : Searchable s asid) (va : Word) :
    ∀ e ∈ s.tlb, ∃ hit, tlbHit s.params e va asid = .ok hit := by
  intro e he
  unfold tlbHit
  split
  · next hc =>
    simp only [Bool.and_eq_true, Bool.or_eq_true, beq_iff_eq] at hc
    exact ⟨_, tlbVaMatch_ok.mpr ⟨h e he hc.1 hc.2, rfl⟩⟩
  · exact ⟨false, rfl⟩

/-- A physical address kept to PALEN bits is a remainder (R48). -/
theorem toPhys_toNat (p : Params) (a : PAddr) : (toPhys p a).toNat = a.toNat % 2 ^ p.palen :=
  toNat_and_lowMask 36 p.palen a

theorem tlbAt_of_getElem? {s : State} {i : Nat} {e : TlbEntry} (h : s.tlb[i]? = some e) : s.tlbAt i = e := by
  simp [State.tlbAt, h]

/-- The TLBELO word of a page-table entry, bit by bit (R94). -/
theorem getLsbD_eloWord (p : Params) (pg : Page) (g : Bool) (k : Nat) :
    (eloWord p pg g).getLsbD k =
      if k = 0 then pg.v else if k = 1 then pg.d
      else if k < 4 then pg.plv.getLsbD (k - 2) else if k < 6 then pg.mat.getLsbD (k - 4)
      else if k = 6 then g else if k = 7 then false
      else (pg.ppn.getLsbD (k - 8) && decide (k - 8 < p.palen - 12)) := by
  unfold eloWord
  simp only [BitVec.getLsbD_append, BitVec.getLsbD_and, getLsbD_lowMask]
  rcases k with _|_|_|_|_|_|_|_|k <;> simp
  have h1 : ¬ k + 1 + 1 + 1 + 1 + 1 + 1 + 1 + 1 < 4 := by omega
  have h2 : ¬ k + 1 + 1 + 1 + 1 + 1 + 1 + 1 + 1 < 6 := by omega
  simp only [h1, h2]
  by_cases hk : k < 24
  · simp [hk]
  · have h3 : pg.ppn.getLsbD k = false := BitVec.getLsbD_of_ge _ _ (by omega)
    simp [h3]

/-- A search lists exactly the indices of the entries that hit. -/
theorem mem_tlbHitsFrom {p : Params} {va : Word} {asid : BitVec 10} :
    ∀ {es : List TlbEntry} {i : Nat} {l : List Nat}, tlbHitsFrom p va asid i es = .ok l →
      ∀ j, j ∈ l ↔ ∃ k e, j = i + k ∧ es[k]? = some e ∧ tlbHit p e va asid = .ok true := by
  intro es
  induction es with
  | nil => intro i l h; cases h; simp
  | cons e es ih =>
    intro i l h j
    simp only [tlbHitsFrom] at h
    split at h
    · cases h
    · cases h
    · next hit is he hes =>
      have ih' := ih hes j
      have key : (∃ k e', j = i + k ∧ (e :: es)[k]? = some e' ∧ tlbHit p e' va asid = .ok true) ↔
          (j = i ∧ hit = true) ∨ j ∈ is := by
        rw [ih']
        constructor
        · rintro ⟨k, e', rfl, hk, hh⟩
          cases k with
          | zero =>
            simp only [List.getElem?_cons_zero, Option.some.injEq] at hk
            subst hk
            rw [he] at hh
            exact .inl ⟨by omega, by simpa using hh⟩
          | succ k => exact .inr ⟨k, e', by omega, by simpa using hk, hh⟩
        · rintro (⟨rfl, rfl⟩ | ⟨k, e', rfl, hk, hh⟩)
          · exact ⟨0, e, by omega, by simp, he⟩
          · exact ⟨k + 1, e', by omega, by simpa using hk, hh⟩
      rw [key]
      cases h
      cases hit <;> simp

/-- The indices a search lists are different and rising. -/
theorem tlbHitsFrom_sorted {p : Params} {va : Word} {asid : BitVec 10} :
    ∀ {es : List TlbEntry} {i : Nat} {l : List Nat}, tlbHitsFrom p va asid i es = .ok l →
      l.Pairwise (· < ·) ∧ ∀ j ∈ l, i ≤ j := by
  intro es
  induction es with
  | nil => intro i l h; cases h; simp
  | cons e es ih =>
    intro i l h
    simp only [tlbHitsFrom] at h
    split at h
    · cases h
    · cases h
    · next hit is he hes =>
      obtain ⟨hp, hge⟩ := ih hes
      cases h
      cases hit
      · exact ⟨hp, fun j hj => by have := hge j hj; omega⟩
      · refine ⟨List.pairwise_cons.mpr ⟨fun j hj => by have := hge j hj; omega, hp⟩, ?_⟩
        intro j hj
        rcases List.mem_cons.mp hj with rfl | hj
        · omega
        · have := hge j hj; omega

/-- A search is not stopped when no entry's PS stops it. -/
theorem tlbHitsFrom_total {p : Params} {va : Word} {asid : BitVec 10} :
    ∀ {es : List TlbEntry} (i : Nat), (∀ e ∈ es, ∃ b, tlbHit p e va asid = .ok b) →
      ∃ l, tlbHitsFrom p va asid i es = .ok l := by
  intro es
  induction es with
  | nil => intro i _; exact ⟨[], rfl⟩
  | cons e es ih =>
    intro i h
    obtain ⟨b, hb⟩ := h e (by simp)
    obtain ⟨l, hl⟩ := ih (i + 1) fun e' he' => h e' (by simp [he'])
    exact ⟨if b then i :: l else l, by simp [tlbHitsFrom, hb, hl]⟩

theorem tlbHitsFrom_error {p : Params} {va : Word} {asid : BitVec 10} :
    ∀ {es : List TlbEntry} {i : Nat} {r : Refusal}, tlbHitsFrom p va asid i es = .error r → r = .illegalPageSize := by
  intro es
  induction es with
  | nil => intro i r h; cases h
  | cons e es ih =>
    intro i r h
    simp only [tlbHitsFrom] at h
    split at h
    · next he =>
      cases h
      unfold tlbHit at he
      split at he
      · exact (tlbVaMatch_error.mp he).2
      · cases he
    · next hes => cases h; exact ih hes
    · cases h

/-- All a TLB search can answer (R48, R90): a miss when no entry hits, the one index that hits, or a
refusal. -/
theorem tlbLookup_hit {s : State} {va : Word} {asid : BitVec 10} {i : Nat} (h : s.tlbLookup va asid = .hit i) :
    HitsAt s va asid i ∧ ∀ j, HitsAt s va asid j → j = i := by
  unfold State.tlbLookup at h
  split at h <;> cases h
  next hl =>
  have hm := mem_tlbHitsFrom hl
  refine ⟨?_, ?_⟩
  · obtain ⟨k, e, hk, he, hh⟩ := (hm i).mp (by simp)
    exact ⟨e, by rw [show i = k by omega]; exact he, tlbHit_true.mp hh⟩
  · rintro j ⟨e, he, hh⟩
    simpa using (hm j).mpr ⟨j, e, by omega, he, tlbHit_true.mpr hh⟩

theorem tlbLookup_miss {s : State} {va : Word} {asid : BitVec 10} (h : s.tlbLookup va asid = .miss) :
    ∀ j, ¬ HitsAt s va asid j := by
  unfold State.tlbLookup at h
  split at h <;> cases h
  next hl =>
  rintro j ⟨e, he, hh⟩
  simpa using (mem_tlbHitsFrom hl j).mpr ⟨j, e, by omega, he, tlbHit_true.mpr hh⟩

/-- A search that no PS stops finds what hits. -/
theorem tlbLookup_of_searchable {s : State} {va : Word} {asid : BitVec 10} (h : Searchable s asid) :
    ((∀ j, ¬ HitsAt s va asid j) → s.tlbLookup va asid = .miss) ∧
    (∀ i, HitsAt s va asid i → (∀ j, HitsAt s va asid j → j = i) → s.tlbLookup va asid = .hit i) ∧
    (∀ i j, i ≠ j → HitsAt s va asid i → HitsAt s va asid j → s.tlbLookup va asid = .refuse .multipleTlbHits) := by
  obtain ⟨l, hl⟩ := tlbHitsFrom_total 0 (tlbHit_of_searchable h va)
  have hm : ∀ j, j ∈ l ↔ HitsAt s va asid j := by
    intro j
    rw [mem_tlbHitsFrom hl j]
    constructor
    · rintro ⟨k, e, rfl, he, hh⟩; exact ⟨e, by simpa using he, tlbHit_true.mp hh⟩
    · rintro ⟨e, he, hh⟩; exact ⟨j, e, by omega, he, tlbHit_true.mpr hh⟩
  have hs := (tlbHitsFrom_sorted hl).1
  unfold State.tlbLookup
  rw [hl]
  refine ⟨?_, ?_, ?_⟩
  · intro hn
    cases l with
    | nil => rfl
    | cons i l => exact absurd ((hm i).mp (by simp)) (hn i)
  · intro i hi hu
    cases l with
    | nil => exact absurd ((hm i).mpr hi) (by simp)
    | cons a l =>
      cases l with
      | nil => have := hu a ((hm a).mp (by simp)); simp [this]
      | cons b l =>
        have h1 := hu a ((hm a).mp (by simp))
        have h2 := hu b ((hm b).mp (by simp))
        have := (List.pairwise_cons.mp hs).1 b (by simp)
        omega
  · intro i j hij hi hj
    have hi := (hm i).mpr hi
    have hj := (hm j).mpr hj
    match l, hi, hj with
    | [], hi, _ => simp at hi
    | [a], hi, hj => simp at hi hj; omega
    | a :: b :: l, _, _ => rfl

/-- All the page checks can raise, by the kind of access (R48). -/
theorem pageAccess_raise {p : Params} {plv : BitVec 2} {e : TlbEntry} {va : Word} {k : Access} {x : Exc}
    (h : pageAccess p plv e va k = .raise x) :
    x = k.invalidPage ∨ x = .ppi ∨ (x = .pme ∧ k = .store) := by
  unfold pageAccess at h
  dsimp only at h
  split at h
  · cases h; simp
  · split at h
    · cases h; simp
    · split at h
      · next hk => cases h; simp [hk.1]
      · cases h

/-- All a translation can raise (R48). -/
theorem translate_raise {s : State} {va : Word} {k : Access} {x : Exc} (h : translate s va k = .raise x) :
    (s.da = false ∧ s.pg = true ∧ windowTakes s.csr.dmw0 va s.plv = false ∧ windowTakes s.csr.dmw1 va s.plv = false) ∧
    ((x = .tlbr ∧ s.tlbLookup va s.asid = .miss) ∨
     (∃ i, s.tlbLookup va s.asid = .hit i ∧ (x = k.invalidPage ∨ x = .ppi ∨ (x = .pme ∧ k = .store)))) := by
  unfold translate at h
  split at h
  · cases h
  · split at h
    · next h2 =>
      split at h
      · cases h
      · split at h
        · cases h
        · next w0 w1 =>
          refine ⟨by simp_all, ?_⟩
          split at h
          · cases h; next hl => exact .inl ⟨rfl, hl⟩
          · cases h
          · next i hl => exact .inr ⟨i, hl, pageAccess_raise h⟩
    · cases h

/-- All INVTLB does to an entry (R97, R98): its E bit, and nothing else. -/
theorem onEntry_ok {p : Params} {o : InvOp} {asid : BitVec 10} {va : Word} {e e' : TlbEntry}
    (h : o.onEntry p asid va e = .ok e') :
    (e.e = false ∧ e' = e) ∨ (e.e = true ∧ ∃ sel, o.selects p e asid va = .ok sel ∧ e' = { e with e := !sel }) := by
  unfold InvOp.onEntry at h
  split at h
  · next he =>
    split at h
    · next sel hs => cases h; exact .inr ⟨he, sel, hs, rfl⟩
    · cases h
  · next he => cases h; exact .inl ⟨by simpa using he, rfl⟩

/-- INVTLB acts on every entry by itself (R97). -/
theorem onTlb_ok {p : Params} {o : InvOp} {asid : BitVec 10} {va : Word} :
    ∀ {es es' : List TlbEntry}, o.onTlb p asid va es = .ok es' →
      es'.length = es.length ∧
      ∀ i (h : i < es.length) (h' : i < es'.length), o.onEntry p asid va es[i] = .ok es'[i] := by
  intro es
  induction es with
  | nil => intro es' h; cases h; simp
  | cons e es ih =>
    intro es' h
    simp only [InvOp.onTlb] at h
    split at h
    · cases h
    · cases h
    · next e' t' he hes =>
      cases h
      obtain ⟨hl, hk⟩ := ih hes
      refine ⟨by simp [hl], ?_⟩
      intro i h1 h2
      cases i with
      | zero => exact he
      | succ i => exact hk i (by simpa using h1) (by simpa using h2)

/-- INVTLB is `map` where every entry has an answer. -/
theorem onTlb_of_map {p : Params} {o : InvOp} {asid : BitVec 10} {va : Word} {f : TlbEntry → TlbEntry} :
    ∀ {es : List TlbEntry}, (∀ e ∈ es, o.onEntry p asid va e = .ok (f e)) → o.onTlb p asid va es = .ok (es.map f) := by
  intro es
  induction es with
  | nil => intro _; rfl
  | cons e es ih =>
    intro h
    simp [InvOp.onTlb, h e (by simp), ih fun e' he' => h e' (by simp [he'])]

end Sys2Proof.Machine
end

