-- ==== Sys2Proof/Laws/Step.lean ====
section
/-! SUPPORT. What each instruction and each step can do, said once: if it answers a next state, then one
of these cases holds. -/

namespace Sys2Proof.Machine

theorem execCsrrd_next {rd : RegNum} {n : CsrNum} {s t : State} : execCsrrd rd n s = .next t ↔
    (s.plv = 0#2 ∧ ∃ v s', csrRead n s = .ok (v, s') ∧ t = (s'.writeReg rd v).advance) ∨
    (s.plv = 3#2 ∧ t = s.raise .ipe) := by
  unfold execCsrrd
  rw [atPlv0_next]
  apply or_congr_left
  apply and_congr_right
  intro _
  split
  · next h => simp [h]
  · next h => simp [h, eq_comm]

theorem execCsrwr_next {rd : RegNum} {n : CsrNum} {s t : State} : execCsrwr rd n s = .next t ↔
    (s.plv = 0#2 ∧ ∃ old s', csrRead n s = .ok (old, s') ∧
      t = ((csrWrite n (s.readReg rd) s').writeReg rd old).advance) ∨
    (s.plv = 3#2 ∧ t = s.raise .ipe) := by
  unfold execCsrwr
  rw [atPlv0_next, csrExchange_next]

theorem execCsrxchg_next {rd rj : RegNum} {n : CsrNum} {s t : State} : execCsrxchg rd rj n s = .next t ↔
    (s.plv = 0#2 ∧ ∃ old s', csrRead n s = .ok (old, s') ∧
      t = ((csrWrite n ((s.readReg rd &&& s.readReg rj) ||| (old &&& ~~~s.readReg rj)) s').writeReg rd old).advance) ∨
    (s.plv = 3#2 ∧ t = s.raise .ipe) := by
  unfold execCsrxchg
  rw [atPlv0_next, csrExchange_next]

/-- All a CACOP can do after its privilege check (R80). -/
theorem cacopBody_next {code : BitVec 5} {va : Word} {s t : State} : cacopBody code va s = .next t ↔
    ∃ c, cacopCache code = some c ∧
      ((cacopKind code = .storeTag ∧ t = (s.storeTag c va).advance) ∨
       (cacopKind code = .indexInvalidate ∧ t = (s.indexInvalidate c va).advance) ∨
       (cacopKind code = .hitInvalidate ∧
         ((∃ a, translate s va .load = .pa a ∧ t = (s.hitInvalidate c a).advance) ∨
          (∃ x, translate s va .load = .raise x ∧ t = s.takeException x va))) ∨
       (cacopKind code = .custom ∧ s.params.cacopCustom = .defined ∧ t = (s.customCacop c va).advance)) := by
  unfold cacopBody
  cases hc : cacopCache code with
  | none => simp
  | some c =>
    simp only [cacopOn, Option.some.injEq, exists_eq_left']
    cases hk : cacopKind code
    · simp [eq_comm]
    · simp [eq_comm]
    · cases translate s va .load <;> simp [eq_comm]
    · cases s.params.cacopCustom <;> simp [eq_comm]

/-- All a CACOP can do (R80, R88). -/
theorem execCacop_next {code : BitVec 5} {rj : RegNum} {si12 : BitVec 12} {s t : State} :
    execCacop code rj si12 s = .next t ↔
      ((s.plv = 0#2 ∨ (s.plv = 3#2 ∧ cacopKind code = .hitInvalidate)) ∧
        cacopBody code (cacopVa s rj si12) s = .next t) ∨
      (s.plv = 3#2 ∧ cacopKind code ≠ .hitInvalidate ∧ t = s.raise .ipe) := by
  unfold execCacop
  split
  · next h => simp [atAnyPlv_next, h]
  · next h => simp [atPlv0_next, h]

theorem execTlbsrch_next {s t : State} : execTlbsrch s = .next t ↔
    (s.plv = 0#2 ∧
      ((s.tlbLookup (vppnWord s.vppn) s.asid = .miss ∧ t = (s.putCsr .tlbidx (setBit s.csr.tlbidx 31 true)).advance) ∨
       (∃ i, s.tlbLookup (vppnWord s.vppn) s.asid = .hit i ∧
          t = (s.putCsr .tlbidx (setBit (setTlbIndex s.params s.csr.tlbidx i) 31 false)).advance))) ∨
    (s.plv = 3#2 ∧ t = s.raise .ipe) := by
  unfold execTlbsrch
  rw [atPlv0_next]
  apply or_congr_left
  apply and_congr_right
  intro _
  cases s.tlbLookup (vppnWord s.vppn) s.asid <;> simp [eq_comm]

theorem execTlbrd_next {s t : State} : execTlbrd s = .next t ↔
    (s.plv = 0#2 ∧ t = (s.readTlbEntry (s.tlbAt s.tlbIndex)).advance) ∨ (s.plv = 3#2 ∧ t = s.raise .ipe) := by
  unfold execTlbrd
  rw [atPlv0_next]
  simp [eq_comm]

theorem execTlbwr_next {s t : State} : execTlbwr s = .next t ↔
    (s.plv = 0#2 ∧ t = (s.fillEntry s.tlbIndex).advance) ∨ (s.plv = 3#2 ∧ t = s.raise .ipe) := by
  unfold execTlbwr
  rw [atPlv0_next]
  simp [eq_comm]

theorem execTlbfill_next {s t : State} : execTlbfill s = .next t ↔
    (s.plv = 0#2 ∧ t = (s.fillEntry (Config.freeTlbIndex s.draws % s.params.tlbEntries)).tick.advance) ∨
    (s.plv = 3#2 ∧ t = s.raise .ipe) := by
  unfold execTlbfill
  rw [atPlv0_next]
  simp [eq_comm]

/-- All an INVTLB can do (R97 to R100). -/
theorem execInvtlb_next {op : BitVec 5} {rj rk : RegNum} {s t : State} : execInvtlb op rj rk s = .next t ↔
    (invOp op = none ∧ ((s.plv = 0#2 ∧ t = s.raise .ine) ∨
      (s.plv = 3#2 ∧ t = s.tick.raise (if Config.freeIpeOverIne s.draws then .ipe else .ine)))) ∨
    (∃ o, invOp op = some o ∧
      ((s.plv = 0#2 ∧ ¬ (o.usesAsid = true ∧ getField (s.readReg rj) 10 22 ≠ 0#22) ∧
          ∃ tlb, o.onTlb s.params (getField (s.readReg rj) 0 10) (s.readReg rk) s.tlb = .ok tlb ∧
            t = { s with tlb := tlb }.advance) ∨
       (s.plv = 3#2 ∧ t = s.raise .ipe))) := by
  unfold execInvtlb
  cases ho : invOp op with
  | none =>
    simp only [undefinedInvtlb, true_and, reduceCtorEq, false_and, exists_false, or_false]
    cases hl : s.level
    · have := level_plv0.mp hl; simp [this, eq_comm (a := t)]
    · have := level_plv3.mp hl; simp [this, eq_comm (a := t)]
    · rcases level_illegal.mp hl with h | h <;> simp [h]
  | some o =>
    simp only [reduceCtorEq, false_and, false_or, Option.some.injEq, exists_eq_left']
    rw [atPlv0_next]
    apply or_congr_left
    apply and_congr_right
    intro _
    unfold invtlbBody
    split
    · next h => simp at h; simp [h]
    · next h =>
      simp only [Bool.and_eq_true, bne_iff_ne] at h
      simp only [h, not_false_eq_true, true_and]
      cases o.onTlb s.params (getField (s.readReg rj) 0 10) (s.readReg rk) s.tlb <;> simp [eq_comm]

theorem execErtn_next {s t : State} : execErtn s = .next t ↔
    (s.plv = 0#2 ∧ t = s.exceptionReturn) ∨ (s.plv = 3#2 ∧ t = s.raise .ipe) := by
  unfold execErtn
  rw [atPlv0_next]
  simp [eq_comm]

theorem execIdle_next {level : BitVec 15} {s t : State} : execIdle level s = .next t ↔
    (s.plv = 0#2 ∧ t = { s.advance with idle := true }) ∨ (s.plv = 3#2 ∧ t = s.raise .ipe) := by
  unfold execIdle
  rw [atPlv0_next]
  simp [eq_comm]

/-- The fetch of an instruction (R42, R44). -/
theorem fetch_instr {s : State} {i : Instr} : fetch s = .instr i ↔
    getField s.pc 0 2 = 0#2 ∧ ∃ a w, translate s s.pc .fetch = .pa a ∧ s.params.holdsWord a.toNat = true ∧
      memRead s.mem a.toNat 4 = some w ∧
      decodeWord (BitVec.ofNat 32 w) = .ok i := by
  unfold fetch
  split
  · next h => simp [h]
  · next h =>
    simp only [not_not] at h
    simp only [h, true_and]
    cases translate s s.pc .fetch with
    | raise x => simp
    | refuse r => simp
    | pa a =>
      simp only [fetchAt, fetchUnmapped, Xlate.pa.injEq, exists_and_left, exists_eq_left']
      cases s.params.holdsWord a.toNat with
      | false => cases s.params.unmapped <;> simp
      | true =>
        cases memRead s.mem a.toNat 4 with
        | none => simp
        | some w =>
          simp only [Option.some.injEq, exists_eq_left']
          cases decodeWord (BitVec.ofNat 32 w) <;> simp

/-- The exceptions a fetch raises (R44, R46, R134). -/
theorem fetch_raise {s : State} {x : Exc} : fetch s = .raise x ↔
    (getField s.pc 0 2 ≠ 0#2 ∧ x = .adef) ∨
    (getField s.pc 0 2 = 0#2 ∧ (translate s s.pc .fetch = .raise x ∨
      ∃ a, translate s s.pc .fetch = .pa a ∧ s.params.holdsWord a.toNat = false ∧ s.params.unmapped = .raises x)) := by
  unfold fetch
  split
  · next h =>
    refine ⟨fun e => .inl ⟨h, by cases e; rfl⟩, ?_⟩
    rintro (⟨_, rfl⟩ | ⟨h', _⟩)
    · rfl
    · exact absurd h' h
  · next h =>
    simp only [not_not] at h
    simp only [h, ne_eq, not_true_eq_false, false_and, false_or, true_and]
    cases translate s s.pc .fetch with
    | raise x => simp
    | refuse r => simp
    | pa a =>
      simp only [fetchAt, fetchUnmapped, Xlate.pa.injEq, exists_eq_left', reduceCtorEq, false_or]
      cases s.params.holdsWord a.toNat with
      | false => cases s.params.unmapped <;> simp
      | true =>
        cases memRead s.mem a.toNat 4 with
        | none => simp
        | some w => cases h : decodeWord (BitVec.ofNat 32 w) <;> simp [h]

/-- All a step of the core can do (R8). -/
theorem coreStep_next {b : Bool} {s t : State} (h : coreStep b s = .next t) :
    s.level ≠ .illegal ∧
    ((s.idle = true ∧ t = s.waitStep b) ∨
     (s.idle = false ∧ s.takesInterrupt = true ∧ t = s.raise .int) ∨
     (s.idle = false ∧ s.takesInterrupt = false ∧
       ((∃ i, fetch s = .instr i ∧ exec i s = .next t) ∨
        (∃ x, fetch s = .raise x ∧ t = s.takeException x s.pc)))) := by
  unfold coreStep at h
  split at h
  · cases h
  · next hl =>
    refine ⟨hl, ?_⟩
    split at h
    · next hi => cases h; exact .inl ⟨hi, rfl⟩
    · next hi =>
      split at h
      · next ht => cases h; exact .inr (.inl ⟨by simpa using hi, ht, rfl⟩)
      · next ht =>
        refine .inr (.inr ⟨by simpa using hi, by simpa using ht, ?_⟩)
        split at h
        · next i hf => exact .inl ⟨i, hf, h⟩
        · next x hf => cases h; exact .inr ⟨x, hf, rfl⟩
        · cases h
        · cases h

/-! The interrupt bits (R131 to R133), as the statements write them. -/

theorem getLsbD_pending (s : State) (k : Nat) :
    s.pending.getLsbD k = (decide (k < 13 ∧ k ≠ 10) && s.csr.estat.getLsbD k) := by
  unfold State.pending getField interruptLines
  rw [BitVec.getLsbD_and, BitVec.getLsbD_extractLsb', Nat.zero_add]
  by_cases h : k < 13
  · interval_cases k <;> simp
  · simp [h]

theorem pending_ne_zero (s : State) : s.pending ≠ 0#13 ↔ InterruptPending s := by
  constructor
  · intro h
    by_contra hn
    apply h
    apply BitVec.eq_of_getLsbD_eq
    intro k hk
    rw [getLsbD_pending, BitVec.getLsbD_zero]
    by_cases h10 : k = 10
    · simp [h10]
    · have : s.csr.estat.getLsbD k = false := by
        by_contra hb; exact hn ⟨k, hk, h10, by simpa using hb⟩
      simp [this]
  · rintro ⟨k, hk, h10, hb⟩ h
    have := getLsbD_pending s k
    rw [h, BitVec.getLsbD_zero] at this
    simp [hk, h10, hb] at this

theorem intVec_ne_zero (s : State) : s.intVec ≠ 0#13 ↔ InterruptEnabled s := by
  have hb : ∀ k, s.intVec.getLsbD k = (decide (k < 13 ∧ k ≠ 10) && s.csr.estat.getLsbD k && s.csr.ecfg.getLsbD k) := by
    intro k
    unfold State.intVec getField
    rw [BitVec.getLsbD_and, getLsbD_pending, BitVec.getLsbD_extractLsb', Nat.zero_add]
    by_cases h : k < 13 <;> simp [h]
  constructor
  · intro h
    by_contra hn
    apply h
    apply BitVec.eq_of_getLsbD_eq
    intro k hk
    rw [hb, BitVec.getLsbD_zero]
    by_contra hc
    simp only [Bool.not_eq_false, Bool.and_eq_true, decide_eq_true_eq] at hc
    exact hn ⟨k, hc.1.1.1, hc.1.1.2, hc.1.2, hc.2⟩
  · rintro ⟨k, hk, h10, h1, h2⟩ h
    have := hb k
    rw [h, BitVec.getLsbD_zero] at this
    simp [hk, h10, h1, h2] at this

theorem takesInterrupt_iff (s : State) : s.takesInterrupt = true ↔ InterruptDue s := by
  rw [State.takesInterrupt, Bool.and_eq_true, bne_iff_ne, intVec_ne_zero]
  rfl

theorem takesInterrupt_false (s : State) : s.takesInterrupt = false ↔ ¬ InterruptDue s := by
  rw [← takesInterrupt_iff, Bool.not_eq_true]

theorem level_of_legal {s : State} (h : LegalLevel s) : s.level ≠ .illegal := by
  rw [ne_eq, level_illegal]
  rcases h with h | h <;> simp [h]

/-- Where no reset event comes the core makes the step, on the sampled inputs (R131). -/
theorem step_of_coreSteps {s : State} (h : CoreSteps s) : step s = coreStep s.wakes s.sampled := by
  unfold step State.sampled
  split <;> simp_all [CoreSteps]

/-- All a step can do: the reset event, or a step of the core on the sampled inputs. -/
theorem step_next {s t : State} (h : step s = .next t) :
    (∃ env, s.env = .reset :: env ∧ t = { s with env := env }.resetEvent) ∨
    ((∀ env, s.env ≠ .reset :: env) ∧ coreStep s.wakes s.sampled = .next t) := by
  unfold step at h
  split at h
  · next env he => cases h; exact .inl ⟨env, he, rfl⟩
  · next he => exact .inr ⟨by simp [he], h⟩
  · next he => exact .inr ⟨by simp [he], by simpa [State.sampled, he] using h⟩

end Sys2Proof.Machine
end

