-- ==== Sys2Proof/Tests/Slice0.lean ====
section
/-! SUPPORT. The model's own tests: ill-formed terms refused, words of the spec decoded, one step of each
instruction against spec/95_test_vectors.md, and for each obligation with hypotheses a state that meets them. -/

namespace Sys2Proof.Tests

open Sys2Proof Sys2Proof.Machine

/-! WellFormed (R59). -/

theorem test_csrxchg_mask_r0_ill_formed : (Instr.csrxchg 12#5 0#5 0x6#14).wf = false := by decide

theorem test_csrxchg_mask_r1_ill_formed : (Instr.csrxchg 12#5 1#5 0x6#14).wf = false := by decide

/-! Decoding: words written out in spec/95_test_vectors.md 2.1, first the row's bits, then its fields. -/

theorem test_decode_csrrd : -- V-ENC-5
    decodeWord 0b00000100_00000110_00000100_00000100#32 = .ok (.csrrd 4#5 0x181#14) := by rfl
theorem test_decode_csrwr : -- V-ENC-4
    decodeWord 0b00000100_00000000_01100000_00101000#32 = .ok (.csrwr 8#5 0x18#14) := by rfl
theorem test_decode_csrxchg : -- V-ENC-3
    decodeWord 0b00000100_00000000_00011001_10101100#32 = .ok (.csrxchg 12#5 13#5 0x6#14) := by rfl
theorem test_decode_csrxchg_r2 : -- V-DEC-3
    decodeWord 0x04000040#32 = .ok (.csrxchg 0#5 2#5 0x0#14) := by rfl
theorem test_decode_cacop_most_negative : -- V-ENC-8
    decodeWord 0b00000110_00100000_00000000_10010000#32 = .ok (.cacop 0x10#5 4#5 0x800#12) := by rfl
theorem test_decode_tlbsrch : decodeWord 0b00000110_01001000_00101000_00000000#32 = .ok .tlbsrch := by rfl
theorem test_decode_tlbrd : decodeWord 0b00000110_01001000_00101100_00000000#32 = .ok .tlbrd := by rfl
theorem test_decode_tlbwr : decodeWord 0b00000110_01001000_00110000_00000000#32 = .ok .tlbwr := by rfl
theorem test_decode_tlbfill : decodeWord 0b00000110_01001000_00110100_00000000#32 = .ok .tlbfill := by rfl
theorem test_decode_ertn : decodeWord 0b00000110_01001000_00111000_00000000#32 = .ok .ertn := by rfl
theorem test_decode_idle : -- V-ENC-16
    decodeWord 0b00000110_01001000_11111111_11111111#32 = .ok (.idle 32767#15) := by rfl
theorem test_decode_invtlb : -- V-ENC-19
    decodeWord 0b00000110_01001001_10000001_01000100#32 = .ok (.invtlb 0x4#5 10#5 0#5) := by rfl
theorem test_decode_invtlb_undefined_op : -- V-DEC-6
    decodeWord 0x06498007#32 = .ok (.invtlb 7#5 0#5 0#5) := by rfl
theorem test_decode_noopnd_low_bit : -- V-DEC-4
    decodeWord 0x06482801#32 = .error (.outOfScope 0x06482801#32) := by rfl
theorem test_decode_bytes_little_endian : -- V-ENC-2
    decodeBytes [0x2C#8, 0x18#8, 0x00#8, 0x04#8, 0xFF#8] = .ok (.csrwr 12#5 0x6#14, [0xFF#8]) := by rfl
theorem test_decode_table_word : decodeTableWord 32 0x0400182C = some (.csrwr 12#5 0x6#14) := by rfl
theorem test_encode_cacop : encode (.cacop 0x11#5 4#5 0xFF0#12) = 0x063FC091#32 := by rfl -- V-ENC-6

/-! The states the tests start from. -/

/-- The state after reset with CRMD as given, at 0x1C000100. -/
def sAt (crmd : Word) : State :=
  { State.reset with csr := { Csrs.atReset with crmd := crmd }, pc := 0x1C000100#32 }

/-- PLV0, direct address mode: "PLV0" of spec/95_test_vectors.md. -/
def s0 : State := sAt 0x00000008#32

/-- PLV3, direct address mode. -/
def s3 : State := sAt 0x0000000B#32

def withRegs (s : State) (l : List (RegNum × Word)) : State := l.foldl (fun s x => s.writeReg x.1 x.2) s

def withCsrs (s : State) (l : List (Csr × Word)) : State := l.foldl (fun s x => s.putCsr x.1 x.2) s

def withTlb (s : State) (l : List (Nat × TlbEntry)) : State :=
  { s with tlb := l.foldl (fun t x => t.set x.1 x.2) s.tlb }

/-- "Entry A" of spec/95_test_vectors.md 2.3. -/
def entryA : TlbEntry where
  e := true
  asid := 5#10
  g := false
  ps := 12#6
  vppn := 0x00201#19
  page0 := { v := true, d := true, plv := 0#2, mat := 1#2, ppn := 0x01000#24 }
  page1 := { v := true, d := true, plv := 0#2, mat := 1#2, ppn := 0x01001#24 }

/-- The common state of V-CAC-15 to V-CAC-20, with CRMD and the entry at index 3 as given. -/
def mapped (crmd : Word) (e : TlbEntry) : State :=
  withTlb (withCsrs { s0 with pc := 0xA0000040#32 }
    [(.crmd, crmd), (.asid, 0x000A0005#32), (.dmw0, 0xA0000019#32), (.eentry, 0x1C001000#32),
     (.tlbrentry, 0x1C002000#32)]) [(3, e)]

/-- The CSRs of V-TLB-1, with TLBIDX, TLBELO0 and TLBELO1 as given. -/
def tlbCsrs (tlbidx elo0 elo1 : Word) : State :=
  withCsrs s0 [(.tlbehi, 0x00402000#32), (.tlbelo0, elo0), (.tlbelo1, elo1), (.tlbidx, tlbidx), (.asid, 0x000A0005#32)]

/-- The TLB of the INVTLB vectors, with the address register as given. -/
def invState (va : Word) : State :=
  withRegs (withTlb s0
    [(0, { entryA with g := true, asid := 0#10, vppn := 0x00100#19 }), (1, entryA), (2, { entryA with asid := 6#10 }),
     (3, { entryA with ps := 22#6, vppn := 0x00400#19 })]) [(5#5, 5#32), (6#5, va)]

/-- PLV0, direct address mode, one dirty line in the data cache, listed as memory holds it. -/
def cached (crmd : Word) : State :=
  { sAt crmd with
    l1d := [(2, { tag := 0x20#36, valid := true, dirty := true, data := List.replicate 16 0x5A#8 })]
    mem := memWrite (memWrite [] 0x20 8 0x5A5A5A5A5A5A5A5A) 0x28 8 0x5A5A5A5A5A5A5A5A }

/-- The same with a clean line of the level-2 cache over the same addresses. -/
def cachedTwice : State :=
  { cached 8#32 with l2 := [(0, { tag := 0#36, valid := true, dirty := false, data := List.replicate 64 0x33#8 })] }

/-- The state on a platform with another map and fault behaviour. -/
def withMap (s : State) (map : List Region) (rule : UnmappedRule) : State :=
  { s with params := { s.params with memMap := map, unmapped := rule } }

/-- The indices of the entries that are valid. -/
def validAt (s : State) : List Nat := (List.range 16).filter fun i => (s.tlbAt i).e

/-- A view of the state after an outcome. -/
def view {α : Type} (o : Host.Outcome State Fault Refusal) (f : State → α) : Option α := (after o).map f

/-! One step of each instruction: the vectors of spec/95_test_vectors.md. -/

theorem test_csrrd_era : -- V-CSR-1
    view (exec (.csrrd 4#5 0x6#14) (withRegs (withCsrs s0 [(.era, 0x1C000100#32)]) [(4#5, 0xDEADBEEF#32)]))
      (fun t => (t.readReg 4#5, t.csr.era, t.pc)) = some (0x1C000100#32, 0x1C000100#32, 0x1C000104#32) := by decide
theorem test_csrrd_llbctl : -- V-CSR-17
    view (exec (.csrrd 4#5 0x60#14) { withCsrs s0 [(.llbctl, 4#32)] with llbit := true }) (fun t => t.readReg 4#5) =
      some 0x00000005#32 := by decide
theorem test_csrwr_mask : -- V-CSR-12
    view (exec (.csrwr 4#5 0x5#14) (withRegs (withCsrs s0 [(.estat, 0x000E0000#32)]) [(4#5, 0xFFFFFFFF#32)]))
      (fun t => (t.csr.estat, t.readReg 4#5)) = some (0x000E0003#32, 0x000E0000#32) := by decide
theorem test_csrwr_llbctl : -- V-CSR-18
    view (exec (.csrwr 4#5 0x60#14)
        (withRegs { withCsrs s0 [(.llbctl, 4#32)] with llbit := true } [(4#5, 0x00000002#32)]))
      (fun t => (t.llbit, t.csr.klo, t.readReg 4#5)) = some (false, false, 0x00000005#32) := by decide
theorem test_csrxchg_mask : -- V-CSR-5
    view (exec (.csrxchg 12#5 13#5 0x6#14)
        (withRegs (withCsrs s0 [(.era, 0xAAAA5555#32)]) [(12#5, 0x12345678#32), (13#5, 0x0000FFFF#32)]))
      (fun t => (t.csr.era, t.readReg 12#5)) = some (0xAAAA5678#32, 0xAAAA5555#32) := by decide
theorem test_csrxchg_same_register : -- V-CSR-8
    view (exec (.csrxchg 4#5 4#5 0x30#14)
        (withRegs (withCsrs s0 [(.save0, 0x0F0F0F0F#32)]) [(4#5, 0x00FF00FF#32)]))
      (fun t => (t.csr.save0, t.readReg 4#5)) = some (0x0FFF0FFF#32, 0x0F0F0F0F#32) := by decide
theorem test_cacop_hit_refill : -- V-CAC-17
    view (exec (.cacop 0x11#5 4#5 0#12) (withRegs (mapped 0x00000010#32 entryA) [(4#5, 0x00404000#32)]))
      (fun t => (t.csr.crmd, t.csr.era, t.csr.estat, t.csr.badv, t.csr.tlbehi, t.pc)) =
      some (0x00000008#32, 0xA0000040#32, 0x003F0000#32, 0x00404000#32, 0x00404000#32, 0x1C002000#32) := by decide
theorem test_cacop_direct_index : -- V-CAC-4, V-CAC-5, V-CAC-6
    [(wayOf { present := true, way := 1, index := 7, offset := 4 } 0xABD#32,
      lineOf { present := true, way := 1, index := 7, offset := 4 } 0xABD#32),
     (wayOf { present := true, way := 0, index := 8, offset := 5 } 0x1FE0#32,
      lineOf { present := true, way := 0, index := 8, offset := 5 } 0x1FE0#32),
     (wayOf { present := true, way := 2, index := 6, offset := 6 } 0xFC3#32,
      lineOf { present := true, way := 2, index := 6, offset := 6 } 0xFC3#32)] = [(1, 43), (0, 255), (3, 63)] := by decide
theorem test_tlbsrch_hit : -- V-TLB-7
    view (exec .tlbsrch (withTlb (tlbCsrs 0x8C00000F#32 0#32 0#32) [(3, entryA)])) (fun t => t.csr.tlbidx) =
      some 0x0C000003#32 := by decide
theorem test_tlbsrch_miss : -- V-TLB-8
    view (exec .tlbsrch (withCsrs (withTlb (tlbCsrs 0x8C00000F#32 0#32 0#32) [(3, entryA)]) [(.asid, 0x000A0006#32)]))
      (fun t => t.csr.tlbidx) = some 0x8C00000F#32 := by decide
theorem test_tlbrd_valid : -- V-TLB-11
    view (exec .tlbrd (withTlb (withCsrs s0 [(.tlbidx, 3#32)]) [(3, entryA)]))
      (fun t => (t.csr.tlbehi, t.csr.tlbelo0, t.csr.tlbelo1, t.csr.tlbidx, t.csr.asid)) =
      some (0x00402000#32, 0x00100013#32, 0x00100113#32, 0x0C000003#32, 0x000A0005#32) := by decide
theorem test_tlbrd_invalid : -- V-TLB-12
    view (exec .tlbrd (tlbCsrs 0x0C000004#32 0x13#32 0x13#32))
      (fun t => (t.csr.tlbehi, t.csr.tlbelo0, t.csr.tlbelo1, t.csr.tlbidx, t.csr.asid)) =
      some (0#32, 0#32, 0#32, 0x80000004#32, 0x000A0000#32) := by decide
theorem test_tlbwr_entry : -- V-TLB-1
    view (exec .tlbwr (tlbCsrs 0x0C000003#32 0x00100013#32 0x00100113#32)) (fun t => t.tlbAt 3) = some entryA := by decide
theorem test_tlbwr_global_needs_both : -- V-TLB-4
    view (exec .tlbwr (tlbCsrs 0x0C000003#32 0x00100053#32 0x00100113#32)) (fun t => (t.tlbAt 3).g) = some false := by
  decide
theorem test_tlbfill_some_entry : -- V-TLB-6
    view (exec .tlbfill (tlbCsrs 0x0C000003#32 0x00100013#32 0x00100113#32)) (fun t => t.tlb) =
      some ((List.replicate 16 TlbEntry.zero).set (Config.freeTlbIndex 0 % 16) entryA) := by rfl
theorem test_invtlb_asid_va : -- V-INV-6
    view (exec (.invtlb 5#5 5#5 6#5) (invState 0x00402ABC#32)) validAt = some [0, 2, 3] := by decide
theorem test_invtlb_large_page : -- V-INV-10
    view (exec (.invtlb 5#5 5#5 6#5) (invState 0x00C12345#32)) validAt = some [0, 1, 2] := by decide
theorem test_ertn_to_plv3 : -- V-ERTN-1
    view (exec .ertn { withCsrs s0 [(.prmd, 7#32), (.era, 0x00010000#32)] with llbit := true })
      (fun t => (t.csr.crmd, t.pc, t.llbit)) = some (0x0000000F#32, 0x00010000#32, false) := by decide
theorem test_ertn_after_refill : -- V-ERTN-2
    view (exec .ertn (withCsrs s0 [(.prmd, 7#32), (.era, 0x00010000#32), (.estat, 0x003F0000#32)]))
      (fun t => (t.csr.crmd, t.pc)) = some (0x00000017#32, 0x00010000#32) := by decide
theorem test_idle_waits : -- V-IDLE-2
    view (exec (.idle 5#15) s0) (fun t => (t.pc, t.idle)) = some (0x1C000104#32, true) := by decide
theorem test_idle_plv3 : -- V-IDLE-3
    view (exec (.idle 0#15) s3) (fun t => (t.ecode, t.idle)) = some (0xE#6, false) := by decide

/-- A dirty data-cache line goes into the level-2 line that holds its addresses (R85). -/
theorem test_cacop_next_level :
    view (exec (.cacop 0x09#5 0#5 0x20#12) cachedTwice) (fun t =>
      ((t.l1d.at 2).valid, (t.l2.at 0).data[0x1F]?, (t.l2.at 0).data[0x20]?, (t.l2.at 0).data[0x2F]?,
        (t.l2.at 0).data[0x30]?)) =
      some (false, some 0x33#8, some 0x5A#8, some 0x5A#8, some 0x33#8) := by decide

/-- A byte written back to an address without memory is lost; the map stays (R46). -/
theorem test_cacop_outside_the_map :
    view (exec (.cacop 0x09#5 0#5 0x20#12) { cached 8#32 with
        params := { Params.default with l2 := { present := false, way := 0, index := 0, offset := 4 },
                                        memMap := [{ base := 0x28, size := 4 }] }
        mem := [] })
      (fun t => (t.mem, t.params.memMap)) =
      some ([(0x28, 0x5A#8), (0x29, 0x5A#8), (0x2A, 0x5A#8), (0x2B, 0x5A#8)], [{ base := 0x28, size := 4 }]) := by decide
theorem test_idle_leaves_at_once : -- R112: the line is high when IDLE has executed and low at the next sample
    view (step { (withCsrs s0 [(.estat, 4#32)]) with
        idle := true, params := { Params.default with idleWake := .anyPending }
        env := [.lines 0#8 false false] })
      (fun t => (t.idle, t.csr.estat)) = some (false, 0#32) := by decide

/-! Steps (V-EXC). -/

theorem test_step_first_instruction_after_reset : -- V-ENC-2 placed at RESET_PC
    view (step (State.reset.withFetchWord 32 0x04000004)) (fun t => (t.readReg 4#5, t.pc)) =
      some (0x00000008#32, 0x1C000004#32) := by decide
theorem test_step_platform_exception : -- R46: the platform's own fault behaviour
    view (step (withMap s0 [] (.raises .adef))) (fun t => (t.ecode, t.csr.badv, t.csr.era)) =
      some (0x8#6, 0x1C000100#32, 0x1C000100#32) := by decide
theorem test_step_user_mode_trap : -- V-EXC-1
    view (exec (.csrrd 6#5 0x0#14) (withCsrs { s0 with pc := 0x00010000#32 } [(.crmd, 0xF#32), (.eentry, 0x1C001000#32)]))
      (fun t => (t.csr.prmd, t.csr.crmd, t.csr.era, t.csr.estat, t.pc)) =
      some (7#32, 8#32, 0x00010000#32, 0x000E0000#32, 0x1C001000#32) := by decide
theorem test_step_interrupt : -- V-EXC-2
    view (step { withCsrs s0 [(.crmd, 0xC#32), (.ecfg, 4#32), (.eentry, 0x1C001000#32)] with
        env := [.lines 1#8 false false] })
      (fun t => (t.csr.prmd, t.csr.crmd, t.csr.era, t.csr.estat, t.pc)) =
      some (4#32, 8#32, 0x1C000100#32, 4#32, 0x1C001000#32) := by decide
theorem test_step_fetch_refill : -- V-EXC-6
    view (step (withCsrs { s0 with pc := 0x00400000#32 } [(.crmd, 0x10#32), (.tlbrentry, 0x1C002000#32)]))
      (fun t => (t.csr.badv, t.csr.tlbehi, t.csr.era, t.ecode, t.csr.crmd, t.pc)) =
      some (0x00400000#32, 0x00400000#32, 0x00400000#32, 0x3F#6, 8#32, 0x1C002000#32) := by decide

/-! For each obligation with hypotheses, a state and operands that meet them. First: deciding that a
state is legal, and that a search has an answer. -/

/-- The members of the legal-state predicate, as one check. -/
def invCheck (s : State) : Bool :=
  s.params.wf && (decide s.mem.wf && s.mem.all fun x => s.params.holdsMemory x.1) &&
  (modelledCsrs.all fun c => s.readCsr c &&& ~~~liveBits s.params c == wiredBits c) &&
  (s.tlb.length == s.params.tlbEntries) &&
  (s.tlb.all fun e => e.page0.ppn &&& ~~~lowMask 24 (s.params.palen - 12) == 0#24 &&
    e.page1.ppn &&& ~~~lowMask 24 (s.params.palen - 12) == 0#24) &&
  ([CacheId.l1i, .l1d, .l2].all fun c => decide ((s.cache c).Pairwise fun x y => x.1 < y.1) &&
    (s.cache c).all fun x => decide (x.1 < lineCount (s.params.geom c)) &&
      x.2.data.length == 2 ^ (s.params.geom c).offset && lineBase (s.params.geom c) x.2.tag == x.2.tag &&
      toPhys s.params x.2.tag == x.2.tag)

theorem inv_of_check {s : State} (h : invCheck s = true) : s.Inv := by
  simp only [invCheck, Bool.and_eq_true, decide_eq_true_eq, List.all_eq_true, beq_iff_eq] at h
  obtain ⟨⟨⟨⟨⟨h1, h2, h2'⟩, h3⟩, h4⟩, h5⟩, h6⟩ := h
  have hc : ∀ c : CacheId, c ∈ [CacheId.l1i, .l1d, .l2] := by intro c; cases c <;> simp
  exact ⟨h1, h2, h2', fun c => h3 c (by cases c <;> simp [modelledCsrs]), h4, h5, fun c => (h6 c (hc c)).1,
    fun c x hx => ⟨((h6 c (hc c)).2 x hx).1.1.1, ((h6 c (hc c)).2 x hx).1.1.2, ((h6 c (hc c)).2 x hx).1.2,
      ((h6 c (hc c)).2 x hx).2⟩⟩

/-- That no PS stops a search, as one check. -/
def searchCheck (s : State) : Bool := s.tlb.all fun e => !e.e || s.params.psLegal.contains e.ps.toNat

theorem searchable_of_check {s : State} {asid : BitVec 10} (h : searchCheck s = true) : Searchable s asid := by
  intro e he hv _
  simpa [hv] using List.all_eq_true.mp h e he

/-- Entry `i` hits, as one check. -/
theorem hitsAt_of_check {s : State} {va : Word} {asid : BitVec 10} {i : Nat} (h : i < s.tlb.length)
    (hh : tlbHit s.params s.tlb[i] va asid = .ok true) : HitsAt s va asid i :=
  ⟨_, List.getElem?_eq_getElem h, tlbHit_true.mp hh⟩

/-- A state with a page that cannot be accessed, one for every check of R48, and one that two entries hit:
by virtual page number 0x201 valid, 0x202 V = 0, 0x203 PLV = 0 and D = 0, 0x204 twice. -/
def pages (crmd : Word) : State :=
  withTlb (mapped crmd entryA)
    [(4, { entryA with vppn := 0x202#19, page0 := { entryA.page0 with v := false } }),
     (5, { entryA with vppn := 0x203#19, page0 := { entryA.page0 with d := false } }),
     (6, { entryA with vppn := 0x204#19 }), (7, { entryA with vppn := 0x204#19 })]

/-- PLV0, no data cache. -/
def uncached : State :=
  { s0 with params := { Params.default with l1d := { Params.default.l1d with present := false } } }

/-- A state whose TLB holds a valid global entry of a page size that is not legal. -/
def badPs : State := withTlb (mapped 0x00000010#32 entryA) [(4, { entryA with g := true, ps := 13#6 })]

/-- A waiting core with IS[2] pending, for a wake rule, CRMD and ECFG. -/
def waiting (w : WakeRule) (crmd ecfg : Word) : State :=
  { withCsrs s0 [(.crmd, crmd), (.ecfg, ecfg), (.estat, 4#32)] with
    idle := true, params := { Params.default with idleWake := w } }

theorem core_steps {s : State} (h : s.env = []) : CoreSteps s := by simp [CoreSteps, h]

/-! Encoding. -/

theorem test_witness_DecodeEncodeAgree :
    [Instr.csrxchg 0#5 2#5 0x3FFF#14, .csrxchg 31#5 31#5 0#14, .invtlb 31#5 31#5 31#5, .cacop 31#5 31#5 0xFFF#12].all
      Instr.wf = true := by decide
theorem test_witness_EncodeDecodeAgree : decodeWord 0x063FFC00#32 = .ok (.cacop 0#5 0#5 0xFFF#12) := by rfl
theorem test_witness_WordOutOfScopeRefused :
    (0x06482801#32 ∉ [0x06482800#32, 0x06482C00#32, 0x06483000#32, 0x06483400#32, 0x06483800#32] ∧
      0x06482801#32 &&& 0xFFFF8000#32 = 0x06480000#32) ∧
    0x049806C5#32 &&& 0xFF000000#32 = 0x04000000#32 ∧
    ∃ s : State, CoreSteps s ∧ LegalLevel s.sampled ∧ s.sampled.idle = false ∧ ¬ InterruptDue s.sampled ∧
      s.sampled.pc.extractLsb' 0 2 = 0#2 ∧ translate s.sampled s.sampled.pc .fetch = .pa 0x1C000000#36 ∧
      s.sampled.params.holdsWord (0x1C000000#36).toNat = true ∧
      memRead s.sampled.mem (0x1C000000#36).toNat 4 = some (0x06482801#32).toNat ∧
      decodeWord 0x06482801#32 = .error (.outOfScope 0x06482801#32) :=
  ⟨by decide, by decide, State.reset.withFetchWord 32 0x06482801, core_steps rfl, .inl rfl, by decide, by decide,
    by decide, by decide, by decide, by decide, rfl⟩

/-! State, memory and translation. -/

theorem test_witness_RegisterReadAfterWrite : (31#5 : RegNum) ≠ 0#5 ∧ (1#5 : RegNum) ≠ 31#5 := by decide
theorem test_witness_CsrNumbersAndMasks : Csr.dmw1 ≠ Csr.llbctl ∧ 31 < 32 ∧ 0 < 32 := by decide
theorem test_witness_MemoryLittleEndian :
    Memory.wf [] ∧ memRead (memWrite [] 0 4 0x04000004) 0 4 = some 0x04000004 ∧
      fetch (State.reset.withFetchWord 32 0x04000004) = .instr (.csrrd 4#5 0#14) := by decide
theorem test_witness_TranslateByMode :
    (s0.da = true ∧ s0.pg = false) ∧ (sAt 0#32).da = (sAt 0#32).pg ∧ (sAt 0x18#32).da = (sAt 0x18#32).pg := by decide
theorem test_witness_TranslateThroughWindows :
    ∃ (s : State) (va va' : Word), s.da = false ∧ s.pg = true ∧
      (va.extractLsb' 29 3 = s.csr.dmw0.extractLsb' 29 3 ∧ s.plv = 3#2 ∧ s.csr.dmw0.getLsbD 3 = true) ∧
      va'.extractLsb' 29 3 ≠ s.csr.dmw0.extractLsb' 29 3 ∧
      (va'.extractLsb' 29 3 = s.csr.dmw1.extractLsb' 29 3 ∧ s.plv = 3#2 ∧ s.csr.dmw1.getLsbD 3 = true) :=
  ⟨withCsrs (mapped 0x13#32 entryA) [(.dmw1, 0xE0000008#32)], 0xA0000000#32, 0xFFFFFFFF#32, by decide⟩

/-- A miss, two hits, and one hit on each page of R48's checks. -/
theorem test_witness_TranslateThroughEntries :
    ∃ s s' : State, s.Inv ∧ s'.Inv ∧
      (ThroughTlb s 0x0040A000#32 ∧ Searchable s s.asid ∧ ∀ i, ¬ HitsAt s 0x0040A000#32 s.asid i) ∧
      (ThroughTlb s 0x00408000#32 ∧ HitsAt s 0x00408000#32 s.asid 6 ∧ HitsAt s 0x00408000#32 s.asid 7) ∧
      (HitsAt s 0x00404000#32 s.asid 4 ∧ (∀ j, HitsAt s 0x00404000#32 s.asid j → j = 4) ∧
        (s.tlbAt 4).page0.v = false) ∧
      (HitsAt s 0x00402000#32 s.asid 3 ∧ (∀ j, HitsAt s 0x00402000#32 s.asid j → j = 3) ∧
        (s.tlbAt 3).page0.v = true ∧ (s.tlbAt 3).page0.plv.toNat < s.plv.toNat) ∧
      (HitsAt s' 0x00406000#32 s'.asid 5 ∧ (∀ j, HitsAt s' 0x00406000#32 s'.asid j → j = 5) ∧
        (s'.tlbAt 5).page0.d = false ∧ s'.plv.toNat ≤ (s'.tlbAt 5).page0.plv.toNat) ∧
      (HitsAt s' 0x00402FFF#32 s'.asid 3 ∧ (∀ j, HitsAt s' 0x00402FFF#32 s'.asid j → j = 3) ∧
        (s'.tlbAt 3).page0.d = true ∧ s'.plv.toNat ≤ (s'.tlbAt 3).page0.plv.toNat) :=
  have hits : ∀ {s : State} {va : Word} {i : Nat}, s.tlbLookup va s.asid = .hit i →
      HitsAt s va s.asid i ∧ ∀ j, HitsAt s va s.asid j → j = i := fun h => tlbLookup_hit h
  ⟨pages 0x13#32, pages 0x10#32, inv_of_check (by decide), inv_of_check (by decide),
    ⟨⟨by decide, by decide, by decide, by decide⟩, searchable_of_check (by decide), tlbLookup_miss (by decide)⟩,
    ⟨⟨by decide, by decide, by decide, by decide⟩, hitsAt_of_check (by decide) (by decide), hitsAt_of_check (by decide) (by decide)⟩,
    ⟨(hits (by decide)).1, (hits (by decide)).2, by decide⟩,
    ⟨(hits (by decide)).1, (hits (by decide)).2, by decide⟩,
    ⟨(hits (by decide)).1, (hits (by decide)).2, by decide⟩,
    ⟨(hits (by decide)).1, (hits (by decide)).2, by decide⟩⟩

theorem test_witness_TranslationExceptions :
    [translate (pages 0x13#32) 0x0040A000#32 .load, translate (pages 0x13#32) 0x00404000#32 .fetch,
     translate (pages 0x13#32) 0x00404000#32 .load, translate (pages 0x13#32) 0x00404000#32 .store,
     translate (pages 0x13#32) 0x00402000#32 .load, translate (pages 0x10#32) 0x00406000#32 .store] =
    [.raise .tlbr, .raise .pif, .raise .pil, .raise .pis, .raise .ppi, .raise .pme] := by decide
theorem test_witness_IllegalPageSizeStops :
    ∃ (s s' : State) (e e' : TlbEntry), (e ∈ s.tlb ∧ e.e = true ∧ e.ps.toNat ∉ s.params.psLegal ∧ e.g = true) ∧
      ThroughTlb s 0x00400000#32 ∧ s.plv = 0#2 ∧ (s.readReg 0#5).extractLsb' 10 22 = 0#22 ∧
      (e' ∈ s'.tlb ∧ e'.e = true ∧ e'.ps.toNat ∉ s'.params.psLegal ∧ e'.g = false ∧
        e'.asid = (s'.readReg 0#5).extractLsb' 0 10 ∧ e'.asid = s'.asid ∧ s'.plv = 0#2) :=
  ⟨badPs, withTlb s0 [(15, { entryA with asid := 0#10, ps := 63#6 })], { entryA with g := true, ps := 13#6 },
    { entryA with asid := 0#10, ps := 63#6 }, by decide, ⟨by decide, by decide, by decide, by decide⟩, by decide⟩
theorem test_witness_InstructionsIgnoreMemory :
    (∃ t, exec .ertn s0 = .next t) ∧ exec (.cacop 3#5 0#5 0#12) s0 = .refused (.unnamedCache 3#5) :=
  ⟨⟨_, rfl⟩, rfl⟩

/-! CSR access. -/

/-- The four cases of R70, R71 and R72: PLV3, the first and the last CSR number, a number that names no
CSR, and one the spec does not model. -/
theorem test_witness_CsrrdReads :
    s3.plv = 3#2 ∧ s0.plv = 0#2 ∧ 0x0#14 = Csr.num .crmd ∧ 0x181#14 = Csr.num .dmw1 ∧
      (0x60#14 = Csr.num .llbctl ∧ 12#5 ≠ 0#5 ∧ 31 < 32) ∧ (∀ c, 0x3FFF#14 ≠ Csr.num c) ∧ 0x3FFF#14 ∉ unmodelledNums ∧ 0x2#14 ∈ unmodelledNums :=
  ⟨by decide, by decide, by decide, by decide, by decide, by intro c; cases c <;> decide, by decide, by decide⟩
theorem test_witness_CsrwrSwaps :
    s3.plv = 3#2 ∧ s0.plv = 0#2 ∧ Csr.crmd ≠ .llbctl ∧ 0x60#14 = Csr.num .llbctl ∧ (∀ c, 0x3#14 ≠ Csr.num c) ∧
      0x3#14 ∉ unmodelledNums ∧ 0x98#14 ∈ unmodelledNums :=
  ⟨by decide, by decide, by decide, by decide, by intro c; cases c <;> decide, by decide, by decide⟩
theorem test_witness_CsrxchgExchangesUnderMask :
    s3.plv = 3#2 ∧ s0.plv = 0#2 ∧ Csr.dmw1 ≠ .llbctl ∧ 0x60#14 = Csr.num .llbctl ∧ (∀ c, 0x182#14 ≠ Csr.num c) ∧
      0x182#14 ∉ unmodelledNums ∧ 0x41#14 ∈ unmodelledNums :=
  ⟨by decide, by decide, by decide, by decide, by intro c; cases c <;> decide, by decide, by decide⟩
theorem test_witness_CrmdWriteActsOnNextInstruction :
    (withRegs s0 [(4#5, 0xB#32)]).plv = 0#2 ∧ ((withRegs s0 [(4#5, 0xB#32)]).readReg 4#5).extractLsb' 0 2 = 3#2 := by
  decide

/-! Cache maintenance. -/

theorem test_witness_CacopAddress : ∃ t, exec (.cacop 0#5 0#5 0x800#12) s0 = .next t := ⟨_, rfl⟩
theorem test_witness_CacopStoreTag :
    s0.plv = 0#2 ∧ uncached.plv = 0#2 ∧ (0x01#5).extractLsb' 3 2 = 0#2 ∧ (0x01#5).extractLsb' 0 3 = 1#3 ∧
      (s0.params.geom .l1d).present = true ∧ (uncached.params.geom .l1d).present = false := by decide
theorem test_witness_CacopIndexInvalidate :
    (cached 8#32).Inv ∧ uncached.Inv ∧ (cached 8#32).plv = 0#2 ∧ uncached.plv = 0#2 ∧ (0x09#5).extractLsb' 3 2 = 1#2 ∧
      (0x09#5).extractLsb' 0 3 = 1#3 ∧ ((cached 8#32).params.geom .l1d).present = true ∧
      (uncached.params.geom .l1d).present = false ∧ cachedTwice.Inv ∧ cachedTwice.plv = 0#2 ∧
      (cachedTwice.params.geom .l2).present = true :=
  ⟨inv_of_check (by decide), inv_of_check (by decide), by decide, by decide, by decide, by decide, by decide, by decide,
    inv_of_check (by decide), by decide, by decide⟩

/-- A translation that raises, one that is refused, a hit at PLV3, a miss, and no cache. -/
theorem test_witness_CacopHitInvalidate :
    ((pages 0x13#32).Inv ∧ LegalLevel (pages 0x13#32) ∧ (pages 0x13#32).plv = 3#2 ∧
      translate (pages 0x13#32) (cacopVa (pages 0x13#32) 0#5 0#12) .load = .raise .tlbr) ∧
    ((sAt 0#32).Inv ∧ LegalLevel (sAt 0#32) ∧
      translate (sAt 0#32) (cacopVa (sAt 0#32) 0#5 0#12) .load = .refuse .translationMode) ∧
    ((cached 0xB#32).Inv ∧ LegalLevel (cached 0xB#32) ∧
      translate (cached 0xB#32) (cacopVa (cached 0xB#32) 0#5 0x2F#12) .load = .pa 0x2F#36 ∧
      ((cached 0xB#32).cache .l1d).findLine (lineBase ((cached 0xB#32).params.geom .l1d) 0x2F#36) = some 2) ∧
    (translate (cached 0xB#32) (cacopVa (cached 0xB#32) 0#5 0x30#12) .load = .pa 0x30#36 ∧
      ((cached 0xB#32).cache .l1d).findLine (lineBase ((cached 0xB#32).params.geom .l1d) 0x30#36) = none) ∧
    (uncached.Inv ∧ (uncached.params.geom .l1d).present = false) ∧
    (0x11#5).extractLsb' 3 2 = 2#2 ∧ (0x11#5).extractLsb' 0 3 = 1#3 :=
  ⟨⟨inv_of_check (by decide), .inr (by decide), by decide, by decide⟩,
    ⟨inv_of_check (by decide), .inl (by decide), by decide⟩,
    ⟨inv_of_check (by decide), .inr (by decide), by decide, by decide⟩, ⟨by decide, by decide⟩,
    ⟨inv_of_check (by decide), by decide⟩, by decide⟩

theorem test_witness_CoherentCachesAreTransparent :
    (0x11#5).extractLsb' 3 2 ≠ 3#2 ∧ (cached 8#32).Inv ∧ CachesCoherent (cached 8#32) ∧ (∃ t, exec (.cacop 0x11#5 0#5 0x2F#12) (cached 8#32) = .next t) ∧
      (∀ c, s0.cache c = []) ∧ s0.Inv ∧ ∃ t, exec (.cacop 0x11#5 0#5 0x2F#12) s0 = .next t := by
  refine ⟨by decide, inv_of_check (by decide), ?_, ⟨_, rfl⟩, fun c => by cases c <;> rfl, inv_of_check (by decide), ⟨_, rfl⟩⟩
  intro c x hx _ k hk
  cases c with
  | l1i => cases hx
  | l2 => cases hx
  | l1d =>
    cases List.mem_singleton.mp hx
    have hk : k < 16 := hk
    interval_cases k <;> rfl
theorem test_witness_CacopStops :
    (3 ≤ ((0x03#5).extractLsb' 0 3).toNat ∧ s0.plv = 0#2) ∧
    (3 ≤ ((0x17#5).extractLsb' 0 3).toNat ∧ s3.plv = 3#2 ∧ (0x17#5).extractLsb' 3 2 = 2#2) ∧
    (((0x1A#5).extractLsb' 0 3).toNat < 3 ∧ (0x1A#5).extractLsb' 3 2 = 3#2 ∧ s0.params.cacopCustom = .refused) := by
  decide
theorem test_witness_CacopExceptions :
    (∃ t, exec (.cacop 0x11#5 0#5 0#12) s0 = .next t) ∧ exec (.cacop 0x09#5 0#5 0#12) s3 = .next (s3.raise .ipe) :=
  ⟨⟨_, rfl⟩, rfl⟩

/-! TLB maintenance. -/

/-- PLV3, a miss, one hit at the last index, two hits. -/
theorem test_witness_TlbsrchFinds :
    (s3.Inv ∧ s3.plv = 3#2) ∧
    (∃ s : State, s.Inv ∧ s.plv = 0#2 ∧ Searchable s s.asid ∧ ∀ i, ¬ HitsAt s 0#32 s.asid i) ∧
    (∃ s : State, s.Inv ∧ s.plv = 0#2 ∧ Searchable s s.asid ∧ HitsAt s 0#32 s.asid 15 ∧
      ∀ j, HitsAt s 0#32 s.asid j → j = 15) ∧
    (∃ s : State, s.Inv ∧ s.plv = 0#2 ∧ Searchable s s.asid ∧ HitsAt s 0#32 s.asid 0 ∧ HitsAt s 0#32 s.asid 15) := by
  have h : ∀ {s : State}, s.tlbLookup 0#32 s.asid = .hit 15 → HitsAt s 0#32 s.asid 15 ∧ ∀ j, HitsAt s 0#32 s.asid j → j = 15 :=
    fun h => tlbLookup_hit h
  refine ⟨⟨inv_of_check (by decide), by decide⟩,
    ⟨s0, inv_of_check (by decide), by decide, searchable_of_check (by decide), tlbLookup_miss (by decide)⟩,
    ⟨withTlb s0 [(15, { entryA with asid := 0#10, vppn := 0#19 })], inv_of_check (by decide), by decide,
      searchable_of_check (by decide), h (by decide)⟩,
    ⟨withTlb s0 [(0, { entryA with g := true, vppn := 0#19 }), (15, { entryA with g := true, vppn := 0#19 })],
      inv_of_check (by decide), by decide, searchable_of_check (by decide), hitsAt_of_check (by decide) (by decide), hitsAt_of_check (by decide) (by decide)⟩⟩
theorem test_witness_TlbrdReads :
    s3.plv = 3#2 ∧ s3.tlb[s3.tlbIndex]? = some TlbEntry.zero ∧ TlbEntry.zero.e = false ∧
      (withTlb (withCsrs s0 [(.tlbidx, 15#32)]) [(15, entryA)]).tlb[15]? = some entryA ∧
      (withTlb (withCsrs s0 [(.tlbidx, 15#32)]) [(15, entryA)]).tlbIndex = 15 ∧
      (withTlb (withCsrs s0 [(.tlbidx, 15#32)]) [(15, entryA)]).plv = 0#2 ∧ entryA.e = true := by decide
theorem test_witness_EloWordPacks :
    Params.default.wf = true ∧ { Params.default with palen := 36 }.wf = true ∧ { Params.default with palen := 13 }.wf = true ∧
      entryA.page0.ppn &&& ~~~lowMask 24 (Params.default.palen - 12) = 0#24 := by decide
theorem test_witness_TlbwrWrites :
    (s3.Inv ∧ s3.plv = 3#2) ∧ (s0.Inv ∧ s0.plv = 0#2 ∧ s0.ecode ≠ 0x3F#6) ∧
      (withCsrs s0 [(.estat, 0x003F0000#32)]).Inv ∧ (withCsrs s0 [(.estat, 0x003F0000#32)]).ecode = 0x3F#6 ∧
      (withCsrs s0 [(.estat, 0x003F0000#32)]).plv = 0#2 :=
  ⟨⟨inv_of_check (by decide), by decide⟩, ⟨inv_of_check (by decide), by decide⟩, inv_of_check (by decide), by decide⟩
theorem test_witness_TlbfillWritesSomeEntry :
    (s3.Inv ∧ s3.plv = 3#2) ∧ s0.Inv ∧ s0.plv = 0#2 ∧ ∃ u, exec .tlbwr s0 = .next u :=
  ⟨⟨inv_of_check (by decide), by decide⟩, inv_of_check (by decide), by decide, ⟨_, rfl⟩⟩
theorem test_witness_TlbrdAfterTlbwr :
    ∃ s t u : State, s.Inv ∧ s.plv = 0#2 ∧ s.ne = false ∧ exec .tlbwr s = .next t ∧ exec .tlbrd t = .next u :=
  ⟨tlbCsrs 0x0C000003#32 0x00100053#32 0x00100113#32, _, _, inv_of_check (by decide), by decide, by decide, rfl, rfl⟩
theorem test_witness_TlbsrchAfterTlbwr :
    ∃ s t : State, s.Inv ∧ s.plv = 0#2 ∧ s.ecode = 0x3F#6 ∧ s.tlbPs.toNat ∈ s.params.psLegal ∧
      (∀ j e, j ≠ s.tlbIndex → s.tlb[j]? = some e →
        ¬ EntryHits s.params e (s.csr.tlbehi.extractLsb' 13 19 ++ 0#13 : BitVec 32) s.asid ∧
        (e.e = true → e.g = true ∨ e.asid = s.asid → e.ps.toNat ∈ s.params.psLegal)) ∧
      exec .tlbwr s = .next t := by
  refine ⟨withCsrs (tlbCsrs 0x8C000003#32 0x00100013#32 0x00100113#32) [(.estat, 0x003F0000#32)], _,
    inv_of_check (by decide), by decide, by decide, by decide, ?_, rfl⟩
  intro j e _ he
  have : e = TlbEntry.zero := List.eq_of_mem_replicate (n := 16) (List.mem_of_getElem? he)
  subst this
  exact ⟨fun h => Bool.noConfusion h.valid, fun h => Bool.noConfusion h⟩
theorem test_witness_InvtlbClears :
    (invState 0#32).plv = 0#2 ∧ (0#5).toNat ≤ 6 ∧ (6#5).toNat ≤ 6 ∧ ((invState 0#32).readReg 5#5).extractLsb' 10 22 = 0#22 ∧
      ∀ e ∈ (invState 0#32).tlb, e.e = true → e.ps.toNat ∈ (invState 0#32).params.psLegal := by decide
theorem test_witness_InvtlbOperands :
    (3#5).toNat ≤ 3 ∧ (4#5).toNat = 4 ∧ 4 ≤ (6#5).toNat ∧ (6#5).toNat ≤ 6 ∧
      (withRegs s0 [(5#5, 0x405#32)]).plv = 0#2 ∧ ((withRegs s0 [(5#5, 0x405#32)]).readReg 5#5).extractLsb' 10 22 ≠ 0#22 := by
  decide
theorem test_witness_UndefinedInvtlbOp : 7 ≤ (7#5).toNat ∧ 7 ≤ (31#5).toNat ∧ s0.plv = 0#2 ∧ s3.plv = 3#2 := by decide

/-! ERTN and IDLE. -/

theorem test_witness_ErtnReturns :
    s3.plv = 3#2 ∧ (s0.plv = 0#2 ∧ s0.ecode ≠ 0x3F#6 ∧ s0.csr.klo = false) ∧
      (withCsrs s0 [(.estat, 0x003F0000#32), (.llbctl, 4#32)]).ecode = 0x3F#6 ∧
      (withCsrs s0 [(.estat, 0x003F0000#32), (.llbctl, 4#32)]).plv = 0#2 ∧
      (withCsrs s0 [(.estat, 0x003F0000#32), (.llbctl, 4#32)]).csr.klo = true := by decide
theorem test_witness_SecondErtnClearsLink : s0.plv = 0#2 ∧ s0.pplv = 0#2 ∧ ∃ t, exec .ertn s0 = .next t :=
  ⟨by decide, by decide, _, rfl⟩
theorem test_witness_IdleWaits : s0.plv = 0#2 ∧ s3.plv = 3#2 := by decide
/-- For each wake rule a core that an interrupt about to be taken wakes, one with nothing pending, one
whose pending line is not enabled, and one whose line goes low at the next sample; and an IDLE with that line. -/
theorem test_witness_WaitingCoreWakes :
    (∀ w : WakeRule, ∃ s1 s2 s3 s4 : State,
      (CoreSteps s1 ∧ LegalLevel s1.sampled ∧ s1.sampled.idle = true ∧ s1.sampled.params.idleWake = w ∧
        InterruptDue s1.sampled) ∧
      (CoreSteps s2 ∧ LegalLevel s2.sampled ∧ s2.sampled.idle = true ∧ s2.sampled.params.idleWake = w ∧
        ¬ InterruptPending s2 ∧ ¬ InterruptPending s2.sampled) ∧
      (CoreSteps s3 ∧ LegalLevel s3.sampled ∧ s3.sampled.idle = true ∧ s3.sampled.params.idleWake = w ∧
        InterruptPending s3.sampled ∧ ¬ InterruptEnabled s3 ∧ ¬ InterruptEnabled s3.sampled) ∧
      (CoreSteps s4 ∧ LegalLevel s4.sampled ∧ s4.sampled.idle = true ∧ s4.sampled.params.idleWake = w ∧
        InterruptDue s4 ∧ ¬ InterruptPending s4.sampled)) ∧
    ∃ s t : State, s.plv = 0#2 ∧ exec (.idle 0#15) s = .next t ∧ CoreSteps t ∧ s.params.idleWake = .anyPending ∧
      InterruptPending s ∧ ¬ InterruptDue s ∧ ¬ InterruptPending t.sampled := by
  refine ⟨?_, { waiting .anyPending 8#32 4#32 with idle := false, env := [.lines 0#8 false false] }, _, by decide, rfl,
    by simp [CoreSteps, State.advance], by decide, by decide, by decide, by decide⟩
  intro w
  refine ⟨waiting w 0xC#32 4#32, withCsrs (waiting w 0xC#32 4#32) [(.estat, 0#32)], waiting w 0xC#32 8#32,
    { waiting w 0xC#32 4#32 with env := [.lines 0#8 false false] },
    ⟨core_steps rfl, .inl ?_, ?_, ?_, ?_⟩, ⟨core_steps rfl, .inl ?_, ?_, ?_, ?_, ?_⟩,
    ⟨core_steps rfl, .inl ?_, ?_, ?_, ?_, ?_, ?_⟩, ⟨by simp [CoreSteps], .inl ?_, ?_, ?_, ?_, ?_⟩⟩ <;>
    cases w <;> decide

/-! Privilege, exceptions, interrupts. -/

theorem test_witness_UserModeRaisesIpe :
    s3.plv = 3#2 ∧ (0x18#5).extractLsb' 3 2 ≠ 2#2 ∧ (6#5).toNat ≤ 6 := by decide
theorem test_witness_IllegalLevelRefused :
    (CoreSteps (sAt 9#32) ∧ (sAt 9#32).sampled.plv = 1#2) ∧ CoreSteps (sAt 0xA#32) ∧ (sAt 0xA#32).sampled.plv = 2#2 :=
  ⟨⟨core_steps rfl, by decide⟩, core_steps rfl, by decide⟩
theorem test_witness_OnlyTrapOrResetLeavesPlv3 :
    (∃ t, s3.plv = 3#2 ∧ step (s3.withFetchWord 32 0x06483800) = .next t ∧ t.plv ≠ 3#2) ∧
    ∃ t, step { s3 with env := [.reset] } = .next t ∧ t.plv ≠ 3#2 :=
  ⟨⟨(s3.withFetchWord 32 0x06483800).raise .ipe, by decide, rfl, by decide⟩,
    ⟨_, rfl, by simp [State.plv, State.csrsAfterReset, getField]⟩⟩

/-- A step that traps, and one that stays at PLV3 (V-CAC-7). -/
theorem test_witness_UserModeKeepsPrivilegedState :
    (s3.plv = 3#2 ∧ CoreSteps (s3.withFetchWord 32 0x06483800)) ∧
    (∃ t, step (s3.withFetchWord 32 0x06483800) = .next t) ∧
    ∃ t, step (s3.withFetchWord 32 0x06000091) = .next t ∧ t.plv = 3#2 :=
  ⟨⟨by decide, core_steps rfl⟩, ⟨(s3.withFetchWord 32 0x06483800).raise .ipe, rfl⟩,
    ⟨(s3.withFetchWord 32 0x06000091).advance, rfl, by decide⟩⟩
/-- A fetch whose page is not valid, one whose page is of a lower level, and one in no translation mode. -/
theorem test_witness_TrapEntryWrites_fetch :
    ∃ s s' s'' : State,
      (CoreSteps s ∧ LegalLevel s.sampled ∧ s.sampled.idle = false ∧ ¬ InterruptDue s.sampled ∧
        s.sampled.pc.extractLsb' 0 2 = 0#2 ∧ translate s.sampled s.sampled.pc .fetch = .raise .pif) ∧
      (CoreSteps s' ∧ LegalLevel s'.sampled ∧ s'.sampled.idle = false ∧ ¬ InterruptDue s'.sampled ∧
        s'.sampled.pc.extractLsb' 0 2 = 0#2 ∧ translate s'.sampled s'.sampled.pc .fetch = .raise .ppi) ∧
      (CoreSteps s'' ∧ LegalLevel s''.sampled ∧ s''.sampled.idle = false ∧ ¬ InterruptDue s''.sampled ∧
        s''.sampled.pc.extractLsb' 0 2 = 0#2 ∧
        translate s''.sampled s''.sampled.pc .fetch = .refuse .translationMode) :=
  ⟨{ pages 0x13#32 with pc := 0x00404000#32 }, { pages 0x13#32 with pc := 0x00402000#32 }, sAt 0#32,
    ⟨core_steps rfl, .inr (by decide), by decide, by decide, by decide, by decide⟩,
    ⟨core_steps rfl, .inr (by decide), by decide, by decide, by decide, by decide⟩,
    ⟨core_steps rfl, .inl (by decide), by decide, by decide, by decide, by decide⟩⟩
theorem test_witness_TrapEntryWrites :
    Exc.ale ∈ [Exc.tlbr, .pil, .pis, .pif, .pme, .ppi, .adef, .adem, .ale] ∧
      Exc.ale ∉ [Exc.tlbr, .pil, .pis, .pif, .pme, .ppi] ∧
      Exc.int ∉ [Exc.tlbr, .pil, .pis, .pif, .pme, .ppi, .adef, .adem, .ale] ∧
      Exc.pme ∈ [Exc.tlbr, .pil, .pis, .pif, .pme, .ppi] ∧ Exc.pme ≠ .tlbr := by decide
theorem test_witness_ErtnInvertsTrapEntry :
    (mapped 0x17#32 entryA).da = false ∧ (mapped 0x17#32 entryA).pg = true ∧ Exc.ipe ≠ .tlbr := by decide
/-- The lowest and the highest line. -/
theorem test_witness_InterruptTakenFirst :
    ∃ s s' : State,
      (CoreSteps s ∧ LegalLevel s.sampled ∧ s.sampled.idle = false ∧ s.sampled.csr.crmd.getLsbD 2 = true ∧
        s.sampled.csr.estat.getLsbD 12 = true ∧ s.sampled.csr.ecfg.getLsbD 12 = true) ∧
      (CoreSteps s' ∧ LegalLevel s'.sampled ∧ s'.sampled.idle = false ∧ s'.sampled.csr.crmd.getLsbD 2 = true ∧
        s'.sampled.csr.estat.getLsbD 0 = true ∧ s'.sampled.csr.ecfg.getLsbD 0 = true) :=
  ⟨{ withCsrs s0 [(.crmd, 0xF#32), (.ecfg, 0x1000#32)] with env := [.lines 0#8 false true] },
    withCsrs s0 [(.crmd, 0xC#32), (.ecfg, 1#32), (.estat, 1#32)],
    ⟨by simp [CoreSteps], .inr (by decide), by decide, by decide, by decide, by decide⟩,
    ⟨core_steps rfl, .inl (by decide), by decide, by decide, by decide, by decide⟩⟩
theorem test_witness_MisalignedPcRaisesAdef :
    ∃ s u : State, CoreSteps s ∧ u = s.sampled ∧ LegalLevel u ∧ u.idle = false ∧ ¬ InterruptDue u ∧
      u.pc.extractLsb' 0 2 ≠ 0#2 :=
  ⟨{ s0 with pc := 0x1C000202#32 }, _, core_steps rfl, rfl, .inl (by decide), by decide, by decide, by decide⟩
theorem test_witness_FetchMissRaisesRefill :
    ∃ s u : State, CoreSteps s ∧ u = s.sampled ∧ LegalLevel u ∧ u.idle = false ∧ ¬ InterruptDue u ∧
      u.pc.extractLsb' 0 2 = 0#2 ∧ ThroughTlb u u.pc ∧ Searchable u u.asid ∧ ∀ i, ¬ HitsAt u u.pc u.asid i :=
  ⟨{ mapped 0x13#32 entryA with pc := 0x00404000#32 }, _, core_steps rfl, rfl, .inr (by decide), by decide, by decide,
    by decide, ⟨by decide, by decide, by decide, by decide⟩, searchable_of_check (by decide), tlbLookup_miss (by decide)⟩

/-! The step, reset and the legal states. -/

/-- With IE = 0 and a line pending and enabled, and with IE = 1 and none enabled. -/
theorem test_witness_StepRunsDecodedInstruction :
    ∃ s s' : State,
      (CoreSteps s ∧ LegalLevel s.sampled ∧ s.sampled.idle = false ∧ s.sampled.csr.crmd.getLsbD 2 = false ∧
        InterruptEnabled s.sampled ∧ s.sampled.pc.extractLsb' 0 2 = 0#2 ∧
        translate s.sampled s.sampled.pc .fetch = .pa 0x40#36 ∧
        s.sampled.params.holdsWord (0x40#36).toNat = true ∧ memRead s.sampled.mem (0x40#36).toNat 4 = some 0x06482C00) ∧
      (CoreSteps s' ∧ LegalLevel s'.sampled ∧ s'.sampled.idle = false ∧ s'.sampled.csr.crmd.getLsbD 2 = true ∧
        (∀ k, k < 13 → k ≠ 10 → s'.sampled.csr.estat.getLsbD k = false ∨ s'.sampled.csr.ecfg.getLsbD k = false) ∧
        s'.sampled.pc.extractLsb' 0 2 = 0#2 ∧ translate s'.sampled s'.sampled.pc .fetch = .pa 0x40#36 ∧
        s'.sampled.params.holdsWord (0x40#36).toNat = true ∧ memRead s'.sampled.mem (0x40#36).toNat 4 = some 0x06482C00) ∧
      decodeWord (BitVec.ofNat 32 0x06482C00) = .ok .tlbrd :=
  ⟨(withCsrs (mapped 0x10#32 entryA) [(.ecfg, 1#32), (.estat, 1#32)]).withFetchWord 32 0x06482C00,
    (withCsrs (mapped 0x14#32 entryA) [(.ecfg, 2#32), (.estat, 1#32)]).withFetchWord 32 0x06482C00,
    ⟨core_steps rfl, .inl (by decide), by decide, by decide, by decide, by decide, by decide, by decide, by decide⟩,
    ⟨core_steps rfl, .inl (by decide), by decide, by decide, by decide, by decide, by decide, by decide, by decide⟩, rfl⟩
/-- A platform that says nothing, one that raises an exception, each with memory that ends within the word;
and memory whose bytes are not known. -/
theorem test_witness_FetchWithoutMemoryFaults :
    ∃ s1 s2 s3 : State,
      (CoreSteps s1 ∧ LegalLevel s1.sampled ∧ s1.sampled.idle = false ∧ ¬ InterruptDue s1.sampled ∧
        s1.sampled.pc.extractLsb' 0 2 = 0#2 ∧ translate s1.sampled s1.sampled.pc .fetch = .pa 0x1C000100#36 ∧
        s1.sampled.params.holdsMemory ((0x1C000100#36).toNat + 3) = false ∧ s1.sampled.params.unmapped = .stop) ∧
      (CoreSteps s2 ∧ LegalLevel s2.sampled ∧ s2.sampled.idle = false ∧ ¬ InterruptDue s2.sampled ∧
        s2.sampled.pc.extractLsb' 0 2 = 0#2 ∧ translate s2.sampled s2.sampled.pc .fetch = .pa 0x1C000100#36 ∧
        s2.sampled.params.holdsMemory ((0x1C000100#36).toNat + 3) = false ∧
        s2.sampled.params.unmapped = .raises .adef) ∧
      (CoreSteps s3 ∧ LegalLevel s3.sampled ∧ s3.sampled.idle = false ∧ ¬ InterruptDue s3.sampled ∧
        s3.sampled.pc.extractLsb' 0 2 = 0#2 ∧ translate s3.sampled s3.sampled.pc .fetch = .pa 0x1C000100#36 ∧
        (∀ k, k < 4 → s3.sampled.params.holdsMemory ((0x1C000100#36).toNat + k) = true) ∧
        memRead s3.sampled.mem (0x1C000100#36).toNat 4 = none) :=
  ⟨withMap s0 [{ base := 0, size := 0x1C000103 }] .stop, withMap s0 [{ base := 0, size := 0x1C000103 }] (.raises .adef), s0,
    ⟨core_steps rfl, .inl (by decide), by decide, by decide, by decide, by decide, by decide, by decide⟩,
    ⟨core_steps rfl, .inl (by decide), by decide, by decide, by decide, by decide, by decide, by decide⟩,
    ⟨core_steps rfl, .inl (by decide), by decide, by decide, by decide, by decide, by decide, by decide⟩⟩
theorem test_witness_ResetModeAndMasks : State.reset = State.resetWith Params.default [] := rfl
theorem test_witness_ResetEventRestarts : ({ waiting .taken 0xF#32 0#32 with env := [.reset] } : State).env = .reset :: [] := rfl
theorem test_witness_ResetStateIsLegal :
    Params.default.wf = true ∧ { Params.default with palen := 13, tlbIdxLen := 1, psLegal := [30] }.wf = true ∧
      { Params.default with palen := 36, tlbIdxLen := 16, psLegal := [] }.wf = true ∧
      Memory.wf [(0, 0x5A#8), (0xFFFFFFFF, 0xA5#8)] ∧
      ∀ x ∈ ([(0, 0x5A#8), (0xFFFFFFFF, 0xA5#8)] : Memory), Params.default.holdsMemory x.1 = true := by decide
theorem test_witness_StepKeepsLegalStates :
    ∃ s t : State, s.Inv ∧ step s = .next t :=
  ⟨s0.withFetchWord 32 0x06482C00, _, inv_of_check (by decide), rfl⟩
theorem test_witness_StepKeepsParametersTakesOneEvent :
    ∃ s t : State, s.env = [.lines 0#8 false false, .reset] ∧ step s = .next t :=
  ⟨{ s3.withFetchWord 32 0x06483800 with env := [.lines 0#8 false false, .reset] }, _, rfl, rfl⟩

/-! What the environment brings, and the caches beyond one CACOP. -/

theorem test_witness_InterruptInputsSampled :
    ∃ s s' s'' : State, (s.env = .lines 0x81#8 true false :: [] ∧ s.idle = false) ∧
      s'.env = .lines 0#8 false true :: [.reset] ∧ ∀ hwi ti ipi env, s''.env ≠ .lines hwi ti ipi :: env :=
  ⟨{ s0 with env := [.lines 0x81#8 true false] }, { s0 with env := [.lines 0#8 false true, .reset] },
    { s0 with env := [.reset] }, ⟨rfl, rfl⟩, rfl, by simp⟩
/-- PLV0 with the cache present and absent, and PLV3. -/
theorem test_witness_CacopCustomOperation :
    ∃ s s' s'' : State, (0x19#5).extractLsb' 3 2 = 3#2 ∧
      ((0x19#5).extractLsb' 0 3, CacheId.l1d) ∈ [(0#3, CacheId.l1i), (1#3, .l1d), (2#3, .l2)] ∧
      (s.params.cacopCustom = .defined ∧ s.plv = 0#2 ∧ (s.params.geom .l1d).present = true ∧ s.Inv) ∧
      (s'.params.cacopCustom = .defined ∧ s'.plv = 0#2 ∧ (s'.params.geom .l1d).present = false ∧ s'.Inv) ∧
      (s''.params.cacopCustom = .defined ∧ s''.plv = 3#2) :=
  ⟨{ s0 with params := { Params.default with cacopCustom := .defined } },
    { uncached with params := { uncached.params with cacopCustom := .defined } },
    { s3 with params := { Params.default with cacopCustom := .defined } }, by decide, by decide,
    ⟨rfl, by decide, by decide, inv_of_check (by decide)⟩, ⟨rfl, by decide, by decide, inv_of_check (by decide)⟩,
    ⟨rfl, by decide⟩⟩
theorem test_witness_WriteBacksReachMemory :
    ∃ s t u : State, s.Inv ∧ s.plv = 0#2 ∧ (s.params.geom .l1d).present = true ∧ (s.params.geom .l2).present = true ∧
      2 = directPos (s.params.geom .l1d) (cacopVa s 0#5 0x20#12) ∧ 0 = directPos (s.params.geom .l2) (cacopVa s 0#5 0#12) ∧
      (s.l1d.at 2).valid = true ∧ (s.l1d.at 2).dirty = true ∧ InLine (s.l1d.at 2) 0x2F ∧
      (s.l2.at 0).valid = true ∧ InLine (s.l2.at 0) 0x2F ∧ s.params.holdsMemory 0x2F = true ∧
      exec (.cacop 0x09#5 0#5 0x20#12) s = .next t ∧ exec (.cacop 0x0A#5 0#5 0#12) t = .next u :=
  ⟨cachedTwice, _, _, inv_of_check (by decide), by decide, by decide, by decide, by decide, by decide, by decide, by decide,
    by decide, by decide, by decide, by decide, rfl, rfl⟩

end Sys2Proof.Tests
end

section
/-! PROOFS. The legal states (O56): the hard-wired bits word by word, then one rule per operation of the
state, then every instruction, the step of the core and the step of the machine. -/

namespace Sys2Proof.Machine

/-! The hard-wired bits of one CSR's word (R14). -/

/-- The word leaves the hard-wired bits of the CSR as its layout says: `State.Inv.wired`, for one word. -/
abbrev WiredWord (p : Params) (c : Csr) (v : Word) : Prop := v &&& ~~~liveBits p c = wiredBits c

namespace WiredWord

variable {p : Params} {c : Csr} {v w : Word}

/-- Only the live bits of a wired word may be changed. -/
theorem of_agrees (hw : WiredWord p c w)
    (h : ∀ k, k < 32 → (liveBits p c).getLsbD k = false → v.getLsbD k = w.getLsbD k) : WiredWord p c v :=
  (wired_iff p c v).mpr fun k hk hl => (h k hk hl).trans ((wired_iff p c w).mp hw k hk hl)

theorem zero (hc : c ≠ .asid) : WiredWord p c 0#32 := by
  cases c <;> first | exact absurd rfl hc | exact BitVec.zero_and

theorem of_all_live (hlive : liveBits p c = BitVec.allOnes 32) : WiredWord p c v := by
  refine (wired_iff p c v).mpr fun k hk hl => ?_
  rw [hlive, BitVec.getLsbD_allOnes] at hl
  simp [hk] at hl

/-- A live bit may be written; that it is live is evaluated where the layout does not depend on a parameter. -/
theorem setBit (hw : WiredWord p c w) {i : Nat} (b : Bool)
    (hi : (liveBits p c).getLsbD i = true := by simp only [liveBits, writeMask]; rfl) :
    WiredWord p c (setBit w i b) := by
  refine hw.of_agrees fun k _ hl => ?_
  have hne : k ≠ i := by rintro rfl; simp [hi] at hl
  rw [getLsbD_setBit, if_neg (by omega)]

/-- A field of live bits may be written. -/
theorem setField (hw : WiredWord p c w) {lo len : Nat} (f : BitVec len)
    (hlive : getField (liveBits p c) lo len = BitVec.allOnes len := by simp only [liveBits, writeMask]; rfl) :
    WiredWord p c (setField w lo f) := by
  refine hw.of_agrees fun k hk hl => ?_
  rw [getLsbD_setField, if_neg]
  rintro ⟨hlo, hhi, -⟩
  have hin : k - lo < len := by omega
  have hbit := congrArg (·.getLsbD (k - lo)) hlive
  simp [getField, Nat.add_sub_cancel' hlo, hl, hin] at hbit

theorem maskedWrite (hw : WiredWord p c w) : WiredWord p c (maskedWrite p c v w) := by
  refine hw.of_agrees fun k hk hl => ?_
  have hm : (writeMask p c).getLsbD k = false := by
    by_contra h
    rw [liveBits_of_writeMask p c k (by simpa using h)] at hl
    cases hl
  rw [getLsbD_maskedWrite p c v w k hk, hm]
  rfl

/-- Reset leaves only live bits unspecified (R151). -/
theorem freeFields (d : Nat) {mask known : Word} (hk : WiredWord p c known)
    (hm : mask &&& ~~~liveBits p c = 0#32) : WiredWord p c (freeFields d c mask known) := by
  refine hk.of_agrees fun k hk32 hl => ?_
  have := congrArg (·.getLsbD k) hm
  simp only [BitVec.getLsbD_and, BitVec.getLsbD_not, hl, hk32] at this
  rw [getLsbD_freeFields d c mask known k hk32, if_neg (by simpa using this)]

end WiredWord

/-- What software may write is live (R14). -/
theorem writeMask_and_not_liveBits (p : Params) (c : Csr) : writeMask p c &&& ~~~liveBits p c = 0#32 := by
  apply BitVec.eq_of_getLsbD_eq
  intro k hk
  have := liveBits_of_writeMask p c k
  cases h : (writeMask p c).getLsbD k <;> simp_all

/-- LLBCTL reads as `{KLO, 0, LLbit}` whatever they hold (R25). -/
theorem wiredWord_llbctl (p : Params) (klo llbit : Bool) :
    WiredWord p .llbctl (setBit (setBit 0#32 2 klo) 0 llbit) := by
  cases klo <;> cases llbit <;> simp only [WiredWord, liveBits, wiredBits] <;> rfl

/-- Every word with zeros below VPPN is one TLBEHI can hold (R21). -/
theorem wiredWord_vppnWord (p : Params) (vppn : BitVec 19) : WiredWord p .tlbehi (vppnWord vppn) := by
  refine (wired_iff _ _ _).mpr fun k hk hl => ?_
  have hlow : k < 13 := by
    by_contra h
    simp only [liveBits, writeMask] at hl
    interval_cases k <;> simp_all
  rw [vppnWord, BitVec.getLsbD_append, if_pos hlow]
  simp [wiredBits]

/-- Both TLBELO words have PPN in bits PALEN-5:8 and a reserved bit 7 (R22). -/
theorem eloWord_and_not_live {p : Params} (hp : p.wf = true) (pg : Page) (g : Bool) :
    eloWord p pg g &&& ~~~(lowMask 32 (p.palen - 4) &&& ~~~0x80#32) = 0#32 := by
  have hlo : 13 ≤ p.palen := by
    simp only [Params.wf, Bool.and_eq_true, decide_eq_true_eq] at hp
    obtain ⟨⟨⟨⟨hlo, -⟩, -⟩, -⟩, -⟩ := hp
    exact hlo
  apply BitVec.eq_of_getLsbD_eq
  intro k hk
  have h80 : (0x80#32).getLsbD k = decide (k = 7) := by interval_cases k <;> rfl
  simp only [BitVec.getLsbD_and, BitVec.getLsbD_not, getLsbD_lowMask, hk, h80, getLsbD_eloWord, BitVec.getLsbD_zero]
  by_cases h7 : k = 7
  · simp [h7]
  · by_cases hpal : k < p.palen - 4
    · simp [h7, hpal]
    · have : ¬ k - 8 < p.palen - 12 := by omega
      simp [this, show k ≠ 0 by omega, show k ≠ 1 by omega, show k ≠ 6 by omega, show ¬ k < 4 by omega,
        show ¬ k < 6 by omega]

/-- The fields of TLBIDX but Index lie at fixed places (R23). -/
theorem wiredWord_tlbidx_ps_ne {p : Params} {w : Word} (hw : WiredWord p .tlbidx w) (ps : BitVec 6) (ne : Bool) :
    WiredWord p .tlbidx (setBit (setField w 24 ps) 31 ne) := by
  refine (hw.setField ps ?_).setBit ne ?_
  · ext k hk
    simp only [liveBits, writeMask, getField, BitVec.getElem_extractLsb', BitVec.getLsbD_or, BitVec.getElem_allOnes]
    interval_cases k <;> simp
  · simp [liveBits, writeMask]

theorem wiredWord_setTlbIndex {p : Params} {w : Word} (hw : WiredWord p .tlbidx w) (i : Nat) :
    WiredWord p .tlbidx (setTlbIndex p w i) := by
  refine hw.of_agrees fun k hk hl => ?_
  have hge : ¬ k < p.tlbIdxLen := by
    intro h
    simp only [liveBits, writeMask, BitVec.getLsbD_or, getLsbD_lowMask, hk, h] at hl
    simp at hl
  rw [getLsbD_setTlbIndex p w i k hk, if_neg hge]

theorem wiredWord_tlbidx_ne {p : Params} {w : Word} (hw : WiredWord p .tlbidx w) (ne : Bool) :
    WiredWord p .tlbidx (setBit w 31 ne) :=
  hw.setBit ne (by simp [liveBits, writeMask])

/-- PLV and IE of CRMD, which trap entry and ERTN write (R16). -/
theorem wiredWord_plv_ie {p : Params} {w : Word} (hw : WiredWord p .crmd w) (plv : BitVec 2) (ie : Bool) :
    WiredWord p .crmd (setBit (setField w 0 plv) 2 ie) :=
  (hw.setField plv).setBit ie

/-- DA and PG of CRMD, which a TLB refill and the return from it write (R16). -/
theorem wiredWord_da_pg {p : Params} {w : Word} (hw : WiredWord p .crmd w) (da pg : Bool) :
    WiredWord p .crmd (setBit (setBit w 3 da) 4 pg) :=
  (hw.setBit da).setBit pg

theorem wiredWord_entryCrmd {p : Params} {w : Word} (hw : WiredWord p .crmd w) (x : Exc) :
    WiredWord p .crmd (entryCrmd x w) := by
  unfold entryCrmd
  dsimp only
  split
  · exact wiredWord_da_pg (wiredWord_plv_ie hw _ _) _ _
  · exact wiredWord_plv_ie hw _ _

theorem wiredWord_returnCrmd {s : State} (hw : WiredWord s.params .crmd s.csr.crmd) :
    WiredWord s.params .crmd s.returnCrmd := by
  unfold State.returnCrmd
  dsimp only
  split
  · exact wiredWord_da_pg (wiredWord_plv_ie hw _ _) _ _
  · exact wiredWord_plv_ie hw _ _

/-! One rule per operation of the state. -/

theorem cache_congr {s t : State} (hi : t.l1i = s.l1i) (hd : t.l1d = s.l1d) (h2 : t.l2 = s.l2) (c : CacheId) :
    t.cache c = s.cache c := by
  cases c
  · exact hi
  · exact hd
  · exact h2

/-- A state with the stores of a legal one is legal when its CSRs are wired. -/
theorem State.Inv.of_stores {s t : State} (h : s.Inv) (hp : t.params = s.params) (hm : t.mem = s.mem)
    (ht : t.tlb = s.tlb) (hc : ∀ c, t.cache c = s.cache c) (hw : ∀ c, WiredWord s.params c (t.readCsr c)) :
    t.Inv where
  params_wf := hp ▸ h.params_wf
  memory_wf := hm ▸ h.memory_wf
  memory_mapped := hm ▸ hp ▸ h.memory_mapped
  wired c := hp ▸ hw c
  tlb_size := by rw [ht, hp]; exact h.tlb_size
  ppns_fit := by rw [ht, hp]; exact h.ppns_fit
  caches_sorted c := by rw [hc]; exact h.caches_sorted c
  lines_legal c := by rw [hc, hp]; exact h.lines_legal c

/-- What a step does beside CSRs, the TLB, caches and memory keeps a state legal. -/
theorem State.Inv.of_same {s t : State} (h : s.Inv) (hp : t.params = s.params) (hm : t.mem = s.mem)
    (ht : t.tlb = s.tlb) (hc : ∀ c, t.cache c = s.cache c) (hw : ∀ c, t.readCsr c = s.readCsr c) : t.Inv :=
  h.of_stores hp hm ht hc fun c => hw c ▸ h.wired c

theorem State.Inv.advance {s : State} (h : s.Inv) : s.advance.Inv :=
  h.of_same (by simp) (by simp) (by simp) (by simp) (by simp)

theorem State.Inv.tick {s : State} (h : s.Inv) : s.tick.Inv :=
  h.of_same (by simp) (by simp) (by simp) (by simp) (by simp)

theorem State.Inv.writeReg {s : State} (h : s.Inv) (r : RegNum) (v : Word) : (s.writeReg r v).Inv :=
  h.of_same (by simp) (by simp) (by simp) (by simp) (by simp)

theorem State.Inv.waitStep {s : State} (h : s.Inv) (b : Bool) : (s.waitStep b).Inv :=
  h.of_same (by simp) (by simp) (by simp) (by simp) (by simp)

theorem State.Inv.setPc {s : State} (h : s.Inv) (pc : Word) : { s with pc := pc }.Inv :=
  h.of_same rfl rfl rfl (cache_congr rfl rfl rfl) (readCsr_congr rfl rfl)

theorem State.Inv.setIdle {s : State} (h : s.Inv) (b : Bool) : { s with idle := b }.Inv :=
  h.of_same rfl rfl rfl (cache_congr rfl rfl rfl) (readCsr_congr rfl rfl)

theorem State.Inv.setEnv {s : State} (h : s.Inv) (env : List EnvEvent) : { s with env := env }.Inv :=
  h.of_same rfl rfl rfl (cache_congr rfl rfl rfl) (readCsr_congr rfl rfl)

theorem State.Inv.wiredWord {s : State} (h : s.Inv) (c : Csr) : WiredWord s.params c (s.readCsr c) := h.wired c

/-- A wired word may be stored into any CSR; LLBCTL stores no hard-wired bit (R14, R25). -/
theorem State.Inv.putCsr {s : State} (h : s.Inv) (c : Csr) {v : Word} (hv : c ≠ .llbctl → WiredWord s.params c v) :
    (s.putCsr c v).Inv := by
  refine h.of_stores (by simp) (by simp) (by simp) (by simp) fun c' => ?_
  by_cases hc' : c' = c
  · subst hc'
    by_cases hl : c' = .llbctl
    · subst hl; exact wiredWord_llbctl _ _ _
    · rw [readCsr_putCsr_same s c' v hl]; exact hv hl
  · rw [readCsr_putCsr_other s c v c' hc']; exact h.wired c'

theorem State.Inv.writeCsr {s : State} (h : s.Inv) (c : Csr) (v : Word) : (s.writeCsr c v).Inv := by
  by_cases hc : c = .llbctl
  · subst hc; exact h.putCsr .llbctl fun hn => absurd rfl hn
  · rw [writeCsr_eq_putCsr s c v hc]
    exact h.putCsr c fun _ => (h.wiredWord c).maskedWrite

theorem State.Inv.csrWrite {s : State} (h : s.Inv) (n : CsrNum) (v : Word) : (csrWrite n v s).Inv := by
  rcases csrWrite_cases n v s with ⟨c, -, hc⟩ | hs
  · rw [hc]; exact h.writeCsr c v
  · rw [hs]; exact h

theorem State.Inv.csrRead {s s' : State} (h : s.Inv) {n : CsrNum} {v : Word}
    (hr : csrRead n s = .ok (v, s')) : s'.Inv := by
  rcases csrRead_ok hr with ⟨c, -, -, rfl⟩ | ⟨-, -, rfl⟩
  · exact h
  · exact h.tick

/-- Trap entry is a store into each of six CSRs and of the pc (R136). -/
theorem takeException_eq_putCsr (s : State) (x : Exc) (badv : Word) :
    s.takeException x badv =
      { ((((((s.putCsr .prmd (setBit (setField s.csr.prmd 0 s.plv) 2 s.ie)).putCsr .crmd (entryCrmd x s.csr.crmd)).putCsr
          .era s.pc).putCsr .estat (setField (setField s.csr.estat 16 x.ecode) 22 x.esubcode)).putCsr
          .badv (if x.recordsBadv then badv else s.csr.badv)).putCsr
          .tlbehi (if x.recordsVppn then setField s.csr.tlbehi 13 (getField badv 13 19) else s.csr.tlbehi)) with
        pc := s.entryOf x } := by
  simp only [State.takeException, State.putCsr]

theorem State.Inv.takeException {s : State} (h : s.Inv) (x : Exc) (badv : Word) : (s.takeException x badv).Inv := by
  rw [takeException_eq_putCsr]
  refine ((((((h.putCsr .prmd fun _ => ?_).putCsr .crmd fun _ => ?_).putCsr .era fun _ => ?_).putCsr
    .estat fun _ => ?_).putCsr .badv fun _ => ?_).putCsr .tlbehi fun _ => ?_).setPc _
  · exact ((h.wiredWord .prmd).setField _).setBit _
  · exact wiredWord_entryCrmd (h.wired .crmd) x
  · exact WiredWord.of_all_live (by simp only [liveBits, writeMask]; rfl)
  · exact ((h.wiredWord .estat).setField _).setField _
  · exact WiredWord.of_all_live (by simp only [liveBits, writeMask]; rfl)
  · simp only [putCsr_params]
    split
    · exact (h.wiredWord .tlbehi).setField _
    · exact h.wiredWord .tlbehi

/-- The link flag and KLO are no hard-wired bits (R24, R25). -/
theorem State.Inv.setLink {s : State} (h : s.Inv) (klo llbit : Bool) :
    { s with csr := { s.csr with klo := klo }, llbit := llbit }.Inv := by
  refine h.of_stores rfl rfl rfl (cache_congr rfl rfl rfl) fun c => ?_
  by_cases hc : c = .llbctl
  · subst hc; exact wiredWord_llbctl _ _ _
  · have hkept : State.readCsr { s with csr := { s.csr with klo := klo }, llbit := llbit } c = s.readCsr c := by
      cases c <;> first | exact absurd rfl hc | rfl
    rw [hkept]; exact h.wired c

theorem State.Inv.exceptionReturn {s : State} (h : s.Inv) : s.exceptionReturn.Inv :=
  ((h.putCsr .crmd fun _ => wiredWord_returnCrmd (h.wired .crmd)).setLink false (s.csr.klo && s.llbit)).setPc s.csr.era

theorem State.Inv.sampleLines {s : State} (h : s.Inv) (hwi : BitVec 8) (ti ipi : Bool) :
    (s.sampleLines hwi ti ipi).Inv :=
  h.putCsr .estat fun _ => (((h.wiredWord .estat).setField hwi).setBit ti).setBit ipi

theorem State.Inv.sampled {s : State} (h : s.Inv) : s.sampled.Inv := by
  unfold State.sampled
  split
  · exact (h.setEnv _).sampleLines _ _ _
  · exact h
  · exact h

/-- TLBRD is a store into each of five CSRs (R93). -/
theorem readTlbEntry_eq_putCsr (s : State) (e : TlbEntry) :
    s.readTlbEntry e =
      ((((s.putCsr .tlbehi (if e.e then vppnWord e.vppn else 0#32)).putCsr
          .tlbelo0 (if e.e then eloWord s.params e.page0 e.g else 0#32)).putCsr
          .tlbelo1 (if e.e then eloWord s.params e.page1 e.g else 0#32)).putCsr
          .tlbidx (setBit (setField s.csr.tlbidx 24 (if e.e then e.ps else 0#6)) 31 !e.e)).putCsr
          .asid (setField s.csr.asid 0 (if e.e then e.asid else 0#10)) := by
  unfold State.readTlbEntry
  cases e.e <;> simp only [State.putCsr, if_true, Bool.false_eq_true, if_false, Bool.not_true, Bool.not_false]

theorem State.Inv.readTlbEntry {s : State} (h : s.Inv) (e : TlbEntry) : (s.readTlbEntry e).Inv := by
  rw [readTlbEntry_eq_putCsr]
  refine ((((h.putCsr .tlbehi fun _ => ?_).putCsr .tlbelo0 fun _ => ?_).putCsr .tlbelo1 fun _ => ?_).putCsr
    .tlbidx fun _ => ?_).putCsr .asid fun _ => ?_
  · split
    · exact wiredWord_vppnWord _ _
    · exact .zero (by decide)
  · split
    · exact eloWord_and_not_live h.params_wf _ _
    · exact .zero (by decide)
  · split
    · exact eloWord_and_not_live h.params_wf _ _
    · exact .zero (by decide)
  · exact wiredWord_tlbidx_ps_ne (h.wired .tlbidx) _ _
  · exact (h.wiredWord .asid).setField _

/-! The TLB (R95, R97). -/

/-- A TLB of the same size with page numbers within PALEN keeps a state legal. -/
theorem State.Inv.setTlb {s : State} (h : s.Inv) {tlb : List TlbEntry} (hl : tlb.length = s.tlb.length)
    (hp : ∀ e ∈ tlb, ppnFits s.params e.page0.ppn ∧ ppnFits s.params e.page1.ppn) : { s with tlb := tlb }.Inv where
  params_wf := h.params_wf
  memory_wf := h.memory_wf
  memory_mapped := h.memory_mapped
  wired := h.wired
  tlb_size := hl.trans h.tlb_size
  ppns_fit := hp
  caches_sorted := h.caches_sorted
  lines_legal := h.lines_legal

theorem ppnFits_ofElo (p : Params) (w : Word) : ppnFits p (Page.ofElo p w).ppn := by
  rw [ppnFits, Page.ofElo, BitVec.and_assoc, BitVec.and_not_self]
  exact BitVec.and_zero

theorem State.Inv.fillEntry {s : State} (h : s.Inv) (i : Nat) : (s.fillEntry i).Inv := by
  refine h.setTlb (List.length_set ..) fun e he => ?_
  rcases List.mem_or_eq_of_mem_set he with he | rfl
  · exact h.ppns_fit e he
  · exact ⟨ppnFits_ofElo _ _, ppnFits_ofElo _ _⟩

/-- INVTLB changes no page of an entry (R97). -/
theorem onEntry_pages {p : Params} {o : InvOp} {asid : BitVec 10} {va : Word} {e e' : TlbEntry}
    (h : o.onEntry p asid va e = .ok e') : e'.page0 = e.page0 ∧ e'.page1 = e.page1 := by
  rcases onEntry_ok h with ⟨-, rfl⟩ | ⟨-, sel, -, rfl⟩ <;> exact ⟨rfl, rfl⟩

theorem State.Inv.invtlb {s : State} (h : s.Inv) {o : InvOp} {asid : BitVec 10} {va : Word} {tlb : List TlbEntry}
    (ho : o.onTlb s.params asid va s.tlb = .ok tlb) : { s with tlb := tlb }.Inv := by
  obtain ⟨hlen, hentry⟩ := onTlb_ok ho
  refine h.setTlb hlen fun e he => ?_
  obtain ⟨i, hi, rfl⟩ := List.getElem_of_mem he
  obtain ⟨h0, h1⟩ := onEntry_pages (hentry i (hlen ▸ hi) hi)
  rw [h0, h1]
  exact h.ppns_fit _ (List.getElem_mem _)

/-! Caches and memory (R84 to R87). -/

/-- A state that differs from a legal one in caches and memory only is legal when these are. -/
theorem State.Inv.of_caches {s t : State} (h : s.Inv) (hp : t.params = s.params) (hr : ∀ c, t.readCsr c = s.readCsr c)
    (ht : t.tlb = s.tlb) (hm : t.mem.wf) (hmap : ∀ x ∈ t.mem, s.params.holdsMemory x.1 = true)
    (hs : ∀ c, (t.cache c).Pairwise fun x y => x.1 < y.1) (hl : ∀ c, ∀ x ∈ t.cache c, lineLegal s.params c x) :
    t.Inv where
  params_wf := hp ▸ h.params_wf
  memory_wf := hm
  memory_mapped := hp ▸ hmap
  wired c := by rw [hr, hp]; exact h.wired c
  tlb_size := by rw [ht, hp]; exact h.tlb_size
  ppns_fit := by rw [ht, hp]; exact h.ppns_fit
  caches_sorted := hs
  lines_legal := hp ▸ hl

theorem State.Inv.setCache {s : State} (h : s.Inv) (c : CacheId) {l : Cache} (hs : l.Pairwise fun x y => x.1 < y.1)
    (hl : ∀ x ∈ l, lineLegal s.params c x) : (s.setCache c l).Inv := by
  refine h.of_caches (by simp) (by simp) (by simp) (by simpa using h.memory_wf) (by simpa using h.memory_mapped)
    (fun c' => ?_) (fun c' => ?_) <;> rw [cache_setCache] <;> split
  · exact hs
  · exact h.caches_sorted c'
  · next hc => subst hc; exact hl
  · exact h.lines_legal c'

theorem State.Inv.setMem {s : State} (h : s.Inv) {m : Memory} (hm : m.wf)
    (hmap : ∀ x ∈ m, s.params.holdsMemory x.1 = true) : { s with mem := m }.Inv :=
  h.of_caches rfl (readCsr_congr rfl rfl) rfl hm hmap h.caches_sorted h.lines_legal

/-- A line that takes bytes keeps its tag and its size. -/
theorem lineLegal_take {p : Params} {c : CacheId} {y : Nat × CacheLine} (h : lineLegal p c y) (a : Nat)
    (bs : List Byte) (r : Bool) : lineLegal p c (y.1, y.2.take a bs r) := by
  simpa only [lineLegal, take_length, take_tag] using h

theorem State.Inv.writeNextLevel {s : State} (h : s.Inv) (c : CacheId) (l : CacheLine) : (s.writeNextLevel c l).Inv := by
  refine h.of_caches (by simp) (readCsr_congr (by simp) (by simp)) (by simp) (writeNextLevel_wf s h.memory_wf c l)
    (writeNextLevel_mapped s h.memory_mapped c l) (fun c' => ?_) (fun c' => ?_) <;>
    rw [writeNextLevel_cache] <;> split
  · exact mapLines_sorted (h.caches_sorted .l2) fun y => y.take _ _ _
  · exact h.caches_sorted c'
  · next hc =>
    obtain ⟨rfl, -⟩ := hc
    intro x hx
    obtain ⟨y, hy, rfl⟩ := List.mem_map.mp hx
    exact lineLegal_take (h.lines_legal .l2 y hy) _ _ _
  · exact h.lines_legal c'

/-- The line at a listed position of a legal cache is a legal one. -/
theorem State.Inv.lineLegal_at {s : State} (h : s.Inv) {c : CacheId} {pos : Nat}
    (hp : pos ∈ (s.cache c).map (·.1)) : lineLegal s.params c (pos, (s.cache c).at pos) := by
  obtain ⟨⟨_, l⟩, hx, rfl⟩ := List.mem_map.mp hp
  rw [at_of_mem (h.caches_sorted c) hx]
  exact h.lines_legal c _ hx

theorem State.Inv.lines_legal_invalidated {s : State} (h : s.Inv) (c : CacheId) (pos : Nat) :
    ∀ x ∈ (s.cache c).replace pos { (s.cache c).at pos with valid := false }, lineLegal s.params c x := by
  intro x hx
  rcases mem_replace hx with hx | ⟨rfl, hp⟩
  · exact h.lines_legal c x hx
  · exact h.lineLegal_at hp

theorem State.Inv.writebackInvalidate {s : State} (h : s.Inv) (c : CacheId) (pos : Nat) :
    (s.writebackInvalidate c pos).Inv := by
  have hsorted := replace_sorted (h.caches_sorted c) pos { (s.cache c).at pos with valid := false }
  have hlegal := h.lines_legal_invalidated c pos
  unfold State.writebackInvalidate
  dsimp only
  split
  · exact (h.writeNextLevel c _).setCache c hsorted (by rw [writeNextLevel_params]; exact hlegal)
  · exact h.setCache c hsorted hlegal

theorem State.Inv.erase {s : State} (h : s.Inv) (c : CacheId) (pos : Nat) :
    (s.setCache c ((s.cache c).erase pos)).Inv :=
  h.setCache c (erase_sorted (h.caches_sorted c) pos) fun x hx => h.lines_legal c x (List.mem_of_mem_filter hx)

theorem State.Inv.storeTag {s : State} (h : s.Inv) (c : CacheId) (va : Word) : (s.storeTag c va).Inv := by
  unfold State.storeTag
  split
  · exact h.erase c _
  · exact h

theorem State.Inv.indexInvalidate {s : State} (h : s.Inv) (c : CacheId) (va : Word) : (s.indexInvalidate c va).Inv := by
  unfold State.indexInvalidate
  split
  · exact h.writebackInvalidate c _
  · exact h

theorem State.Inv.hitInvalidate {s : State} (h : s.Inv) (c : CacheId) (a : PAddr) : (s.hitInvalidate c a).Inv := by
  unfold State.hitInvalidate
  split
  · split
    · exact h.writebackInvalidate c _
    · exact h
  · exact h

/-- A line address is its own line address. -/
theorem lineBase_lineBase (g : CacheGeom) (a : PAddr) : lineBase g (lineBase g a) = lineBase g a := by
  apply BitVec.eq_of_getLsbD_eq
  intro k hk
  simp only [lineBase, BitVec.getLsbD_shiftLeft, BitVec.getLsbD_ushiftRight]
  by_cases h : k < g.offset
  · simp [h]
  · rw [Nat.add_sub_cancel' (by omega)]
    simp [BitVec.getLsbD_eq_getElem, Nat.add_sub_cancel' (Nat.le_of_not_lt h), hk, h]

/-- The line address of an address of PALEN bits has PALEN bits. -/
theorem toPhys_lineBase_toPhys (p : Params) (g : CacheGeom) (a : PAddr) :
    toPhys p (lineBase g (toPhys p a)) = lineBase g (toPhys p a) := by
  apply BitVec.eq_of_getLsbD_eq
  intro k hk
  simp only [toPhys, lineBase, BitVec.getLsbD_and, BitVec.getLsbD_shiftLeft, BitVec.getLsbD_ushiftRight,
    getLsbD_lowMask]
  by_cases h : k < g.offset
  · simp [h]
  · rw [Nat.add_sub_cancel' (by omega)]
    cases decide (k < p.palen) <;> simp

/-- A line of the geometry's size at an address of the map is legal wherever the cache has a line. -/
theorem lineLegal_of_lineBase {p : Params} {c : CacheId} {pos : Nat} (hpos : pos < lineCount (p.geom c)) (a : PAddr)
    (valid dirty : Bool) (f : Nat → Byte) :
    lineLegal p c (pos, { tag := lineBase (p.geom c) (toPhys p a), valid := valid, dirty := dirty,
                          data := (List.range (2 ^ (p.geom c).offset)).map f }) :=
  ⟨hpos, by simp, lineBase_lineBase _ _, toPhys_lineBase_toPhys _ _ _⟩

/-- One change of the implementation's own cache operation (R87) is one the hardware can hold. -/
theorem State.Inv.applyChange {s : State} (h : s.Inv) (ch : CacheChange) : (s.applyChange ch).Inv := by
  cases ch with
  | line c pos tag valid dirty data =>
    simp only [State.applyChange]
    split
    · next hfit =>
      simp only [Bool.and_eq_true, decide_eq_true_eq] at hfit
      refine h.setCache c (put_sorted (h.caches_sorted c) _ _) fun x hx => ?_
      rcases mem_put hx with hx | rfl
      · exact h.lines_legal c x hx
      · exact lineLegal_of_lineBase hfit.2 _ _ _ _
    · exact h
  | clear c pos =>
    simp only [State.applyChange]
    split
    · exact h.erase c pos
    · exact h
  | byte a b =>
    refine h.setMem ?_ ?_ <;> split
    · exact writeByte_wf _ h.memory_wf _ _
    · exact h.memory_wf
    · next hmap =>
      intro x hx
      rcases mem_writeByte _ _ _ x hx with hx | rfl
      · exact h.memory_mapped x hx
      · exact hmap
    · exact h.memory_mapped

theorem State.Inv.applyChanges (l : List CacheChange) : ∀ {s : State}, s.Inv → (l.foldl State.applyChange s).Inv := by
  induction l with
  | nil => exact fun h => h
  | cons ch l ih => exact fun h => ih (h.applyChange ch)

theorem State.Inv.customCacop {s : State} (h : s.Inv) (c : CacheId) (va : Word) : (s.customCacop c va).Inv := by
  unfold State.customCacop
  split
  · exact (State.Inv.applyChanges _ h).tick
  · exact h

/-! The reset event (R150, R151). -/

theorem freeCache_sorted (p : Params) (d : Nat) (c : CacheId) : (freeCache p d c).Pairwise fun x y => x.1 < y.1 := by
  unfold freeCache
  split
  · rw [List.pairwise_map]; exact List.pairwise_lt_range
  · exact .nil

theorem lineLegal_freeCache {p : Params} {d : Nat} {c : CacheId} {x : Nat × CacheLine} (hx : x ∈ freeCache p d c) :
    lineLegal p c x := by
  unfold freeCache at hx
  split at hx
  · obtain ⟨pos, hpos, rfl⟩ := List.mem_map.mp hx
    exact lineLegal_of_lineBase (List.mem_range.mp hpos) _ _ _ _
  · simp at hx

/-- What reset leaves in a CSR has its hard-wired bits (R151). -/
theorem wiredWord_resetEvent (s : State) (c : Csr) :
    WiredWord s.params c (s.resetEvent.readCsr c) := by
  have free : ∀ {c : Csr}, c ≠ .asid → WiredWord s.params c (freeFields s.draws c (writeMask s.params c) 0#32) :=
    fun hc => (WiredWord.zero hc).freeFields _ (writeMask_and_not_liveBits _ _)
  cases c <;> simp only [State.readCsr, resetEvent_csr, resetEvent_llbit, State.csrsAfterReset]
  case crmd => simp only [WiredWord, liveBits, writeMask, wiredBits]; rfl
  case asid =>
    refine WiredWord.freeFields _ ?_ (writeMask_and_not_liveBits _ _)
    simp only [WiredWord, liveBits, writeMask, wiredBits]; rfl
  case ecfg => exact .zero (by decide)
  case estat =>
    refine WiredWord.freeFields _ ?_ (by simp only [liveBits]; rfl)
    simp only [WiredWord, liveBits, wiredBits, BitVec.and_assoc]
    exact BitVec.and_zero
  case llbctl => exact wiredWord_llbctl _ _ _
  case dmw0 => exact (WiredWord.zero (by decide)).freeFields _ (by simp only [liveBits, writeMask]; rfl)
  case dmw1 => exact (WiredWord.zero (by decide)).freeFields _ (by simp only [liveBits, writeMask]; rfl)
  all_goals exact free (by decide)

theorem State.Inv.resetEvent {s : State} (h : s.Inv) : s.resetEvent.Inv where
  params_wf := by rw [resetEvent_params]; exact h.params_wf
  memory_wf := by rw [resetEvent_mem]; exact h.memory_wf
  memory_mapped := by rw [resetEvent_mem, resetEvent_params]; exact h.memory_mapped
  wired c := by rw [resetEvent_params]; exact wiredWord_resetEvent s c
  tlb_size := by rw [resetEvent_tlb, resetEvent_params, List.length_map, List.length_range]
  ppns_fit := by
    rw [resetEvent_tlb, resetEvent_params]
    intro e he
    obtain ⟨i, -, rfl⟩ := List.mem_map.mp he
    exact ⟨ppnFits_ofElo _ _, ppnFits_ofElo _ _⟩
  caches_sorted c := by rw [cache_resetEvent]; exact freeCache_sorted _ _ _
  lines_legal c := by rw [cache_resetEvent, resetEvent_params]; exact fun x hx => lineLegal_freeCache hx

/-! Every instruction, and every step. -/

theorem cacopBody_keeps_inv {code : BitVec 5} {va : Word} {s t : State} (h : s.Inv)
    (ht : cacopBody code va s = .next t) : t.Inv := by
  obtain ⟨c, -, ⟨-, rfl⟩ | ⟨-, rfl⟩ | ⟨-, ⟨a, -, rfl⟩ | ⟨x, -, rfl⟩⟩ | ⟨-, -, rfl⟩⟩ := cacopBody_next.mp ht
  · exact (h.storeTag c va).advance
  · exact (h.indexInvalidate c va).advance
  · exact (h.hitInvalidate c a).advance
  · exact h.takeException x va
  · exact (h.customCacop c va).advance

theorem exec_keeps_inv {i : Instr} {s t : State} (h : s.Inv) (ht : exec i s = .next t) : t.Inv := by
  have hraise : ∀ x, (s.raise x).Inv := fun x => h.takeException x _
  cases i with
  | csrrd rd n =>
    obtain ⟨-, v, s', hr, rfl⟩ | ⟨-, rfl⟩ := execCsrrd_next.mp ht
    · exact ((h.csrRead hr).writeReg rd v).advance
    · exact hraise _
  | csrwr rd n =>
    obtain ⟨-, old, s', hr, rfl⟩ | ⟨-, rfl⟩ := execCsrwr_next.mp ht
    · exact (((h.csrRead hr).csrWrite n _).writeReg rd old).advance
    · exact hraise _
  | csrxchg rd rj n =>
    obtain ⟨-, old, s', hr, rfl⟩ | ⟨-, rfl⟩ := execCsrxchg_next.mp ht
    · exact (((h.csrRead hr).csrWrite n _).writeReg rd old).advance
    · exact hraise _
  | cacop code rj si12 =>
    obtain ⟨-, hb⟩ | ⟨-, -, rfl⟩ := execCacop_next.mp ht
    · exact cacopBody_keeps_inv h hb
    · exact hraise _
  | tlbsrch =>
    obtain ⟨-, ⟨-, rfl⟩ | ⟨i, -, rfl⟩⟩ | ⟨-, rfl⟩ := execTlbsrch_next.mp ht
    · exact (h.putCsr .tlbidx fun _ => wiredWord_tlbidx_ne (h.wired .tlbidx) true).advance
    · exact (h.putCsr .tlbidx fun _ =>
        wiredWord_tlbidx_ne (wiredWord_setTlbIndex (h.wired .tlbidx) i) false).advance
    · exact hraise _
  | tlbrd =>
    obtain ⟨-, rfl⟩ | ⟨-, rfl⟩ := execTlbrd_next.mp ht
    · exact (h.readTlbEntry _).advance
    · exact hraise _
  | tlbwr =>
    obtain ⟨-, rfl⟩ | ⟨-, rfl⟩ := execTlbwr_next.mp ht
    · exact (h.fillEntry _).advance
    · exact hraise _
  | tlbfill =>
    obtain ⟨-, rfl⟩ | ⟨-, rfl⟩ := execTlbfill_next.mp ht
    · exact (h.fillEntry _).tick.advance
    · exact hraise _
  | invtlb op rj rk =>
    obtain ⟨-, ⟨-, rfl⟩ | ⟨-, rfl⟩⟩ | ⟨o, -, ⟨-, -, tlb, ho, rfl⟩ | ⟨-, rfl⟩⟩ := execInvtlb_next.mp ht
    · exact hraise _
    · exact h.tick.takeException _ _
    · exact (h.invtlb ho).advance
    · exact hraise _
  | ertn =>
    obtain ⟨-, rfl⟩ | ⟨-, rfl⟩ := execErtn_next.mp ht
    · exact h.exceptionReturn
    · exact hraise _
  | idle level =>
    obtain ⟨-, rfl⟩ | ⟨-, rfl⟩ := (execIdle_next (level := level)).mp ht
    · exact h.advance.setIdle true
    · exact hraise _

theorem coreStep_keeps_inv {already : Bool} {s t : State} (h : s.Inv) (ht : coreStep already s = .next t) : t.Inv := by
  obtain ⟨-, ⟨-, rfl⟩ | ⟨-, -, rfl⟩ | ⟨-, -, ⟨i, -, he⟩ | ⟨x, -, rfl⟩⟩⟩ := coreStep_next ht
  · exact h.waitStep already
  · exact h.takeException .int _
  · exact exec_keeps_inv h he
  · exact h.takeException x _

/-- Settles O56: each step is a reset event or a step of the core on the sampled inputs, and each of these
is made of operations that keep a state legal. -/
theorem stepKeepsLegalStates : Obligations.StepKeepsLegalStates := by
  unfold Obligations.StepKeepsLegalStates
  intro s t h ht
  obtain ⟨env, -, rfl⟩ | ⟨-, hc⟩ := step_next ht
  · exact (h.setEnv env).resetEvent
  · exact coreStep_keeps_inv h.sampled hc

end Sys2Proof.Machine
end

section
/-! PROOFS. CACOP on a cache the spec does not name, and its custom operation (O25, O59). -/

namespace Sys2Proof.Machine

/-- `code[2:0]` of 3 to 7 names no cache (R82, U3). -/
theorem cacopCache_none {code : BitVec 5} (h : 3 ≤ (code.extractLsb' 0 3).toNat) : cacopCache code = none := by
  unfold cacopCache
  split <;> first | omega | rfl

/-- `code[2:0]` below 3 names one (R82). -/
theorem cacopCache_some {code : BitVec 5} (h : (code.extractLsb' 0 3).toNat < 3) : ∃ c, cacopCache code = some c := by
  obtain h | h | h : (code.extractLsb' 0 3).toNat = 0 ∨ (code.extractLsb' 0 3).toNat = 1 ∨
      (code.extractLsb' 0 3).toNat = 2 := by omega
  · exact ⟨.l1i, by simp only [cacopCache, h]⟩
  · exact ⟨.l1d, by simp only [cacopCache, h]⟩
  · exact ⟨.l2, by simp only [cacopCache, h]⟩

/-- The table of R82, as the statements write it. -/
theorem cacopCache_of_mem {code : BitVec 5} {c : CacheId}
    (h : (code.extractLsb' 0 3, c) ∈ [(0#3, CacheId.l1i), (1#3, .l1d), (2#3, .l2)]) : cacopCache code = some c := by
  simp only [List.mem_cons, Prod.mk.injEq, List.not_mem_nil, or_false] at h
  unfold cacopCache
  rcases h with ⟨hcode, rfl⟩ | ⟨hcode, rfl⟩ | ⟨hcode, rfl⟩ <;> rw [hcode] <;> rfl

theorem cacopKind_hit {code : BitVec 5} (h : code.extractLsb' 3 2 = 2#2) : cacopKind code = .hitInvalidate := by
  simp [cacopKind, h]

theorem cacopKind_custom {code : BitVec 5} (h : code.extractLsb' 3 2 = 3#2) : cacopKind code = .custom := by
  simp [cacopKind, h]

/-! CACOP behind its privilege check (R80, R88). -/

theorem execCacop_plv0 {s : State} (h : s.plv = 0#2) (code : BitVec 5) (rj : RegNum) (si12 : BitVec 12) :
    execCacop code rj si12 s = cacopBody code (cacopVa s rj si12) s := by
  unfold execCacop
  split
  · exact atAnyPlv_legal (.inl h) _
  · exact atPlv0_plv0 h _

theorem execCacop_hit_plv3 {s : State} {code : BitVec 5} (hk : cacopKind code = .hitInvalidate) (h : s.plv = 3#2)
    (rj : RegNum) (si12 : BitVec 12) : execCacop code rj si12 s = cacopBody code (cacopVa s rj si12) s := by
  rw [execCacop, if_pos hk]
  exact atAnyPlv_legal (.inr h) _

theorem execCacop_not_hit_plv3 {s : State} {code : BitVec 5} (hk : cacopKind code ≠ .hitInvalidate) (h : s.plv = 3#2)
    (rj : RegNum) (si12 : BitVec 12) : execCacop code rj si12 s = .next (s.raise .ipe) := by
  rw [execCacop, if_neg hk]
  exact atPlv0_plv3 h _

/-! The body on an unnamed cache, and the custom operation (R82, R87). -/

theorem cacopBody_unnamed {code : BitVec 5} (h : cacopCache code = none) (va : Word) (s : State) :
    cacopBody code va s = .refused (.unnamedCache code) := by
  rw [cacopBody, h]

theorem cacopBody_custom_refused {code : BitVec 5} {c : CacheId} {s : State} (hc : cacopCache code = some c)
    (hk : cacopKind code = .custom) (hp : s.params.cacopCustom = .refused) (va : Word) :
    cacopBody code va s = .refused (.customCacheOp code) := by
  simp only [cacopBody, hc, cacopOn, hk, hp]

theorem cacopBody_custom_defined {code : BitVec 5} {c : CacheId} {s : State} (hc : cacopCache code = some c)
    (hk : cacopKind code = .custom) (hp : s.params.cacopCustom = .defined) (va : Word) :
    cacopBody code va s = .next (s.customCacop c va).advance := by
  simp only [cacopBody, hc, cacopOn, hk, hp]

/-- Settles O25: past the privilege check the body looks first at the cache named, then at CACOP_CUSTOM. -/
theorem cacopStops : Obligations.CacopStops := by
  unfold Obligations.CacopStops
  intro s code rj si
  refine ⟨fun hcode hlevel => ?_, fun hcode hkind hplv hcustom => ?_⟩
  · have hbody := cacopBody_unnamed (cacopCache_none hcode) (cacopVa s rj si) s
    rcases hlevel with hplv | ⟨hplv, hkind⟩
    · exact (execCacop_plv0 hplv code rj si).trans hbody
    · exact (execCacop_hit_plv3 (cacopKind_hit hkind) hplv rj si).trans hbody
  · obtain ⟨c, hc⟩ := cacopCache_some hcode
    exact (execCacop_plv0 hplv code rj si).trans
      (cacopBody_custom_refused hc (cacopKind_custom hkind) hcustom (cacopVa s rj si))

/-- Settles O59: the operation is a run of changes, each of which keeps all but caches and memory, and keeps a
legal state legal. -/
theorem cacopCustomOperation : Obligations.CacopCustomOperation := by
  unfold Obligations.CacopCustomOperation
  intro s code rj si c hkind hcode hdefined
  have hk := cacopKind_custom hkind
  refine ⟨fun hplv => execCacop_not_hit_plv3 (by simp [hk]) hplv rj si, fun hplv => ?_⟩
  have hexec := (execCacop_plv0 hplv code rj si).trans
    (cacopBody_custom_defined (cacopCache_of_mem hcode) hk hdefined (cacopVa s rj si))
  refine ⟨_, hexec, by simp, fun habsent => ?_, by simp, by simp, ⟨by simp, by simp, by simp, by simp⟩,
    ⟨by simp, by simp⟩, fun h => (h.customCacop c _).advance⟩
  rw [customCacop_absent habsent]
  exact ⟨cache_advance s, fun a => rfl⟩

end Sys2Proof.Machine
end

section
/-! PROOFS. Trap entry and the fetches that take it (O46). -/

namespace Sys2Proof.Machine

/-! The step where neither a wait nor an interrupt comes before the fetch (R8). -/

theorem coreStep_fetches {already : Bool} {u : State} (hlevel : LegalLevel u) (hidle : u.idle = false)
    (hint : ¬ InterruptDue u) :
    (∀ i, fetch u = .instr i → coreStep already u = exec i u) ∧
    (∀ x, fetch u = .raise x → coreStep already u = .next (u.takeException x u.pc)) ∧
    (∀ r, fetch u = .refuse r → coreStep already u = .refused r) := by
  have hno := (takesInterrupt_false u).mpr hint
  refine ⟨fun i hf => ?_, fun x hf => ?_, fun r hf => ?_⟩ <;>
    simp [coreStep, level_of_legal hlevel, hidle, hno, hf]

/-- A translation that is refused refuses the fetch (R44, R48). -/
theorem fetch_of_translate_refuse {s : State} {r : Refusal} (hpc : getField s.pc 0 2 = 0#2)
    (ht : translate s s.pc .fetch = .refuse r) : fetch s = .refuse r := by
  simp only [fetch, hpc, ht, ne_eq, not_true_eq_false, if_false]

/-! What trap entry writes, bit by bit, and what it keeps (R136). -/

theorem getLsbD_takeException_prmd (s : State) (x : Exc) (badv : Word) {k : Nat} (hk : 3 ≤ k) :
    (s.takeException x badv).csr.prmd.getLsbD k = s.csr.prmd.getLsbD k := by
  rw [State.takeException, getLsbD_setBit, getLsbD_setField, if_neg (by omega), if_neg (by omega)]

theorem getLsbD_takeException_estat (s : State) (x : Exc) (badv : Word) {k : Nat} (hk : k < 16 ∨ k = 31) :
    (s.takeException x badv).csr.estat.getLsbD k = s.csr.estat.getLsbD k := by
  rw [State.takeException, getLsbD_setField, getLsbD_setField, if_neg (by omega), if_neg (by omega)]

theorem getLsbD_takeException_crmd (s : State) (x : Exc) (badv : Word) {k : Nat} (hk : 5 ≤ k) :
    (s.takeException x badv).csr.crmd.getLsbD k = s.csr.crmd.getLsbD k := by
  rw [State.takeException, getLsbD_entryCrmd, if_neg (by omega), if_neg (by omega), if_neg (by omega)]

theorem takeException_tlbehi (s : State) (x : Exc) (badv : Word) : (s.takeException x badv).csr.tlbehi =
    if x.recordsVppn then setField s.csr.tlbehi 13 (getField badv 13 19) else s.csr.tlbehi := rfl

/-- The exceptions that record the page number, as a list (R128, R136). -/
theorem recordsVppn_iff (x : Exc) : x.recordsVppn = true ↔ x ∈ [Exc.tlbr, .pil, .pis, .pif, .pme, .ppi] := by
  cases x <;> decide

/-- The exceptions that record the address, as a list (R136). -/
theorem recordsBadv_iff (x : Exc) :
    x.recordsBadv = true ↔ x ∈ [Exc.tlbr, .pil, .pis, .pif, .pme, .ppi, .adef, .adem, .ale] := by
  cases x <;> decide

/-- An entry address is 64-byte aligned: its low six bits are cleared (R136, R137). -/
theorem and_entryMask (w : Word) : w &&& 0xFFFFFFC0#32 = w.extractLsb' 6 26 ++ 0#6 := by
  apply BitVec.eq_of_getLsbD_eq
  intro k hk
  have hmask : (0xFFFFFFC0#32).getLsbD k = decide (6 ≤ k) := by interval_cases k <;> rfl
  rw [BitVec.getLsbD_and, BitVec.getLsbD_append, hmask]
  split
  · next h => simp [show ¬ 6 ≤ k by omega]
  · next h =>
    rw [BitVec.getLsbD_extractLsb', Nat.add_sub_cancel' (by omega)]
    simp [show 6 ≤ k by omega, show k - 6 < 26 by omega]

theorem entryOf_tlbr (s : State) : s.entryOf .tlbr = s.csr.tlbrentry.extractLsb' 6 26 ++ 0#6 :=
  and_entryMask s.csr.tlbrentry

theorem entryOf_of_ne_tlbr (s : State) {x : Exc} (h : x ≠ .tlbr) :
    s.entryOf x = s.csr.eentry.extractLsb' 6 26 ++ 0#6 := by
  rw [State.entryOf, if_neg h]
  exact and_entryMask s.csr.eentry

/-- Trap entry writes six CSRs and the pc, and nothing else (R136). -/
theorem takeException_frame (s : State) (x : Exc) (badv : Word) :
    Frame [] [.prmd, .crmd, .era, .estat, .badv, .tlbehi] s (s.takeException x badv) where
  regs_kept r _ := readReg_takeException s x badv r
  csrs_kept c hc := by
    cases c
    case prmd | crmd | era | estat | badv | tlbehi => exact absurd (by decide) hc
    all_goals rfl
  params_kept := rfl
  env_kept := rfl

theorem takeException_sameStores (s : State) (x : Exc) (badv : Word) : SameStores s (s.takeException x badv) :=
  ⟨rfl, cache_takeException s x badv, fun _ => rfl, rfl⟩

theorem takeException_sameLink (s : State) (x : Exc) (badv : Word) : SameLink s (s.takeException x badv) := ⟨rfl, rfl⟩

/-- Settles O46: the fetch answers what its translation does, and trap entry, field by field. -/
theorem trapEntryWrites : Obligations.TrapEntryWrites := by
  unfold Obligations.TrapEntryWrites
  constructor
  · rintro s _ hs rfl hlevel hidle hint hpc
    rw [step_of_coreSteps hs]
    obtain ⟨-, hraise, hrefuse⟩ := coreStep_fetches (already := s.wakes) hlevel hidle hint
    exact ⟨fun x ht => hraise x (fetch_raise.mpr (.inr ⟨hpc, .inl ht⟩)),
      fun r ht => hrefuse r (fetch_of_translate_refuse hpc ht)⟩
  · rintro s _ x badv rfl
    refine ⟨takeException_pplv s x badv, takeException_pie s x badv, fun _ => getLsbD_takeException_prmd s x badv,
      takeException_plv s x badv, takeException_ie s x badv, rfl, takeException_ecode s x badv,
      takeException_esubcode s x badv, fun _ => getLsbD_takeException_estat s x badv, fun hx => ?_, fun hx => ?_,
      fun hx => ?_, fun hx => ?_, ?_, fun hx => ?_, fun _ => getLsbD_takeException_crmd s x badv,
      takeException_frame s x badv, takeException_sameStores s x badv, takeException_sameLink s x badv⟩
    · rw [takeException_badv, if_pos ((recordsBadv_iff x).mpr hx)]
    · rw [takeException_badv, if_neg (mt (recordsBadv_iff x).mp hx)]
    · rw [takeException_tlbehi, if_pos ((recordsVppn_iff x).mpr hx)]
      exact ⟨getField_setField_same _ _ _ (by omega), getField_setField_other _ _ _ _ _ (by omega)⟩
    · rw [takeException_tlbehi, if_neg (mt (recordsVppn_iff x).mp hx)]
    · rintro rfl
      exact ⟨takeException_da s .tlbr badv, takeException_pg s .tlbr badv, entryOf_tlbr s⟩
    · exact ⟨(takeException_da s x badv).trans (if_neg hx), (takeException_pg s x badv).trans (if_neg hx),
        entryOf_of_ne_tlbr s hx⟩

end Sys2Proof.Machine
end

section
/-! PROOFS. The registers, the CSRs and the reset state (O6, O7, O55). -/

namespace Sys2Proof.Machine

/-- Settles O6: the four clauses are the cases of reading after a write. -/
theorem registerReadAfterWrite : Obligations.RegisterReadAfterWrite := by
  unfold Obligations.RegisterReadAfterWrite
  intro s r r' v
  refine ⟨readReg_zero s, ?_, fun hr => ?_, fun hne => ?_⟩
  · rw [readReg_writeReg, if_neg fun h => h.2 rfl]
  · rw [readReg_writeReg, if_pos ⟨rfl, hr⟩]
  · rw [readReg_writeReg, if_neg fun h => hne h.1]

/-- A software write changes exactly the bits of the write mask (R14). -/
theorem getBit_writeCsr (s : State) {c : Csr} (v : Word) (hc : c ≠ .llbctl) {k : Nat} (hk : k < 32) :
    getBit ((s.writeCsr c v).readCsr c) k =
      if getBit (writeMask s.params c) k then getBit v k else getBit (s.readCsr c) k := by
  rw [readCsr_writeCsr_same s c v hc]
  exact getLsbD_maskedWrite s.params c v _ k hk

/-- What LLBCTL reads as, bit by bit (R25). -/
theorem getLsbD_llbctl (s : State) {k : Nat} (hk : k < 32) :
    (s.readCsr .llbctl).getLsbD k = if k = 2 then s.csr.klo else if k = 0 then s.llbit else false := by
  simp only [State.readCsr, getLsbD_setBit, hk, and_true, BitVec.getLsbD_zero]
  by_cases h0 : k = 0
  · simp [h0]
  · simp [h0]

/-- Settles O7: the two tables are evaluated, and a write is R14's masked one, or R25's. -/
theorem csrNumbersAndMasks : Obligations.CsrNumbersAndMasks := by
  unfold Obligations.CsrNumbersAndMasks
  exact ⟨rfl, rfl, by decide, fun s c v hc k hk => getBit_writeCsr s v hc hk, fun s v => ⟨rfl, rfl⟩,
    fun s k hk => getLsbD_llbctl s hk⟩

/-! The state after power-on (R151). -/

theorem cache_resetWith (p : Params) (m : Memory) (c : CacheId) : (State.resetWith p m).cache c = [] := by
  cases c <;> rfl

theorem ppnFits_zero (p : Params) : ppnFits p 0#24 := BitVec.zero_and

/-- Every CSR is zero after reset but CRMD, whose DA is writable, and ASID, whose ASIDBITS is hard-wired. -/
theorem wiredWord_resetWith (p : Params) (m : Memory) (c : Csr) : WiredWord p c ((State.resetWith p m).readCsr c) := by
  cases c
  case crmd =>
    change WiredWord p .crmd 0x00000008#32
    simp only [WiredWord, liveBits, writeMask, wiredBits]; rfl
  case asid =>
    change WiredWord p .asid 0x000A0000#32
    simp only [WiredWord, liveBits, writeMask, wiredBits]; rfl
  case llbctl => exact wiredWord_llbctl p false false
  all_goals exact .zero (by decide)

/-- Settles O55, clause by clause of the invariant. -/
theorem resetStateIsLegal : Obligations.ResetStateIsLegal := by
  unfold Obligations.ResetStateIsLegal
  intro p m hp hm hmap
  exact {
    params_wf := hp
    memory_wf := hm
    memory_mapped := hmap
    wired := wiredWord_resetWith p m
    tlb_size := List.length_replicate
    ppns_fit := fun e he => by
      rw [List.eq_of_mem_replicate he]
      exact ⟨ppnFits_zero p, ppnFits_zero p⟩
    caches_sorted := fun c => by rw [cache_resetWith]; exact .nil
    lines_legal := fun c x hx => by rw [cache_resetWith] at hx; exact absurd hx List.not_mem_nil }

end Sys2Proof.Machine
end

section
/-! PROOFS. The direct mapping windows, and the packing of a page-table entry (O10, O29). -/

namespace Sys2Proof.Machine

/-- When a window takes an address, in bits (R30, R48). -/
theorem windowTakes_iff (w va : Word) (plv : BitVec 2) : windowTakes w va plv = true ↔
    va.extractLsb' 29 3 = w.extractLsb' 29 3 ∧
      ((plv = 0#2 ∧ w.getLsbD 0 = true) ∨ (plv = 3#2 ∧ w.getLsbD 3 = true)) := by
  simp only [windowTakes, getField, getBit, Bool.and_eq_true, Bool.or_eq_true, beq_iff_eq]

/-- `{PSEG, va[28:0]}` as a number (R48). -/
theorem windowAddr_toNat (w va : Word) :
    (windowAddr w va).toNat = (w.extractLsb' 25 3).toNat * 2 ^ 29 + va.toNat % 2 ^ 29 := by
  have hlow : (va.extractLsb' 0 29).toNat = va.toNat % 2 ^ 29 := by simp
  rw [windowAddr, getField, getField, BitVec.toNat_setWidth_of_le (by omega), BitVec.toNat_append,
    ← Nat.shiftLeft_add_eq_or_of_lt (BitVec.isLt _), Nat.shiftLeft_eq, hlow]

/-- Translation in mapped mode (R48). -/
theorem translate_window0 {s : State} {va : Word} (hda : s.da = false) (hpg : s.pg = true)
    (h : windowTakes s.csr.dmw0 va s.plv = true) (k : Access) :
    translate s va k = .pa (toPhys s.params (windowAddr s.csr.dmw0 va)) := by
  simp [translate, hda, hpg, h]

theorem translate_window1 {s : State} {va : Word} (hda : s.da = false) (hpg : s.pg = true)
    (h0 : windowTakes s.csr.dmw0 va s.plv = false) (h1 : windowTakes s.csr.dmw1 va s.plv = true) (k : Access) :
    translate s va k = .pa (toPhys s.params (windowAddr s.csr.dmw1 va)) := by
  simp [translate, hda, hpg, h0, h1]

/-- The physical address a window gives, as a number (R48, log 24). -/
theorem toPhys_windowAddr_toNat (p : Params) (w va : Word) : (toPhys p (windowAddr w va)).toNat =
    ((w.extractLsb' 25 3).toNat * 2 ^ 29 + va.toNat % 2 ^ 29) % 2 ^ p.palen := by
  rw [toPhys_toNat, windowAddr_toNat]

/-- Settles O10: DMW0 is tried first, DMW1 where it does not take the address. -/
theorem translateThroughWindows : Obligations.TranslateThroughWindows := by
  unfold Obligations.TranslateThroughWindows
  intro s va k hda hpg
  dsimp only
  rw [← windowTakes_iff, ← windowTakes_iff, Bool.not_eq_true]
  exact ⟨fun h0 => ⟨_, translate_window0 hda hpg h0 k, toPhys_windowAddr_toNat _ _ _⟩,
    fun h0 h1 => ⟨_, translate_window1 hda hpg h0 h1 k, toPhys_windowAddr_toNat _ _ _⟩⟩

/-! The TLBELO word field by field (R22, R94). -/

theorem eloWord_plv (p : Params) (pg : Page) (g : Bool) : (eloWord p pg g).extractLsb' 2 2 = pg.plv := by
  ext k hk
  rw [BitVec.getElem_extractLsb', getLsbD_eloWord, if_neg (by omega), if_neg (by omega), if_pos (by omega),
    Nat.add_sub_cancel_left, BitVec.getLsbD_eq_getElem]

theorem eloWord_mat (p : Params) (pg : Page) (g : Bool) : (eloWord p pg g).extractLsb' 4 2 = pg.mat := by
  ext k hk
  rw [BitVec.getElem_extractLsb', getLsbD_eloWord, if_neg (by omega), if_neg (by omega), if_neg (by omega),
    if_pos (by omega), Nat.add_sub_cancel_left, BitVec.getLsbD_eq_getElem]

/-- From bit 8 up stands the page number, as many bits of it as PALEN leaves. -/
theorem getLsbD_eloWord_ppn (p : Params) (pg : Page) (g : Bool) (k : Nat) :
    (eloWord p pg g).getLsbD (8 + k) = (pg.ppn.getLsbD k && decide (k < p.palen - 12)) := by
  rw [getLsbD_eloWord, if_neg (by omega), if_neg (by omega), if_neg (by omega), if_neg (by omega),
    if_neg (by omega), if_neg (by omega), Nat.add_sub_cancel_left]

/-- A page number that fits PALEN has zeros above it (R22). -/
theorem getLsbD_of_ppnFits {p : Params} {n : Ppn} (h : ppnFits p n) {k : Nat} (hk : p.palen - 12 ≤ k) :
    n.getLsbD k = false := by
  by_cases h24 : k < 24
  · have hbit : (n &&& ~~~lowMask 24 (p.palen - 12)).getLsbD k = (0#24).getLsbD k := congrArg (·.getLsbD k) h
    rw [BitVec.getLsbD_and, BitVec.getLsbD_not, getLsbD_lowMask, decide_eq_true h24,
      decide_eq_false (Nat.not_lt.mpr hk), BitVec.getLsbD_zero] at hbit
    simpa using hbit
  · exact BitVec.getLsbD_of_ge _ _ (by omega)

/-- The page number read back from the word is the one packed, kept to PALEN. -/
theorem ofElo_eloWord_ppn {p : Params} {pg : Page} (h : ppnFits p pg.ppn) (g : Bool) :
    (Page.ofElo p (eloWord p pg g)).ppn = pg.ppn := by
  apply BitVec.eq_of_getLsbD_eq
  intro k hk
  simp only [Page.ofElo, getField, BitVec.getLsbD_and, BitVec.getLsbD_extractLsb', getLsbD_lowMask,
    getLsbD_eloWord_ppn]
  by_cases hfit : k < p.palen - 12
  · simp [hk, hfit]
  · simp [hfit, getLsbD_of_ppnFits h (Nat.not_lt.mp hfit)]

theorem ofElo_eloWord {p : Params} {pg : Page} (h : ppnFits p pg.ppn) (g : Bool) :
    Page.ofElo p (eloWord p pg g) = pg := by
  have hv : getBit (eloWord p pg g) 0 = pg.v := getLsbD_eloWord p pg g 0
  have hd : getBit (eloWord p pg g) 1 = pg.d := getLsbD_eloWord p pg g 1
  calc Page.ofElo p (eloWord p pg g)
      = { v := getBit (eloWord p pg g) 0, d := getBit (eloWord p pg g) 1,
          plv := (eloWord p pg g).extractLsb' 2 2, mat := (eloWord p pg g).extractLsb' 4 2,
          ppn := (Page.ofElo p (eloWord p pg g)).ppn } := rfl
    _ = pg := by rw [hv, hd, eloWord_plv, eloWord_mat, ofElo_eloWord_ppn h]

/-- Settles O29: the fields lie side by side, and each is read back. -/
theorem eloWordPacks : Obligations.EloWordPacks := by
  unfold Obligations.EloWordPacks
  intro p pg g hp
  have hpalen : 13 ≤ p.palen := by
    simp only [Params.wf, Bool.and_eq_true, decide_eq_true_eq] at hp
    omega
  refine ⟨getLsbD_eloWord p pg g 0, getLsbD_eloWord p pg g 1, eloWord_plv p pg g, eloWord_mat p pg g,
    getLsbD_eloWord p pg g 6, getLsbD_eloWord p pg g 7, fun k hk => ?_, fun k hk => ?_, fun h => ofElo_eloWord h g⟩
  · rw [getLsbD_eloWord_ppn, decide_eq_true hk, Bool.and_true]
  · obtain ⟨j, rfl⟩ : ∃ j, k = 8 + j := ⟨k - 8, by omega⟩
    rw [getLsbD_eloWord_ppn, decide_eq_false (by omega), Bool.and_false]

end Sys2Proof.Machine
end

section
/-! PROOFS. Waiting, the refusal at an illegal level and the sampled inputs (O40, O42, O58). -/

namespace Sys2Proof.Machine

/-! What the sampling of the inputs leaves as it was (R131): all but ESTAT and the list of events. -/

@[simp] theorem sampled_params (s : State) : s.sampled.params = s.params := by unfold State.sampled; split <;> rfl
@[simp] theorem sampled_pc (s : State) : s.sampled.pc = s.pc := by unfold State.sampled; split <;> rfl
@[simp] theorem sampled_idle (s : State) : s.sampled.idle = s.idle := by unfold State.sampled; split <;> rfl
@[simp] theorem sampled_plv (s : State) : s.sampled.plv = s.plv := by unfold State.sampled; split <;> rfl

theorem sampled_of_lines {s : State} {hwi : BitVec 8} {ti ipi : Bool} {env : List EnvEvent}
    (h : s.env = .lines hwi ti ipi :: env) : s.sampled = { s with env := env }.sampleLines hwi ti ipi := by
  rw [State.sampled, h]

theorem sampled_of_no_lines {s : State} (h : ∀ hwi ti ipi env, s.env ≠ .lines hwi ti ipi :: env) :
    s.sampled = s := by
  unfold State.sampled
  split
  · next hwi ti ipi env henv => exact absurd henv (h hwi ti ipi env)
  · rfl
  · rfl

/-- One sample takes no second where no event is left. -/
theorem sampled_of_env_nil {s : State} (h : s.env = []) : s.sampled = s :=
  sampled_of_no_lines (by simp [h])

/-- ESTAT with the inputs sampled, bit by bit (R19, R131). -/
theorem getLsbD_sampleLines_estat (s : State) (hwi : BitVec 8) (ti ipi : Bool) {k : Nat} (hk : k < 32) :
    (s.sampleLines hwi ti ipi).csr.estat.getLsbD k =
      if k = 12 then ipi else if k = 11 then ti
      else if 2 ≤ k ∧ k < 10 then hwi.getLsbD (k - 2) else s.csr.estat.getLsbD k := by
  simp only [State.sampleLines, getLsbD_setBit, getLsbD_setField, hk, and_true]

/-- Whether the wait was to end already matters to a waiting core only (R112). -/
theorem coreStep_of_not_idle {s : State} (h : s.idle = false) (b b' : Bool) : coreStep b s = coreStep b' s := by
  simp only [coreStep, h, Bool.false_eq_true, if_false]

/-- The step of a core that is not waiting is the step of the sampled state when no other event is listed. -/
theorem step_sampled {s : State} (hs : CoreSteps s) (henv : s.sampled.env = []) (hidle : s.idle = false) :
    step s = step s.sampled := by
  have hcore : CoreSteps s.sampled := by simp [CoreSteps, henv]
  rw [step_of_coreSteps hs, step_of_coreSteps hcore, sampled_of_env_nil henv]
  exact coreStep_of_not_idle (by rw [sampled_idle, hidle]) _ _

/-- Settles O58: the sampling writes one field and two bits of ESTAT. -/
theorem interruptInputsSampled : Obligations.InterruptInputsSampled := by
  unfold Obligations.InterruptInputsSampled
  refine fun s => ⟨fun hwi ti ipi env henv => ?_, sampled_of_no_lines⟩
  have hsampled := sampled_of_lines henv
  have hbit := fun k (hk : k < 32) => getLsbD_sampleLines_estat { s with env := env } hwi ti ipi hk
  rw [← hsampled] at hbit
  refine ⟨?_, hbit 11 (by omega), hbit 12 (by omega), fun k hk => ?_, ?_, ?_, fun hlast hidle => ?_⟩
  · ext k hk
    rw [BitVec.getElem_extractLsb', hbit (2 + k) (by omega), if_neg (by omega), if_neg (by omega),
      if_pos (by omega), Nat.add_sub_cancel_left, BitVec.getLsbD_eq_getElem]
  · by_cases h32 : k < 32
    · rw [hbit k h32, if_neg (by omega), if_neg (by omega), if_neg (by omega)]
    · rw [BitVec.getLsbD_of_ge _ _ (by omega), BitVec.getLsbD_of_ge _ _ (by omega)]
  · rw [hsampled, sampleLines_env]
  · rw [hsampled]; rfl
  · refine step_sampled (fun env' => ?_) (by rw [hsampled, sampleLines_env, hlast]) hidle
    rw [henv]; simp

/-! A level that is none (R120, U6). -/

theorem atPlv0_illegal {s : State} (h : s.level = .illegal) (body : Host.Outcome State Fault Refusal) :
    s.atPlv0 body = .refused .illegalPlv := by
  simp only [State.atPlv0, h]

theorem atAnyPlv_illegal {s : State} (h : s.level = .illegal) (body : Host.Outcome State Fault Refusal) :
    s.atAnyPlv body = .refused .illegalPlv := by
  simp only [State.atAnyPlv, h]

theorem coreStep_illegal {s : State} (h : s.level = .illegal) (already : Bool) :
    coreStep already s = .refused .illegalPlv := by
  rw [coreStep, if_pos h]

/-- Every instruction stands behind a privilege check, which refuses (R122). -/
theorem exec_illegal {s : State} (h : s.level = .illegal) (i : Instr) : exec i s = .refused .illegalPlv := by
  cases i with
  | cacop code rj si12 =>
    simp only [exec, execCacop]
    split
    · exact atAnyPlv_illegal h _
    · exact atPlv0_illegal h _
  | invtlb op rj rk =>
    simp only [exec, execInvtlb]
    split
    · simp only [undefinedInvtlb, h]
    · exact atPlv0_illegal h _
  | _ => exact atPlv0_illegal h _

/-- Settles O42: the step of the core looks at the level first, and so does every instruction. -/
theorem illegalLevelRefused : Obligations.IllegalLevelRefused := by
  unfold Obligations.IllegalLevelRefused
  refine ⟨fun s hs hplv => ?_, fun s i hplv => exec_illegal (level_illegal.mpr hplv) i⟩
  rw [step_of_coreSteps hs]
  exact coreStep_illegal (level_illegal.mpr hplv) _

/-! The wake condition (R113): between an interrupt that will be taken and a pending one. -/

theorem InterruptEnabled.pending {s : State} (h : InterruptEnabled s) : InterruptPending s := by
  obtain ⟨k, hk, h10, hestat, -⟩ := h
  exact ⟨k, hk, h10, hestat⟩

theorem wakes_anyPending {s : State} (h : s.params.idleWake = .anyPending) :
    s.wakes = true ↔ InterruptPending s := by
  rw [← pending_ne_zero, ← bne_iff_ne]
  simp only [State.wakes, h]

theorem wakes_locallyEnabled {s : State} (h : s.params.idleWake = .locallyEnabled) :
    s.wakes = true ↔ InterruptEnabled s := by
  rw [← intVec_ne_zero, ← bne_iff_ne]
  simp only [State.wakes, h]

theorem wakes_taken {s : State} (h : s.params.idleWake = .taken) : s.wakes = true ↔ InterruptDue s := by
  rw [← takesInterrupt_iff]
  simp only [State.wakes, h]

theorem wakes_unstated {s : State} (h : s.params.idleWake = .unstated) :
    s.wakes = true ↔ InterruptDue s ∨ (InterruptPending s ∧ Config.freeWake s.draws = true) := by
  rw [← takesInterrupt_iff, ← pending_ne_zero, ← bne_iff_ne]
  simp only [State.wakes, h, Bool.or_eq_true, Bool.and_eq_true]

/-- Whatever IDLE_WAKE is, an interrupt that will be taken wakes. -/
theorem wakes_of_due {s : State} (h : InterruptDue s) : s.wakes = true := by
  have ⟨_, henabled⟩ := h
  cases hw : s.params.idleWake with
  | anyPending => exact (wakes_anyPending hw).mpr henabled.pending
  | locallyEnabled => exact (wakes_locallyEnabled hw).mpr henabled
  | taken => exact (wakes_taken hw).mpr h
  | unstated => exact (wakes_unstated hw).mpr (.inl h)

/-- Whatever IDLE_WAKE is, nothing wakes while no interrupt is pending. -/
theorem pending_of_wakes {s : State} (h : s.wakes = true) : InterruptPending s := by
  cases hw : s.params.idleWake with
  | anyPending => exact (wakes_anyPending hw).mp h
  | locallyEnabled => exact ((wakes_locallyEnabled hw).mp h).pending
  | taken =>
    obtain ⟨-, henabled⟩ := (wakes_taken hw).mp h
    exact henabled.pending
  | unstated =>
    obtain ⟨-, henabled⟩ | ⟨hpending, -⟩ := (wakes_unstated hw).mp h
    · exact henabled.pending
    · exact hpending

/-- The step of the waiting core (R113). -/
theorem step_of_waiting {s : State} (hs : CoreSteps s) (hlevel : LegalLevel s.sampled) (hidle : s.sampled.idle = true) :
    step s = .next (s.sampled.waitStep s.wakes) := by
  rw [step_of_coreSteps hs, coreStep, if_neg (level_of_legal hlevel), if_pos hidle]

/-- The wait ends on the condition before the sample or after it (R112, R113; log 29). -/
theorem waitStep_idle_false {u : State} {already : Bool} :
    (u.waitStep already).idle = false ↔ already = true ∨ u.wakes = true := by
  rw [waitStep_idle, Bool.not_eq_false', Bool.or_eq_true]

theorem waitStep_frame (u : State) (already : Bool) : Frame [] [] u (u.waitStep already) where
  regs_kept r _ := readReg_waitStep u already r
  csrs_kept c _ := readCsr_waitStep u already c
  params_kept := rfl
  env_kept := rfl

/-- IDLE changes nothing its own wake condition looks at (R112). -/
theorem wakes_entering_idle (s : State) : State.wakes { s.advance with idle := true } = s.wakes := rfl

/-- Settles O40: the waiting step ends the wait on the wake condition, taken before and after the sample, which
follows from an interrupt due and implies one pending. -/
theorem waitingCoreWakes : Obligations.WaitingCoreWakes := by
  unfold Obligations.WaitingCoreWakes
  constructor
  · rintro s _ hs rfl hlevel hidle
    have hparams := sampled_params s
    refine ⟨_, step_of_waiting hs hlevel hidle, fun hdue => ?_, fun hwoken => ?_, fun hw => ?_, fun hw => ?_,
      fun hw => ?_, rfl, waitStep_frame _ _, rfl, cache_waitStep _ _, fun _ => rfl, ⟨rfl, rfl⟩⟩
    · exact waitStep_idle_false.mpr (hdue.imp wakes_of_due wakes_of_due)
    · exact (waitStep_idle_false.mp hwoken).imp pending_of_wakes pending_of_wakes
    · rw [waitStep_idle_false, wakes_anyPending hw, wakes_anyPending (hparams ▸ hw)]
    · rw [waitStep_idle_false, wakes_locallyEnabled hw, wakes_locallyEnabled (hparams ▸ hw)]
    · rw [waitStep_idle_false, wakes_taken hw, wakes_taken (hparams ▸ hw)]
  · intro s t level hplv hexec ht hcond
    have hwakes : s.wakes = true := by
      obtain hdue | ⟨hw, hpending⟩ | ⟨hw, henabled⟩ := hcond
      · exact wakes_of_due hdue
      · exact (wakes_anyPending hw).mpr hpending
      · exact (wakes_locallyEnabled hw).mpr henabled
    obtain ⟨-, rfl⟩ | ⟨hplv3, -⟩ := (execIdle_next (level := level)).mp hexec
    · have hlevel : LegalLevel (State.sampled { s.advance with idle := true }) := .inl ((sampled_plv _).trans hplv)
      refine ⟨_, rfl, step_of_waiting ht hlevel (sampled_idle _), ?_, sampled_pc _⟩
      exact waitStep_idle_false.mpr (.inl ((wakes_entering_idle s).trans hwakes))
    · rw [hplv] at hplv3
      exact absurd hplv3 (by decide)

end Sys2Proof.Machine
end

section
/-! PROOFS. The parameters and the events to come, under every instruction and every step (O57). -/

namespace Sys2Proof.Machine

/-- What only the environment may change is as it was: the parameters (R4, log 8) and the events to come
(log 9). -/
structure SameSetup (s t : State) : Prop where
  params_kept : t.params = s.params
  env_kept : t.env = s.env

namespace SameSetup

variable {s t : State}

theorem refl (s : State) : SameSetup s s := ⟨rfl, rfl⟩

theorem advance (h : SameSetup s t) : SameSetup s t.advance := ⟨h.params_kept, h.env_kept⟩

theorem tick (h : SameSetup s t) : SameSetup s t.tick := ⟨h.params_kept, h.env_kept⟩

theorem writeReg (h : SameSetup s t) (r : RegNum) (v : Word) : SameSetup s (t.writeReg r v) :=
  ⟨(writeReg_params t r v).trans h.params_kept, (writeReg_env t r v).trans h.env_kept⟩

theorem putCsr (h : SameSetup s t) (c : Csr) (v : Word) : SameSetup s (t.putCsr c v) :=
  ⟨(putCsr_params t c v).trans h.params_kept, (putCsr_env t c v).trans h.env_kept⟩

theorem csrWrite (h : SameSetup s t) (n : CsrNum) (v : Word) : SameSetup s (csrWrite n v t) := by
  obtain ⟨c, -, hc⟩ | ht := csrWrite_cases n v t
  · rw [hc]
    exact ⟨(writeCsr_params t c v).trans h.params_kept, (writeCsr_env t c v).trans h.env_kept⟩
  · rw [ht]
    exact h

theorem csrRead {n : CsrNum} {v : Word} (h : csrRead n s = .ok (v, t)) : SameSetup s t := by
  obtain ⟨c, -, -, rfl⟩ | ⟨-, -, rfl⟩ := csrRead_ok h
  · exact refl _
  · exact (refl s).tick

theorem takeException (h : SameSetup s t) (x : Exc) (badv : Word) : SameSetup s (t.takeException x badv) :=
  ⟨h.params_kept, h.env_kept⟩

theorem fillEntry (h : SameSetup s t) (i : Nat) : SameSetup s (t.fillEntry i) := ⟨h.params_kept, h.env_kept⟩

theorem readTlbEntry (h : SameSetup s t) (e : TlbEntry) : SameSetup s (t.readTlbEntry e) :=
  ⟨(readTlbEntry_params t e).trans h.params_kept, (readTlbEntry_env t e).trans h.env_kept⟩

end SameSetup

theorem cacopBody_sameSetup {code : BitVec 5} {va : Word} {s t : State} (ht : cacopBody code va s = .next t) :
    SameSetup s t := by
  obtain ⟨c, -, ⟨-, rfl⟩ | ⟨-, rfl⟩ | ⟨-, ⟨a, -, rfl⟩ | ⟨x, -, rfl⟩⟩ | ⟨-, -, rfl⟩⟩ := cacopBody_next.mp ht
  · exact ⟨storeTag_params s c va, storeTag_env s c va⟩
  · exact ⟨indexInvalidate_params s c va, indexInvalidate_env s c va⟩
  · exact ⟨hitInvalidate_params s c a, hitInvalidate_env s c a⟩
  · exact (SameSetup.refl s).takeException x va
  · exact ⟨customCacop_params s c va, customCacop_env s c va⟩

theorem exec_sameSetup {i : Instr} {s t : State} (ht : exec i s = .next t) : SameSetup s t := by
  have hraise : ∀ x, SameSetup s (s.raise x) := fun x => (SameSetup.refl s).takeException x _
  cases i with
  | csrrd rd n =>
    obtain ⟨-, v, s', hr, rfl⟩ | ⟨-, rfl⟩ := execCsrrd_next.mp ht
    · exact ((SameSetup.csrRead hr).writeReg rd v).advance
    · exact hraise _
  | csrwr rd n =>
    obtain ⟨-, old, s', hr, rfl⟩ | ⟨-, rfl⟩ := execCsrwr_next.mp ht
    · exact (((SameSetup.csrRead hr).csrWrite n _).writeReg rd old).advance
    · exact hraise _
  | csrxchg rd rj n =>
    obtain ⟨-, old, s', hr, rfl⟩ | ⟨-, rfl⟩ := execCsrxchg_next.mp ht
    · exact (((SameSetup.csrRead hr).csrWrite n _).writeReg rd old).advance
    · exact hraise _
  | cacop code rj si12 =>
    obtain ⟨-, hb⟩ | ⟨-, -, rfl⟩ := execCacop_next.mp ht
    · exact cacopBody_sameSetup hb
    · exact hraise _
  | tlbsrch =>
    obtain ⟨-, ⟨-, rfl⟩ | ⟨i, -, rfl⟩⟩ | ⟨-, rfl⟩ := execTlbsrch_next.mp ht
    · exact ((SameSetup.refl s).putCsr .tlbidx _).advance
    · exact ((SameSetup.refl s).putCsr .tlbidx _).advance
    · exact hraise _
  | tlbrd =>
    obtain ⟨-, rfl⟩ | ⟨-, rfl⟩ := execTlbrd_next.mp ht
    · exact ((SameSetup.refl s).readTlbEntry _).advance
    · exact hraise _
  | tlbwr =>
    obtain ⟨-, rfl⟩ | ⟨-, rfl⟩ := execTlbwr_next.mp ht
    · exact ((SameSetup.refl s).fillEntry _).advance
    · exact hraise _
  | tlbfill =>
    obtain ⟨-, rfl⟩ | ⟨-, rfl⟩ := execTlbfill_next.mp ht
    · exact ((SameSetup.refl s).fillEntry _).tick.advance
    · exact hraise _
  | invtlb op rj rk =>
    obtain ⟨-, ⟨-, rfl⟩ | ⟨-, rfl⟩⟩ | ⟨o, -, ⟨-, -, tlb, -, rfl⟩ | ⟨-, rfl⟩⟩ := execInvtlb_next.mp ht
    · exact hraise _
    · exact (SameSetup.refl s).tick.takeException _ _
    · exact ⟨rfl, rfl⟩
    · exact hraise _
  | ertn =>
    obtain ⟨-, rfl⟩ | ⟨-, rfl⟩ := execErtn_next.mp ht
    · exact ⟨exceptionReturn_params s, exceptionReturn_env s⟩
    · exact hraise _
  | idle level =>
    obtain ⟨-, rfl⟩ | ⟨-, rfl⟩ := (execIdle_next (level := level)).mp ht
    · exact ⟨rfl, rfl⟩
    · exact hraise _

theorem coreStep_sameSetup {already : Bool} {s t : State} (ht : coreStep already s = .next t) : SameSetup s t := by
  obtain ⟨-, ⟨-, rfl⟩ | ⟨-, -, rfl⟩ | ⟨-, -, ⟨i, -, he⟩ | ⟨x, -, rfl⟩⟩⟩ := coreStep_next ht
  · exact ⟨waitStep_params s already, waitStep_env s already⟩
  · exact (SameSetup.refl s).takeException .int _
  · exact exec_sameSetup he
  · exact (SameSetup.refl s).takeException x _

/-- Where no reset event comes the sample takes the next event, if there is one (R131). -/
theorem sampled_env {s : State} (h : CoreSteps s) : s.sampled.env = s.env.tail := by
  unfold State.sampled
  split
  · next henv => rw [henv]; rfl
  · next env henv => exact absurd henv (h env)
  · next henv => rw [henv]; rfl

/-- Settles O57: the sample and the reset event take the event, and nothing else in a step touches the list or
the parameters. -/
theorem stepKeepsParametersTakesOneEvent : Obligations.StepKeepsParametersTakesOneEvent := by
  unfold Obligations.StepKeepsParametersTakesOneEvent
  intro s t ht
  obtain ⟨env, henv, rfl⟩ | ⟨hcore, hstep⟩ := step_next ht
  · exact ⟨resetEvent_params _, by rw [resetEvent_env, henv]; rfl⟩
  · obtain ⟨hparams, hevents⟩ := coreStep_sameSetup hstep
    exact ⟨hparams.trans (sampled_params s), hevents.trans (sampled_env hcore)⟩

end Sys2Proof.Machine
end

section
/-! PROOFS. Memory accesses of several bytes, and the word a fetch reads (O8). -/

namespace Sys2Proof.Machine

theorem pow256_eq (n : Nat) : 256 ^ n = 2 ^ (8 * n) := (Nat.pow_mul 2 8 n).symm

/-- Little-endian bytes stand for a number of as many bytes (R42). -/
theorem leNat_lt (bs : List Byte) : leNat bs < 256 ^ bs.length := by
  induction bs with
  | nil => exact Nat.one_pos
  | cons b bs ih =>
    have hb : b.toNat < 256 := b.isLt
    rw [leNat, List.length_cons, Nat.pow_succ']
    omega

/-- Byte `k` of the number little-endian bytes stand for is the `k`-th of them (R42). -/
theorem byte_of_leNat (bs : List Byte) : ∀ k (h : k < bs.length), BitVec.ofNat 8 (leNat bs / 256 ^ k) = bs[k] := by
  induction bs with
  | nil => exact fun k h => absurd h (Nat.not_lt_zero k)
  | cons b bs ih =>
    intro k h
    have hb : b.toNat < 256 := b.isLt
    cases k with
    | zero =>
      apply BitVec.eq_of_toNat_eq
      rw [leNat, BitVec.toNat_ofNat, List.getElem_cons_zero]
      omega
    | succ k =>
      have hdiv : leNat (b :: bs) / 256 = leNat bs := by rw [leNat]; omega
      rw [Nat.pow_succ', ← Nat.div_div_eq_div_mul, hdiv, List.getElem_cons_succ]
      exact ih k (Nat.lt_of_succ_lt_succ h)

/-- A write puts byte `k` of the number at the address plus `k`, and leaves every other byte (R42). -/
theorem readByte_memWrite {m : Memory} (hm : m.wf) (a n v x : Nat) :
    (memWrite m a n v).readByte x =
      if a ≤ x ∧ x < a + n then some (BitVec.ofNat 8 (v / 256 ^ (x - a))) else m.readByte x := by
  rw [memWrite, readByte_writeBytes _ m hm]
  simp only [leBytes_length, leBytes_getElem, dite_eq_ite]

/-- A read is the number of its bytes, each of which is known (R42). -/
theorem memRead_bytes {m : Memory} {a n v : Nat} (h : memRead m a n = some v) :
    v < 256 ^ n ∧ ∀ k, k < n → m.readByte (a + k) = some (BitVec.ofNat 8 (v / 256 ^ k)) := by
  obtain ⟨bs, hbs, rfl⟩ := Option.map_eq_some_iff.mp h
  obtain ⟨rfl, hbytes⟩ := (readBytes_eq_some m n a bs).mp hbs
  refine ⟨leNat_lt bs, fun k hk => ?_⟩
  rw [hbytes k hk, byte_of_leNat bs k hk]

/-- Settles O8: a write and a read byte by byte, and the fetch as the read it makes. -/
theorem memoryLittleEndian : Obligations.MemoryLittleEndian := by
  unfold Obligations.MemoryLittleEndian
  simp only [← pow256_eq]
  refine ⟨fun m a n v hm => ⟨fun k hk => ?_, fun x hx => ?_, memRead_memWrite m hm a n v, memWrite_wf m hm a n v⟩,
    fun m a n v h => memRead_bytes h, fun s i hf => ?_⟩
  · rw [readByte_memWrite hm, if_pos (by omega), Nat.add_sub_cancel_left]
  · rw [readByte_memWrite hm, if_neg (by omega)]
  · obtain ⟨-, hfetched⟩ := fetch_instr.mp hf
    exact hfetched

end Sys2Proof.Machine
end

section
/-! PROOFS. Translation by mode and through the TLB (O9, O11, O12, O13). -/

namespace Sys2Proof.Machine

/-- The bounds of R4 and R49, one by one. -/
theorem params_bounds {p : Params} (h : p.wf = true) :
    (13 ≤ p.palen ∧ p.palen ≤ 36) ∧ (1 ≤ p.tlbIdxLen ∧ p.tlbIdxLen ≤ 16) ∧
      ∀ ps ∈ p.psLegal, 12 ≤ ps ∧ ps ≤ 30 := by
  simp only [Params.wf, Bool.and_eq_true, decide_eq_true_eq, List.all_eq_true] at h
  obtain ⟨⟨⟨⟨hlo, hhi⟩, hidx⟩, hidx'⟩, hps⟩ := h
  exact ⟨⟨hlo, hhi⟩, ⟨hidx, hidx'⟩, hps⟩

/-! The cases of a translation (R48). -/

theorem translate_direct {s : State} (hda : s.da = true) (hpg : s.pg = false) (va : Word) (k : Access) :
    translate s va k = .pa (toPhys s.params (va.setWidth 36)) := by
  simp [translate, hda, hpg]

theorem translate_not_complementary {s : State} (h : s.da = s.pg) (va : Word) (k : Access) :
    translate s va k = .refuse .translationMode := by
  cases hpg : s.pg <;> simp [translate, h, hpg]

section ThroughTlb

variable {s : State} {va : Word} (h : ThroughTlb s va)
include h

theorem translate_of_miss (hl : s.tlbLookup va s.asid = .miss) (k : Access) :
    translate s va k = .raise .tlbr := by
  simp [translate, h.da_off, h.pg_on, h.window0, h.window1, hl]

theorem translate_of_lookup_refuse {r : Refusal} (hl : s.tlbLookup va s.asid = .refuse r) (k : Access) :
    translate s va k = .refuse r := by
  simp [translate, h.da_off, h.pg_on, h.window0, h.window1, hl]

theorem translate_of_hit {i : Nat} {e : TlbEntry} (hl : s.tlbLookup va s.asid = .hit i) (he : s.tlb[i]? = some e)
    (k : Access) : translate s va k = pageAccess s.params s.plv e va k := by
  simp [translate, h.da_off, h.pg_on, h.window0, h.window1, hl, tlbAt_of_getElem? he]

end ThroughTlb

/-- Settles O9: the two modes, as numbers. -/
theorem translateByMode : Obligations.TranslateByMode := by
  unfold Obligations.TranslateByMode
  refine fun s va k => ⟨fun hda hpg => ⟨_, translate_direct hda hpg va k, ?_⟩,
    fun h => translate_not_complementary h va k⟩
  have hva : va.toNat % 2 ^ 32 = va.toNat := Nat.mod_eq_of_lt va.isLt
  rw [toPhys_toNat, BitVec.toNat_setWidth_of_le (by omega)]
  rcases Nat.le_total s.params.palen 32 with hle | hge
  · rw [Nat.min_eq_left hle]
  · rw [Nat.min_eq_right hge, hva, Nat.mod_eq_of_lt (va.isLt.trans_le (Nat.pow_le_pow_right (by omega) hge))]

/-- Settles O12: only what the TLB translates raises, and then what the search or the page's checks raise. -/
theorem translationExceptions : Obligations.TranslationExceptions := by
  unfold Obligations.TranslationExceptions
  intro s va k x hraise
  obtain ⟨⟨hda, -, hw0, hw1⟩, hcause⟩ := translate_raise hraise
  have hx : x = .tlbr ∨ x = k.invalidPage ∨ x = .ppi ∨ (x = .pme ∧ k = .store) := by
    obtain ⟨hmiss, -⟩ | ⟨-, -, hpage⟩ := hcause
    · exact .inl hmiss
    · exact .inr hpage
  refine ⟨?_, ?_, ?_, by simp [hda], by simp [hw0, hw1]⟩ <;> rintro rfl <;>
    simpa [Access.invalidPage] using hx

/-! The page of the entry that hits (R48). -/

/-- The page number of a legal entry is not cut by PALEN (R22). -/
theorem and_lowMask_of_ppnFits {p : Params} {n : Ppn} (h : ppnFits p n) : n &&& lowMask 24 (p.palen - 12) = n := by
  apply BitVec.eq_of_getLsbD_eq
  intro k hk
  rw [BitVec.getLsbD_and, getLsbD_lowMask]
  by_cases hfit : k < p.palen - 12
  · simp [hk, hfit]
  · simp [getLsbD_of_ppnFits h (Nat.not_lt.mp hfit)]

/-- `{PPN, va[PS-1:0]}` as a number: PPN without its low PS - 12 bits stands above the offset (R48). -/
theorem pageAddr_toNat {p : Params} {n : Ppn} (hn : ppnFits p n) {ps : Nat} (hps : 12 ≤ ps) (va : Word) :
    (pageAddr p ps n va).toNat = n.toNat / 2 ^ (ps - 12) * 2 ^ ps + va.toNat % 2 ^ ps := by
  have hfits : n.toNat / 2 ^ (ps - 12) * 2 ^ ps < 2 ^ 36 := by
    have hsplit : (2 : Nat) ^ ps = 2 ^ (ps - 12) * 2 ^ 12 := by rw [← Nat.pow_add]; congr 1; omega
    calc n.toNat / 2 ^ (ps - 12) * 2 ^ ps
        = n.toNat / 2 ^ (ps - 12) * 2 ^ (ps - 12) * 2 ^ 12 := by rw [hsplit, Nat.mul_assoc]
      _ ≤ n.toNat * 2 ^ 12 := Nat.mul_le_mul_right _ (Nat.div_mul_le_self _ _)
      _ < 2 ^ 24 * 2 ^ 12 := Nat.mul_lt_mul_of_pos_right n.isLt (by decide)
      _ = 2 ^ 36 := by decide
  rw [pageAddr, and_lowMask_of_ppnFits hn, BitVec.toNat_or, toNat_and_lowMask, BitVec.toNat_shiftLeft,
    BitVec.toNat_ushiftRight, BitVec.toNat_setWidth_of_le (by omega), BitVec.toNat_setWidth_of_le (by omega),
    Nat.shiftRight_eq_div_pow, Nat.shiftLeft_eq, Nat.mod_eq_of_lt hfits, ← Nat.shiftLeft_eq,
    ← Nat.shiftLeft_add_eq_or_of_lt (Nat.mod_lt _ (Nat.two_pow_pos ps)), Nat.shiftLeft_eq]

section PageAccess

variable {p : Params} {plv : BitVec 2} {e : TlbEntry} {va : Word} {k : Access}

theorem pageAccess_invalid (hv : (e.pageOf va).v = false) : pageAccess p plv e va k = .raise k.invalidPage := by
  simp [pageAccess, hv]

theorem pageAccess_privileged (hv : (e.pageOf va).v = true) (hplv : (e.pageOf va).plv < plv) :
    pageAccess p plv e va k = .raise .ppi := by
  simp [pageAccess, hv, hplv]

theorem pageAccess_clean (hv : (e.pageOf va).v = true) (hplv : ¬ (e.pageOf va).plv < plv)
    (hd : (e.pageOf va).d = false) : pageAccess p plv e va .store = .raise .pme := by
  simp [pageAccess, hv, hplv, hd]

theorem pageAccess_granted (hv : (e.pageOf va).v = true) (hplv : ¬ (e.pageOf va).plv < plv)
    (hd : k = .store → (e.pageOf va).d = true) :
    pageAccess p plv e va k = .pa (toPhys p (pageAddr p e.ps.toNat (e.pageOf va).ppn va)) := by
  have hnot : ¬ (k = .store ∧ (e.pageOf va).d = false) := by
    rintro ⟨hk, hclean⟩
    rw [hd hk] at hclean
    cases hclean
  simp only [pageAccess, hv, hplv, hnot, Bool.not_true, Bool.false_eq_true, if_false]

end PageAccess

/-- `va[PS]` picks the page of the pair (R48). -/
theorem pageOf_eq (e : TlbEntry) (va : Word) :
    e.pageOf va = if va.getLsbD e.ps.toNat = true then e.page1 else e.page0 := rfl

/-- The page an entry gives is one of its two, so its page number fits (R26). -/
theorem ppnFits_pageOf {p : Params} {e : TlbEntry} (h : ppnFits p e.page0.ppn ∧ ppnFits p e.page1.ppn) (va : Word) :
    ppnFits p (e.pageOf va).ppn := by
  unfold TlbEntry.pageOf
  split
  · exact h.2
  · exact h.1

/-- Settles O11: the search finds what hits, and the page it finds is checked in R48's order. -/
theorem translateThroughEntries : Obligations.TranslateThroughEntries := by
  unfold Obligations.TranslateThroughEntries
  intro s va k hinv htlb hsearch
  obtain ⟨hmiss, hone, htwo⟩ := tlbLookup_of_searchable (va := va) hsearch
  refine ⟨fun hnone => translate_of_miss htlb (hmiss hnone) k,
    fun i j hij hi hj => translate_of_lookup_refuse htlb (htwo i j hij hi hj) k, ?_⟩
  intro i e he hi honly pg hpg
  rw [← pageOf_eq] at hpg
  subst hpg
  rw [translate_of_hit htlb (hone i hi honly) he]
  refine ⟨fun hv => ?_, fun hv hplv => pageAccess_privileged hv hplv, ?_, fun hv hplv hd => ?_⟩
  · rw [pageAccess_invalid hv]
    cases k <;> rfl
  · rintro hv hplv rfl hd
    exact pageAccess_clean hv (BitVec.not_lt.mpr hplv) hd
  · obtain ⟨e', he', hhits⟩ := hi
    obtain rfl : e' = e := Option.some.inj (he'.symm.trans he)
    obtain ⟨-, -, hps⟩ := params_bounds hinv.params_wf
    refine ⟨_, pageAccess_granted hv (BitVec.not_lt.mpr hplv) hd, ?_⟩
    rw [toPhys_toNat, pageAddr_toNat (ppnFits_pageOf (hinv.ppns_fit e' (List.mem_of_getElem? he)) va)
      (hps _ hhits.legal).1]

/-! An illegal page size (R49, U8). -/

theorem tlbVaMatch_illegal {p : Params} {e : TlbEntry} (h : e.ps.toNat ∉ p.psLegal) (va : Word) :
    tlbVaMatch p e va = .error .illegalPageSize :=
  tlbVaMatch_error.mpr ⟨h, rfl⟩

/-- An entry whose match is evaluated stops the search where its PS is not legal (R49; log 16). -/
theorem tlbHit_illegal {p : Params} {e : TlbEntry} {asid : BitVec 10} (hv : e.e = true)
    (hspace : e.g = true ∨ e.asid = asid) (h : e.ps.toNat ∉ p.psLegal) (va : Word) :
    tlbHit p e va asid = .error .illegalPageSize := by
  rw [tlbHit, if_pos (by simpa [hv] using hspace), tlbVaMatch_illegal h]

/-- One entry that stops the search stops it whatever the others are. -/
theorem tlbHitsFrom_stops {p : Params} {va : Word} {asid : BitVec 10} {es : List TlbEntry} {e : TlbEntry}
    (he : e ∈ es) {r : Refusal} (hstop : tlbHit p e va asid = .error r) :
    ∀ i, ∃ r', tlbHitsFrom p va asid i es = .error r' := by
  induction he with
  | head es => exact fun i => ⟨r, by simp only [tlbHitsFrom, hstop]⟩
  | tail e' _ ih =>
    intro i
    obtain ⟨r', hr'⟩ := ih (i + 1)
    cases hhit : tlbHit p e' va asid with
    | error r'' => exact ⟨r'', by simp only [tlbHitsFrom, hhit]⟩
    | ok hit => exact ⟨r', by simp only [tlbHitsFrom, hhit, hr']⟩

theorem tlbLookup_illegal {s : State} {e : TlbEntry} {asid : BitVec 10} (he : e ∈ s.tlb) (hv : e.e = true)
    (hspace : e.g = true ∨ e.asid = asid) (h : e.ps.toNat ∉ s.params.psLegal) (va : Word) :
    s.tlbLookup va asid = .refuse .illegalPageSize := by
  obtain ⟨r, hr⟩ := tlbHitsFrom_stops he (tlbHit_illegal hv hspace h va) 0
  obtain rfl := tlbHitsFrom_error hr
  rw [State.tlbLookup, hr]

/-- The only thing that stops INVTLB at an entry (R98). -/
theorem onEntry_error {p : Params} {o : InvOp} {asid : BitVec 10} {va : Word} {e : TlbEntry} {r : Refusal}
    (h : o.onEntry p asid va e = .error r) : r = .illegalPageSize := by
  have hselects : o.selects p e asid va = .error r := by
    unfold InvOp.onEntry at h
    split at h
    · split at h
      · cases h
      · next hr => cases h; exact hr
    · cases h
  unfold InvOp.selects at hselects
  split at hselects
  case h_6 | h_7 =>
    split at hselects
    · exact (tlbVaMatch_error.mp hselects).2
    · cases hselects
  all_goals cases hselects

/-- One entry that stops INVTLB stops it whatever the others are (R97). -/
theorem onTlb_stops {p : Params} {o : InvOp} {asid : BitVec 10} {va : Word} {es : List TlbEntry} {e : TlbEntry}
    (he : e ∈ es) {r : Refusal} (hstop : o.onEntry p asid va e = .error r) :
    o.onTlb p asid va es = .error .illegalPageSize := by
  induction he with
  | head es => simp only [InvOp.onTlb, hstop, onEntry_error hstop]
  | tail e' _ ih =>
    cases hentry : o.onEntry p asid va e' with
    | error r' => simp only [InvOp.onTlb, hentry, onEntry_error hentry]
    | ok e'' => simp only [InvOp.onTlb, hentry, ih]

/-- INVTLB of a valid entry stops where its op's match does. -/
theorem onEntry_stops {p : Params} {o : InvOp} {asid : BitVec 10} {va : Word} {e : TlbEntry} {r : Refusal}
    (hv : e.e = true) (h : o.selects p e asid va = .error r) : o.onEntry p asid va e = .error r := by
  simp only [InvOp.onEntry, hv, h, if_true]

/-- Ops 5 and 6 evaluate the match where their other conditions on the entry hold (R98; log 16). -/
theorem selects_asidVa_illegal {p : Params} {e : TlbEntry} {asid : BitVec 10} (hg : e.g = false)
    (hasid : e.asid = asid) (h : e.ps.toNat ∉ p.psLegal) (va : Word) :
    InvOp.asidVa.selects p e asid va = .error .illegalPageSize := by
  rw [InvOp.selects, if_pos (by simp [hg, hasid]), tlbVaMatch_illegal h]

theorem selects_globalOrAsidVa_illegal {p : Params} {e : TlbEntry} {asid : BitVec 10}
    (hspace : e.g = true ∨ e.asid = asid) (h : e.ps.toNat ∉ p.psLegal) (va : Word) :
    InvOp.globalOrAsidVa.selects p e asid va = .error .illegalPageSize := by
  rw [InvOp.selects, if_pos (by simpa using hspace), tlbVaMatch_illegal h]

/-- An INVTLB with its ASID in range is refused where its pass over the TLB is (R97, R99). -/
theorem exec_invtlb_refused {s : State} {op : BitVec 5} {o : InvOp} {rj rk : RegNum} {r : Refusal}
    (ho : invOp op = some o) (hplv : s.plv = 0#2) (hasid : getField (s.readReg rj) 10 22 = 0#22)
    (h : o.onTlb s.params (getField (s.readReg rj) 0 10) (s.readReg rk) s.tlb = .error r) :
    exec (.invtlb op rj rk) s = .refused r := by
  simp only [exec, execInvtlb, ho, atPlv0_plv0 hplv, invtlbBody, hasid, h, bne_self_eq_false, Bool.and_false,
    Bool.false_eq_true, if_false]

theorem exec_tlbsrch_refused {s : State} {r : Refusal} (hplv : s.plv = 0#2)
    (h : s.tlbLookup (vppnWord s.vppn) s.asid = .refuse r) : exec .tlbsrch s = .refused r := by
  simp only [exec, execTlbsrch, atPlv0_plv0 hplv, h]

/-- Settles O13: the match with such an entry stops, and so does the list it stands in. -/
theorem illegalPageSizeStops : Obligations.IllegalPageSizeStops := by
  unfold Obligations.IllegalPageSizeStops
  intro s e he hv hps
  have hlookup := fun hspace va => tlbLookup_illegal (asid := s.asid) he hv hspace hps va
  exact ⟨fun va k htlb hspace => translate_of_lookup_refuse htlb (hlookup hspace va) k,
    fun hplv hspace => exec_tlbsrch_refused hplv (hlookup hspace _),
    fun rj rk hplv hasid => ⟨fun hg ha => exec_invtlb_refused rfl hplv hasid
        (onTlb_stops he (onEntry_stops hv (selects_asidVa_illegal hg ha hps _))),
      fun hspace => exec_invtlb_refused rfl hplv hasid
        (onTlb_stops he (onEntry_stops hv (selects_globalOrAsidVa_illegal hspace hps _)))⟩⟩

end Sys2Proof.Machine
end

section
/-! PROOFS. The step that fetches: the instruction it runs, the exceptions and the faults of the fetch (O49, O50,
O51, O52). -/

namespace Sys2Proof.Machine

section Fetches

variable {s : State} (hs : CoreSteps s) (hlevel : LegalLevel s.sampled) (hidle : s.sampled.idle = false)
  (hint : ¬ InterruptDue s.sampled)
include hs hlevel hidle hint

/-- The step where neither a wait nor an interrupt comes before the fetch (R8). -/
theorem step_of_fetch_instr {i : Instr} (hf : fetch s.sampled = .instr i) : step s = exec i s.sampled := by
  obtain ⟨hinstr, -, -⟩ := coreStep_fetches (already := s.wakes) hlevel hidle hint
  exact (step_of_coreSteps hs).trans (hinstr i hf)

theorem step_of_fetch_raise {x : Exc} (hf : fetch s.sampled = .raise x) :
    step s = .next (s.sampled.takeException x s.sampled.pc) := by
  obtain ⟨-, hraise, -⟩ := coreStep_fetches (already := s.wakes) hlevel hidle hint
  exact (step_of_coreSteps hs).trans (hraise x hf)

theorem step_of_fetch_fault {f : Fault} (hf : fetch s.sampled = .fault f) : step s = .fault f := by
  rw [step_of_coreSteps hs, coreStep, if_neg (level_of_legal hlevel), if_neg (ne_true_of_eq_false hidle),
    if_neg (mt (takesInterrupt_iff _).mp hint), hf]

end Fetches

/-- An aligned fetch whose translation answers reads there (R44). -/
theorem fetch_of_translate_pa {s : State} {a : PAddr} (hpc : getField s.pc 0 2 = 0#2)
    (ht : translate s s.pc .fetch = .pa a) : fetch s = fetchAt s.params s.mem a := by
  simp only [fetch, hpc, ht, ne_eq, not_true_eq_false, if_false]

theorem holdsWord_iff (p : Params) (x : Nat) :
    p.holdsWord x = true ↔ ∀ k, k < 4 → p.holdsMemory (x + k) = true := by
  simp only [Params.holdsWord, Bool.and_eq_true]
  constructor
  · rintro ⟨⟨⟨h0, h1⟩, h2⟩, h3⟩ k hk
    interval_cases k <;> assumption
  · exact fun h => ⟨⟨⟨h 0 (by omega), h 1 (by omega)⟩, h 2 (by omega)⟩, h 3 (by omega)⟩

/-- The platform's answer where one of the four bytes has no memory (R46, D5; log 6). -/
theorem fetchAt_unmapped {p : Params} {a : PAddr} (h : p.holdsWord a.toNat = false) (m : Memory) :
    fetchAt p m a = fetchUnmapped p a := by
  rw [fetchAt, if_neg (by simp [h])]

theorem fetchAt_unknown {p : Params} {m : Memory} {a : PAddr} (h : p.holdsWord a.toNat = true)
    (hm : memRead m a.toNat 4 = none) : fetchAt p m a = .fault (.noByteAtFetch a) := by
  rw [fetchAt, if_pos h, hm]

/-- Settles O51: the fetch decodes the four bytes, and no interrupt comes before it. -/
theorem stepRunsDecodedInstruction : Obligations.StepRunsDecodedInstruction := by
  unfold Obligations.StepRunsDecodedInstruction
  rintro s _ a w i hs rfl hlevel hidle hnone hpc ht hword hread hdecode
  refine step_of_fetch_instr hs hlevel hidle ?_ (fetch_instr.mpr ⟨hpc, a, w, ht, hword, hread, hdecode⟩)
  rintro ⟨hie, k, hk, h10, hestat, hecfg⟩
  obtain hoff | hmasked := hnone
  · exact ne_true_of_eq_false hoff hie
  · exact (hmasked k hk h10).elim (ne_true_of_eq_false · hestat) (ne_true_of_eq_false · hecfg)

/-- Settles O52: the map is looked at before the contents. -/
theorem fetchWithoutMemoryFaults : Obligations.FetchWithoutMemoryFaults := by
  unfold Obligations.FetchWithoutMemoryFaults
  rintro s _ a hs rfl hlevel hidle hint hpc ht
  have hfetch := fetch_of_translate_pa hpc ht
  refine ⟨?_, fun hmapped hread => ?_⟩
  · rintro ⟨k, hk, hgap⟩
    have hword : s.sampled.params.holdsWord a.toNat = false := by
      rw [← Bool.not_eq_true, holdsWord_iff]
      exact fun hall => ne_true_of_eq_false hgap (hall k hk)
    rw [fetchAt_unmapped hword] at hfetch
    refine ⟨fun hstop => step_of_fetch_fault hs hlevel hidle hint ?_,
      fun x hraises => step_of_fetch_raise hs hlevel hidle hint ?_⟩
    · simp only [hfetch, fetchUnmapped, hstop]
    · simp only [hfetch, fetchUnmapped, hraises]
  · rw [fetchAt_unknown ((holdsWord_iff _ _).mpr hmapped) hread] at hfetch
    exact step_of_fetch_fault hs hlevel hidle hint hfetch

/-! The exceptions of the fetch (R44, R136). -/

/-- A CSR that reads as before may be left out of a frame's list. -/
theorem Frame.without {regs : List RegNum} {csrs csrs' : List Csr} {s t : State} (h : Frame regs csrs s t)
    (hkept : ∀ c, c ∈ csrs → c ∉ csrs' → t.readCsr c = s.readCsr c) : Frame regs csrs' s t where
  regs_kept := h.regs_kept
  csrs_kept c hc := by
    by_cases hin : c ∈ csrs
    · exact hkept c hin hc
    · exact h.csrs_kept c hin
  params_kept := h.params_kept
  env_kept := h.env_kept

/-- An exception without a page number leaves TLBEHI (R136). -/
theorem takeException_frame_without_vppn (s : State) {x : Exc} (hx : x.recordsVppn = false) (badv : Word) :
    Frame [] [.prmd, .crmd, .era, .estat, .badv] s (s.takeException x badv) := by
  refine (takeException_frame s x badv).without fun c hin hout => ?_
  obtain rfl : c = .tlbehi := by cases c <;> simp_all
  exact (takeException_tlbehi s x badv).trans (by rw [hx]; rfl)

/-- Settles O49: the fetch looks at the alignment first, and ADEF is an exception that records the address. -/
theorem misalignedPcRaisesAdef : Obligations.MisalignedPcRaisesAdef := by
  unfold Obligations.MisalignedPcRaisesAdef
  rintro s _ hs rfl hlevel hidle hint hpc
  exact ⟨_, step_of_fetch_raise hs hlevel hidle hint (fetch_raise.mpr (.inl ⟨hpc, rfl⟩)), rfl,
    takeException_ecode _ _ _, takeException_esubcode _ _ _, takeException_badv _ _ _, rfl,
    takeException_plv _ _ _, entryOf_of_ne_tlbr _ (by decide), takeException_frame_without_vppn _ rfl _,
    takeException_sameStores _ _ _, takeException_sameLink _ _ _⟩

/-- Settles O50: a search that no PS stops and nothing answers misses, and TLBR enters direct address mode. -/
theorem fetchMissRaisesRefill : Obligations.FetchMissRaisesRefill := by
  unfold Obligations.FetchMissRaisesRefill
  rintro s _ hs rfl hlevel hidle hint hpc htlb hsearch hnone
  obtain ⟨hmiss, -, -⟩ := tlbLookup_of_searchable (va := s.sampled.pc) hsearch
  have ht := translate_of_miss htlb (hmiss hnone) .fetch
  exact ⟨_, step_of_fetch_raise hs hlevel hidle hint (fetch_raise.mpr (.inr ⟨hpc, .inl ht⟩)), rfl,
    takeException_ecode _ _ _, takeException_badv _ _ _, getField_setField_same _ _ _ (by omega), rfl,
    takeException_plv _ _ _, takeException_ie _ _ _, takeException_da _ _ _, takeException_pg _ _ _,
    entryOf_tlbr _, takeException_frame _ _ _, takeException_sameStores _ _ _, takeException_sameLink _ _ _⟩

end Sys2Proof.Machine
end

section
/-! PROOFS. TLBSRCH, alone and after TLBWR (O27, O33). -/

namespace Sys2Proof.Machine

/-! A store into one CSR by an instruction that completes. -/

theorem putCsr_advance_frame (s : State) (c : Csr) (v : Word) : Frame [] [c] s (s.putCsr c v).advance where
  regs_kept r _ := by rw [readReg_advance, readReg_putCsr]
  csrs_kept c' hc := by rw [readCsr_advance, readCsr_putCsr_other s c v c' (by simpa using hc)]
  params_kept := putCsr_params s c v
  env_kept := putCsr_env s c v

theorem putCsr_advance_sameStores (s : State) (c : Csr) (v : Word) : SameStores s (s.putCsr c v).advance where
  tlb_kept := putCsr_tlb s c v
  caches_kept c' := by rw [cache_advance, cache_putCsr]
  memory_kept a := by rw [advance_mem, putCsr_mem]
  idle_kept := putCsr_idle s c v

theorem putCsr_advance_sameLink (s : State) {c : Csr} (hc : c ≠ .llbctl) (v : Word) :
    SameLink s (s.putCsr c v).advance :=
  ⟨putCsr_llbit s c v hc, putCsr_klo s c v hc⟩

/-! What TLBSRCH writes into TLBIDX (R90). -/

theorem exec_tlbsrch_miss {s : State} (hplv : s.plv = 0#2) (hl : s.tlbLookup (vppnWord s.vppn) s.asid = .miss) :
    exec .tlbsrch s = .next (s.putCsr .tlbidx (setBit s.csr.tlbidx 31 true)).advance :=
  execTlbsrch_next.mpr (.inl ⟨hplv, .inl ⟨hl, rfl⟩⟩)

theorem exec_tlbsrch_hit {s : State} {i : Nat} (hplv : s.plv = 0#2)
    (hl : s.tlbLookup (vppnWord s.vppn) s.asid = .hit i) : exec .tlbsrch s =
      .next (s.putCsr .tlbidx (setBit (setTlbIndex s.params s.csr.tlbidx i) 31 false)).advance :=
  execTlbsrch_next.mpr (.inl ⟨hplv, .inr ⟨i, hl, rfl⟩⟩)

/-- An index of the TLB written into TLBIDX is read back from it: NE, at bit 31, is no bit of Index (R23). -/
theorem setTlbIndex_index {p : Params} (hp : p.tlbIdxLen ≤ 31) (w : Word) (ne : Bool) {i : Nat}
    (hi : i < p.tlbEntries) :
    (setBit (setTlbIndex p w i) 31 ne).toNat % 2 ^ p.tlbIdxLen = i := by
  apply Nat.eq_of_testBit_eq
  intro k
  rw [Nat.testBit_mod_two_pow]
  by_cases hk : k < p.tlbIdxLen
  · rw [decide_eq_true hk, Bool.true_and, BitVec.testBit_toNat, getLsbD_setBit, if_neg (by omega),
      getLsbD_setTlbIndex p w i k (by omega), if_pos hk]
  · rw [decide_eq_false hk, Bool.false_and]
    exact (Nat.testBit_lt_two_pow (hi.trans_le (Nat.pow_le_pow_right (by omega) (Nat.not_lt.mp hk)))).symm

/-- Above Index and below NE, TLBIDX keeps its bits (R23). -/
theorem getLsbD_setTlbIndex_above {p : Params} {w : Word} {i k : Nat} {ne : Bool} (hk : p.tlbIdxLen ≤ k)
    (hk31 : k < 31) :
    (setBit (setTlbIndex p w i) 31 ne).getLsbD k = w.getLsbD k := by
  rw [getLsbD_setBit, if_neg (by omega), getLsbD_setTlbIndex p w i k (by omega), if_neg (by omega)]

theorem getLsbD_setBit_ne (w : Word) (ne : Bool) : (setBit w 31 ne).getLsbD 31 = ne :=
  getBit_setBit_same w 31 ne (by omega)

/-- An entry that hits is one of TLB_ENTRIES (R26). -/
theorem HitsAt.lt_tlbEntries {s : State} (hinv : s.Inv) {va : Word} {asid : BitVec 10} {i : Nat}
    (h : HitsAt s va asid i) : i < s.params.tlbEntries := by
  obtain ⟨e, he, -⟩ := h
  rw [← hinv.tlb_size]
  exact (List.getElem?_eq_some_iff.mp he).1

/-- The index TLBSRCH found, as TLBIDX gives it. -/
theorem tlbIndex_of_found {s : State} (hinv : s.Inv) {i : Nat} (hi : i < s.params.tlbEntries) :
    (s.putCsr .tlbidx (setBit (setTlbIndex s.params s.csr.tlbidx i) 31 false)).advance.tlbIndex = i := by
  obtain ⟨-, ⟨-, hlen⟩, -⟩ := params_bounds hinv.params_wf
  exact setTlbIndex_index (by omega) _ _ hi

/-- Settles O27: a search no PS stops has three answers, and TLBIDX is all that an answer changes. -/
theorem tlbsrchFinds : Obligations.TlbsrchFinds := by
  unfold Obligations.TlbsrchFinds
  intro s hinv
  refine ⟨fun hplv => atPlv0_plv3 hplv _, ?_⟩
  rintro hplv _ rfl hsearch
  obtain ⟨hmiss, hone, htwo⟩ := tlbLookup_of_searchable (va := vppnWord s.vppn) hsearch
  refine ⟨fun hnone => ⟨_, exec_tlbsrch_miss hplv (hmiss hnone), getLsbD_setBit_ne _ _, fun k hk => ?_, rfl,
      putCsr_advance_frame _ _ _, putCsr_advance_sameStores _ _ _, putCsr_advance_sameLink _ (by decide) _⟩,
    fun i hi honly => ⟨_, exec_tlbsrch_hit hplv (hone i hi honly), tlbIndex_of_found hinv (hi.lt_tlbEntries hinv),
      getLsbD_setBit_ne _ _, fun k => getLsbD_setTlbIndex_above, rfl,
      putCsr_advance_frame _ _ _, putCsr_advance_sameStores _ _ _, putCsr_advance_sameLink _ (by decide) _⟩,
    fun i j hij hi hj => exec_tlbsrch_refused hplv (htwo i j hij hi hj)⟩
  exact (getLsbD_setBit _ _ _ _).trans (if_neg (by omega))

/-! The entry TLBWR writes (R95). -/

theorem tlbIndex_lt (s : State) : s.tlbIndex < s.params.tlbEntries := Nat.mod_lt _ (Nat.two_pow_pos _)

theorem fillEntry_getElem? {s : State} {i : Nat} (hi : i < s.tlb.length) (j : Nat) :
    (s.fillEntry i).tlb[j]? = if j = i then some (s.csrEntry s.writtenE) else s.tlb[j]? := by
  rw [fillEntry_tlb, List.getElem?_set]
  by_cases hj : j = i
  · simp [hj, hi]
  · simp [hj, Ne.symm hj]

theorem writtenE_true {s : State} (h : s.ecode = 0x3F#6 ∨ s.ne = false) : s.writtenE = true := by
  rcases h with h | h <;> simp [State.writtenE, h]

/-- A valid entry made from the TLB CSRs hits the address TLBEHI gives (R49, R95). -/
theorem csrEntry_hits {s : State} (hps : s.tlbPs.toNat ∈ s.params.psLegal) :
    EntryHits s.params (s.csrEntry true) (vppnWord s.vppn) s.asid where
  valid := rfl
  space := .inr rfl
  legal := hps
  agrees := (shifted_eq_iff (s.csrEntry true) _).mp rfl

/-- Settles O33: the written entry hits, no other does, and none stops the search. -/
theorem tlbsrchAfterTlbwr : Obligations.TlbsrchAfterTlbwr := by
  unfold Obligations.TlbsrchAfterTlbwr
  intro s t hinv hplv hvalid hps hothers hwr
  have htinv := exec_keeps_inv hinv hwr
  obtain ⟨-, rfl⟩ | ⟨hplv3, -⟩ := execTlbwr_next.mp hwr
  · have hindex : s.tlbIndex < s.tlb.length := hinv.tlb_size ▸ tlbIndex_lt s
    have hentry : ∀ j, (s.fillEntry s.tlbIndex).advance.tlb[j]? =
        if j = s.tlbIndex then some (s.csrEntry true) else s.tlb[j]? := by
      rw [← writtenE_true hvalid]
      exact fillEntry_getElem? hindex
    have hhit : HitsAt (s.fillEntry s.tlbIndex).advance (vppnWord s.vppn) s.asid s.tlbIndex :=
      ⟨_, (hentry _).trans (if_pos rfl), csrEntry_hits hps⟩
    have honly : ∀ j, HitsAt (s.fillEntry s.tlbIndex).advance (vppnWord s.vppn) s.asid j → j = s.tlbIndex := by
      rintro j ⟨e, he, hhits⟩
      by_contra hne
      rw [hentry, if_neg hne] at he
      exact (hothers j e hne he).1 hhits
    have hsearch : Searchable (s.fillEntry s.tlbIndex).advance s.asid := by
      intro e he hv hspace
      obtain ⟨j, hj⟩ := List.mem_iff_getElem?.mp he
      rw [hentry] at hj
      split at hj
      · cases hj; exact hps
      · next hne => exact (hothers j e hne hj).2 hv hspace
    obtain ⟨-, hone, -⟩ := tlbLookup_of_searchable (va := vppnWord s.vppn) hsearch
    exact ⟨_, exec_tlbsrch_hit hplv (hone _ hhit honly), tlbIndex_of_found htinv (tlbIndex_lt s),
      getLsbD_setBit_ne _ _⟩
  · rw [hplv] at hplv3
    exact absurd hplv3 (by decide)

end Sys2Proof.Machine
end

section
/-! PROOFS. CACOP: what it raises, that it is transparent where the caches agree with memory, and that its
write-backs reach memory (O24, O26, O60). -/

namespace Sys2Proof.Machine

/-- Settles O26: the privilege check raises IPE, the translation of a Hit-class CACOP what a load's raises, and
nothing else in it touches a CSR. -/
theorem cacopExceptions : Obligations.CacopExceptions := by
  unfold Obligations.CacopExceptions
  intro s t code rj si hexec
  obtain ⟨-, hbody⟩ | ⟨-, -, rfl⟩ := execCacop_next.mp hexec
  · obtain ⟨c, -, ⟨-, rfl⟩ | ⟨-, rfl⟩ | ⟨-, ⟨a, -, rfl⟩ | ⟨x, hraise, rfl⟩⟩ | ⟨-, -, rfl⟩⟩ := cacopBody_next.mp hbody
    · exact .inl ⟨storeTag_csr s c _, congrArg (· + 4#32) (storeTag_pc s c _)⟩
    · exact .inl ⟨indexInvalidate_csr s c _, congrArg (· + 4#32) (indexInvalidate_pc s c _)⟩
    · exact .inl ⟨hitInvalidate_csr s c a, congrArg (· + 4#32) (hitInvalidate_pc s c a)⟩
    · obtain ⟨hload, -⟩ := translationExceptions s _ _ x hraise
      refine .inr ⟨x, _, ?_, rfl⟩
      rcases hload rfl with rfl | rfl | rfl <;> decide
    · exact .inl ⟨customCacop_csr s c _, congrArg (· + 4#32) (customCacop_pc s c _)⟩
  · exact .inr ⟨.ipe, 0#32, by decide, rfl⟩

/-! Write-back and invalidation where the caches agree with memory (R85, R89). -/

/-- A line that holds what memory holds, byte by byte: what `CachesCoherent` says of each valid line. -/
def LineCoherent (m : Memory) (l : CacheLine) : Prop :=
  ∀ (k : Nat) (_ : k < l.data.length), m.readByte (l.tag.toNat + k) = some l.data[k]

/-- Only the lines and the bytes of memory matter to coherence. -/
theorem cachesCoherent_of_lines {s t : State} (hmem : SameMemory s t)
    (hlines : ∀ c, ∀ x ∈ t.cache c, x.2.valid = true → LineCoherent s.mem x.2) : CachesCoherent t := by
  intro c x hx hv k hk
  rw [hmem]
  exact hlines c x hx hv k hk

/-- The line at a position is a listed one if it is valid. -/
theorem mem_of_at_valid {c : Cache} {pos : Nat} (h : (c.at pos).valid = true) : (pos, c.at pos) ∈ c := by
  obtain hlisted | hzero := at_mem c pos
  · exact hlisted
  · rw [hzero] at h
    cases h

/-- A coherent line written back changes no byte (R89). -/
theorem writeNextLevel_sameMemory {s : State} (hm : s.mem.wf) {l : CacheLine} (hl : LineCoherent s.mem l)
    (c : CacheId) : SameMemory s (s.writeNextLevel c l) := by
  intro x
  rw [readByte_writeNextLevel s hm]
  split
  · next h =>
    obtain ⟨⟨hlo, hhi⟩, -⟩ := h
    have hx : l.tag.toNat + (x - l.tag.toNat) = x := by omega
    have hbyte := hl (x - l.tag.toNat) (by omega)
    rw [hx] at hbyte
    rw [hbyte, List.getElem?_eq_getElem]
  · rfl

/-- A coherent line that takes bytes of another holds what it held (R89). -/
theorem LineCoherent.take {m : Memory} {l l' : CacheLine} (hl : LineCoherent m l) (hl' : LineCoherent m l')
    (r : Bool) (hv : l'.valid = true) : LineCoherent m (l'.take l.tag.toNat l.data r) := by
  intro k hk
  rw [take_length] at hk
  rw [take_tag, ← List.getElem?_eq_getElem, take_data l' _ _ r hv k hk]
  split
  · next h =>
    have hx : l.tag.toNat + (l'.tag.toNat + k - l.tag.toNat) = l'.tag.toNat + k := by omega
    rw [List.getElem?_eq_getElem (by omega), ← hl _ (by omega), hx]
  · rw [List.getElem?_eq_getElem hk, hl' k hk]

theorem writeNextLevel_lines_coherent {s : State} (h : CachesCoherent s) {l : CacheLine} (hl : LineCoherent s.mem l)
    (c c' : CacheId) : ∀ x ∈ (s.writeNextLevel c l).cache c', x.2.valid = true → LineCoherent s.mem x.2 := by
  rw [writeNextLevel_cache]
  split
  · intro x hx hv
    obtain ⟨y, hy, rfl⟩ := List.mem_map.mp hx
    rw [take_valid] at hv
    exact hl.take (h .l2 y hy hv) _ hv
  · exact h c'

/-- The write-back before the line is invalidated. -/
abbrev State.writtenBack (s : State) (c : CacheId) (pos : Nat) : State :=
  if writesBack s.params c ((s.cache c).at pos) then s.writeNextLevel c ((s.cache c).at pos) else s

theorem writtenBack_sameMemory {s : State} (hinv : s.Inv) (h : CachesCoherent s) (c : CacheId) (pos : Nat) :
    SameMemory s (s.writtenBack c pos) ∧
      ∀ c', ∀ x ∈ (s.writtenBack c pos).cache c', x.2.valid = true → LineCoherent s.mem x.2 := by
  unfold State.writtenBack
  split
  · next hwb =>
    obtain ⟨-, hv, -⟩ := (writesBack_iff s c pos).mp hwb
    have hl : LineCoherent s.mem ((s.cache c).at pos) := h c _ (mem_of_at_valid hv) hv
    exact ⟨writeNextLevel_sameMemory hinv.memory_wf hl c, writeNextLevel_lines_coherent h hl c⟩
  · exact ⟨fun _ => rfl, h⟩

/-- Write-back and invalidation are transparent (R89). -/
theorem writebackInvalidate_transparent {s : State} (hinv : s.Inv) (h : CachesCoherent s) (c : CacheId) (pos : Nat) :
    SameMemory s (s.writebackInvalidate c pos) ∧ CachesCoherent (s.writebackInvalidate c pos) := by
  obtain ⟨hmem, hlines⟩ := writtenBack_sameMemory hinv h c pos
  have hsame : SameMemory s (s.writebackInvalidate c pos) := by
    intro a
    rw [writebackInvalidate_mem]
    exact hmem a
  refine ⟨hsame, cachesCoherent_of_lines hsame fun c' x hx hv => ?_⟩
  rw [writebackInvalidate_cache] at hx
  split at hx
  · obtain hx | ⟨rfl, -⟩ := mem_replace hx
    · exact h c x hx hv
    · cases hv
  · exact hlines c' x hx hv

/-- What leaves memory and the caches is transparent. -/
theorem transparent_of_same {s t : State} (h : CachesCoherent s) (hm : t.mem = s.mem) (hc : SameCaches s t) :
    SameMemory s t ∧ CachesCoherent t := by
  have hsame : SameMemory s t := fun a => by rw [hm]
  refine ⟨hsame, cachesCoherent_of_lines hsame fun c x hx => ?_⟩
  rw [hc] at hx
  exact h c x hx

/-- Erasing a line is transparent: memory and the other lines stay (R84, R89). -/
theorem erase_transparent {s : State} (h : CachesCoherent s) (c : CacheId) (pos : Nat) :
    SameMemory s (s.setCache c ((s.cache c).erase pos)) ∧ CachesCoherent (s.setCache c ((s.cache c).erase pos)) := by
  have hsame : SameMemory s (s.setCache c ((s.cache c).erase pos)) := fun a => by rw [setCache_mem]
  refine ⟨hsame, cachesCoherent_of_lines hsame fun c' x hx hv => ?_⟩
  rw [cache_setCache] at hx
  split at hx
  · exact h c x (List.mem_of_mem_filter hx) hv
  · exact h c' x hx hv

/-! With nothing in the caches. -/

theorem writebackInvalidate_of_empty {s : State} (h : ∀ c, s.cache c = []) (c : CacheId) (pos : Nat) :
    SameCaches s (s.writebackInvalidate c pos) ∧ SameMemory s (s.writebackInvalidate c pos) := by
  have hnot : ¬ writesBack s.params c ((s.cache c).at pos) = true := by
    rw [h c]
    simp [Cache.at, writesBack, CacheLine.zero]
  refine ⟨fun c' => ?_, fun a => ?_⟩
  · rw [writebackInvalidate_cache, if_neg hnot]
    split
    · next hc => rw [hc, h c]; rfl
    · rfl
  · rw [writebackInvalidate_mem, if_neg hnot]

theorem erase_of_empty {s : State} (h : ∀ c, s.cache c = []) (c : CacheId) (pos : Nat) :
    SameCaches s (s.setCache c ((s.cache c).erase pos)) := by
  intro c'
  rw [cache_setCache]
  split
  · next hc => rw [hc, h c]; rfl
  · rfl

/-! What a CACOP of a defined operation does to memory and the caches (R84 to R86). -/

theorem storeTag_cases (s : State) (c : CacheId) (va : Word) :
    s.storeTag c va = s ∨ ∃ pos, s.storeTag c va = s.setCache c ((s.cache c).erase pos) := by
  unfold State.storeTag
  split
  · exact .inr ⟨_, rfl⟩
  · exact .inl rfl

theorem indexInvalidate_cases (s : State) (c : CacheId) (va : Word) :
    s.indexInvalidate c va = s ∨ ∃ pos, s.indexInvalidate c va = s.writebackInvalidate c pos := by
  unfold State.indexInvalidate
  split
  · exact .inr ⟨_, rfl⟩
  · exact .inl rfl

theorem hitInvalidate_cases (s : State) (c : CacheId) (a : PAddr) :
    s.hitInvalidate c a = s ∨ ∃ pos, s.hitInvalidate c a = s.writebackInvalidate c pos := by
  unfold State.hitInvalidate
  split
  · split
    · exact .inr ⟨_, rfl⟩
    · exact .inl rfl
  · exact .inl rfl

theorem cacopKind_ne_custom {code : BitVec 5} (h : code.extractLsb' 3 2 ≠ 3#2) : cacopKind code ≠ .custom := by
  unfold cacopKind
  generalize code.extractLsb' 3 2 = op at h ⊢
  revert op
  decide

/-- Memory and the caches after a CACOP of a defined operation: as before, or one line erased, or one line
written back and invalidated. -/
theorem cacop_stores_cases {s t : State} {code : BitVec 5} {rj : RegNum} {si : BitVec 12}
    (hkind : cacopKind code ≠ .custom) (ht : exec (.cacop code rj si) s = .next t) :
    (t.mem = s.mem ∧ SameCaches s t) ∨
    (∃ c pos, t = (s.setCache c ((s.cache c).erase pos)).advance) ∨
    (∃ c pos, t = (s.writebackInvalidate c pos).advance) := by
  obtain ⟨-, hbody⟩ | ⟨-, -, rfl⟩ := execCacop_next.mp ht
  · obtain ⟨c, -, ⟨-, rfl⟩ | ⟨-, rfl⟩ | ⟨-, ⟨a, -, rfl⟩ | ⟨x, -, rfl⟩⟩ | ⟨hcustom, -⟩⟩ := cacopBody_next.mp hbody
    · obtain hs | ⟨pos, hs⟩ := storeTag_cases s c (cacopVa s rj si) <;> rw [hs]
      · exact .inl ⟨rfl, cache_advance s⟩
      · exact .inr (.inl ⟨c, pos, rfl⟩)
    · obtain hs | ⟨pos, hs⟩ := indexInvalidate_cases s c (cacopVa s rj si) <;> rw [hs]
      · exact .inl ⟨rfl, cache_advance s⟩
      · exact .inr (.inr ⟨c, pos, rfl⟩)
    · obtain hs | ⟨pos, hs⟩ := hitInvalidate_cases s c a <;> rw [hs]
      · exact .inl ⟨rfl, cache_advance s⟩
      · exact .inr (.inr ⟨c, pos, rfl⟩)
    · exact .inl ⟨rfl, cache_takeException s x _⟩
    · exact absurd hcustom hkind
  · exact .inl ⟨rfl, cache_takeException s .ipe _⟩

/-- The pc is no part of a cache. -/
theorem CachesCoherent.advance {s : State} (h : CachesCoherent s) : CachesCoherent s.advance := by
  intro c x hx
  rw [cache_advance] at hx
  exact h c x hx

/-- Settles O24: each of the two operations on a line is transparent. -/
theorem coherentCachesAreTransparent : Obligations.CoherentCachesAreTransparent := by
  unfold Obligations.CoherentCachesAreTransparent
  intro s t code rj si hinv hkind ht
  obtain ⟨hm, hc⟩ | ⟨c, pos, rfl⟩ | ⟨c, pos, rfl⟩ := cacop_stores_cases (cacopKind_ne_custom hkind) ht
  · exact ⟨fun h => transparent_of_same h hm hc, fun _ => ⟨hc, fun a => by rw [hm]⟩⟩
  · refine ⟨fun h => ?_, fun hempty => ⟨fun c' => ?_, fun a => ?_⟩⟩
    · obtain ⟨hmem, hcoherent⟩ := erase_transparent h c pos
      exact ⟨hmem, hcoherent.advance⟩
    · rw [cache_advance, erase_of_empty hempty]
    · rw [advance_mem, setCache_mem]
  · refine ⟨fun h => ?_, fun hempty => ?_⟩
    · obtain ⟨hmem, hcoherent⟩ := writebackInvalidate_transparent hinv h c pos
      exact ⟨hmem, hcoherent.advance⟩
    · obtain ⟨hcaches, hmem⟩ := writebackInvalidate_of_empty hempty c pos
      exact ⟨fun c' => (cache_advance _ c').trans (hcaches c'), hmem⟩

/-! From level to level (R85). -/

theorem exec_cacop_index {s : State} {code : BitVec 5} {c : CacheId} (hplv : s.plv = 0#2)
    (hkind : cacopKind code = .indexInvalidate) (hcache : cacopCache code = some c)
    (hpresent : (s.params.geom c).present = true) (rj : RegNum) (si : BitVec 12) :
    exec (.cacop code rj si) s =
      .next (s.writebackInvalidate c (directPos (s.params.geom c) (cacopVa s rj si))).advance := by
  have hindex : s.indexInvalidate c (cacopVa s rj si) =
      s.writebackInvalidate c (directPos (s.params.geom c) (cacopVa s rj si)) := if_pos hpresent
  rw [← hindex]
  exact (execCacop_plv0 hplv code rj si).trans (cacopBody_next.mpr ⟨c, hcache, .inr (.inl ⟨hkind, rfl⟩)⟩)

/-- The line written back and invalidated is invalid, whether it was listed or not. -/
theorem writebackInvalidate_line_invalid (s : State) (c : CacheId) (pos : Nat) :
    (((s.writebackInvalidate c pos).cache c).at pos).valid = false := by
  rw [writebackInvalidate_cache, if_pos rfl, at_replace]
  split
  · rfl
  · next h => rw [at_not_listed _ _ fun hlisted => h ⟨rfl, hlisted⟩]; rfl

/-- A byte of a line written back reaches memory where the map has memory, unless the level-2 cache keeps it. -/
theorem readByte_writebackInvalidate {s : State} (hinv : s.Inv) {c : CacheId} {pos x : Nat}
    (hwb : writesBack s.params c ((s.cache c).at pos) = true) (hx : InLine ((s.cache c).at pos) x)
    (hmap : s.params.holdsMemory x = true) (hreach : c = .l1d → Config.freeReachesMemory s.draws = true) :
    (s.writebackInvalidate c pos).mem.readByte x = ((s.cache c).at pos).data[x - ((s.cache c).at pos).tag.toNat]? := by
  rw [writebackInvalidate_mem, if_pos hwb, readByte_writeNextLevel s hinv.memory_wf, if_pos]
  refine ⟨hx, hmap, fun h => ?_⟩
  rw [hreach h.1, Bool.true_or]

/-- A line of the level-2 cache after a write-back from the level-1 data cache. -/
theorem writebackInvalidate_l2_at {s : State} (h2 : (s.params.geom .l2).present = true) {pos : Nat}
    (hwb : writesBack s.params .l1d ((s.cache .l1d).at pos) = true) (pos' : Nat) :
    ((s.writebackInvalidate .l1d pos).cache .l2).at pos' =
      ((s.cache .l2).at pos').take ((s.cache .l1d).at pos).tag.toNat ((s.cache .l1d).at pos).data
        (Config.freeReachesMemory s.draws) := by
  rw [writebackInvalidate_cache, if_neg (by decide), if_pos hwb, writeNextLevel_cache, if_pos ⟨rfl, rfl, h2⟩]
  exact at_mapLines _ (CacheLine.take · _ _ _) (take_invalid _ _ _ _ rfl) pos'

/-- A write-back from the level-2 cache goes to memory, and so leaves the other caches. -/
theorem writebackInvalidate_l2_other (s : State) (pos : Nat) {c : CacheId} (hc : c ≠ .l2) :
    (s.writebackInvalidate .l2 pos).cache c = s.cache c := by
  rw [writebackInvalidate_cache, if_neg hc]
  split
  · rw [writeNextLevel_cache, if_neg fun h => hc h.1]
  · rfl

/-- The byte of a level-2 line that took the bytes of another, at an address both hold. -/
theorem take_byte {l l' : CacheLine} {x : Nat} (hv : l'.valid = true) (hx : InLine l x) (hx' : InLine l' x) (r : Bool) :
    (l'.take l.tag.toNat l.data r).data[x - l'.tag.toNat]? = l.data[x - l.tag.toNat]? := by
  obtain ⟨hlo, hhi⟩ := hx'
  have hat : l'.tag.toNat + (x - l'.tag.toNat) = x := by omega
  rw [take_data l' _ _ r hv _ (by omega), hat, if_pos hx]

/-- A level-2 line that took bytes which did not reach memory is dirty, so it is written back whatever
CACOP_WB_ONLY_DIRTY is (U1). -/
theorem writesBack_take {p : Params} {l l' : CacheLine} {x : Nat} (hv : l'.valid = true) (hx : InLine l x)
    (hx' : InLine l' x) : writesBack p .l2 (l'.take l.tag.toNat l.data false) = true := by
  have hmeet : l'.tag.toNat < l.tag.toNat + l.data.length ∧ l.tag.toNat < l'.tag.toNat + l'.data.length :=
    ⟨hx'.1.trans_lt hx.2, hx.1.trans_lt hx'.2⟩
  simp [writesBack, hv, take_dirty l' _ _ false hv hmeet]

/-- The two write-backs of O60, as operations on the state. -/
theorem writebacks_reach_memory {s t : State} {pos pos' x : Nat} (hinv : s.Inv) (htinv : t.Inv)
    (ht : t = (s.writebackInvalidate .l1d pos).advance) (h2 : (s.params.geom .l2).present = true)
    (hwb : writesBack s.params .l1d ((s.cache .l1d).at pos) = true) (hx : InLine ((s.cache .l1d).at pos) x)
    (hv' : ((s.cache .l2).at pos').valid = true) (hx' : InLine ((s.cache .l2).at pos') x)
    (hmap : s.params.holdsMemory x = true) :
    (t.writebackInvalidate .l2 pos').mem.readByte x =
      ((s.cache .l1d).at pos).data[x - ((s.cache .l1d).at pos).tag.toNat]? := by
  have hline : (t.cache .l2).at pos' = ((s.cache .l2).at pos').take ((s.cache .l1d).at pos).tag.toNat
      ((s.cache .l1d).at pos).data (Config.freeReachesMemory s.draws) := by
    rw [ht, cache_advance, writebackInvalidate_l2_at h2 hwb]
  by_cases hwb' : writesBack t.params .l2 ((t.cache .l2).at pos') = true
  · have hin : InLine ((t.cache .l2).at pos') x := by rw [InLine, hline, take_tag, take_length]; exact hx'
    have hmap' : t.params.holdsMemory x = true := by rw [ht]; simpa using hmap
    rw [readByte_writebackInvalidate htinv hwb' hin hmap' nofun, hline, take_tag, take_byte hv' hx hx']
  · have hreach : Config.freeReachesMemory s.draws = true := by
      by_contra hno
      rw [hline, Bool.eq_false_of_not_eq_true hno] at hwb'
      exact hwb' (writesBack_take hv' hx hx')
    rw [writebackInvalidate_mem, if_neg hwb', ht]
    exact readByte_writebackInvalidate hinv hwb hx hmap fun _ => hreach

/-- Settles O60: the level-2 line took the byte and is dirty, or else the byte reached memory at once. -/
theorem writeBacksReachMemory : Obligations.WriteBacksReachMemory := by
  unfold Obligations.WriteBacksReachMemory
  intro s t u rj rj' si si' pos pos' x hinv hplv hd h2 hpos hpos' hv hdirty hx hv' hx' hmap ht hu
  have htinv := exec_keeps_inv hinv ht
  rw [exec_cacop_index hplv rfl rfl hd, ← hpos, Host.Outcome.next.injEq] at ht
  have hparams : t.params = s.params := by rw [← ht]; simp
  have hva : cacopVa t rj' si' = cacopVa s rj' si' := by rw [← ht]; simp [cacopVa]
  have hplv' : t.plv = 0#2 := by rw [← ht]; simpa [State.plv] using hplv
  rw [exec_cacop_index hplv' rfl rfl (hparams ▸ h2), hva, hparams, ← hpos', Host.Outcome.next.injEq] at hu
  have hwb := (writesBack_iff s .l1d pos).mpr ⟨by decide, hv, .inl hdirty⟩
  have hreach := writebacks_reach_memory hinv htinv ht.symm h2 hwb hx hv' hx' hmap
  subst hu
  refine ⟨hreach, ?_, writebackInvalidate_line_invalid t .l2 pos'⟩
  have hline := writebackInvalidate_line_invalid s .l1d pos
  rw [← cache_advance, ht, ← writebackInvalidate_l2_other t pos' (by decide)] at hline
  exact hline

end Sys2Proof.Machine
end

section
/-! PROOFS. What an instruction does with memory (O14): with another memory in place each operation of the state
does the same, and only those of the caches look at memory's place at all. -/

namespace Sys2Proof.Machine

/-- The state with another memory in its place. -/
def State.withMem (s : State) (m : Memory) : State := { s with mem := m }

@[simp] theorem withMem_mem (s : State) (m : Memory) : (s.withMem m).mem = m := rfl

theorem withMem_self (s : State) : s.withMem s.mem = s := rfl

/-! The operations that leave memory alone. Those that read the state but for memory are the same on both sides by
definition. -/

theorem withMem_writeReg (s : State) (m : Memory) (r : RegNum) (v : Word) :
    (s.withMem m).writeReg r v = (s.writeReg r v).withMem m := by
  unfold State.writeReg
  split <;> rfl

theorem withMem_writeCsr (s : State) (m : Memory) (c : Csr) (v : Word) :
    (s.withMem m).writeCsr c v = (s.writeCsr c v).withMem m := by
  cases c <;> rfl

/-- A `csr_read` reads no memory (R14). -/
theorem withMem_csrRead (s : State) (m : Memory) (n : CsrNum) :
    (∃ r, csrRead n s = .error r ∧ csrRead n (s.withMem m) = .error r) ∨
    (∃ v s', csrRead n s = .ok (v, s') ∧ csrRead n (s.withMem m) = .ok (v, s'.withMem m)) := by
  unfold csrRead
  cases csrSlot n with
  | modelled c => exact .inr ⟨s.readCsr c, s, rfl, by cases c <;> rfl⟩
  | unmodelled => exact .inl ⟨_, rfl, rfl⟩
  | undefined => exact .inr ⟨_, s.tick, rfl, rfl⟩

theorem withMem_csrWrite (s : State) (m : Memory) (n : CsrNum) (v : Word) :
    csrWrite n v (s.withMem m) = (csrWrite n v s).withMem m := by
  unfold csrWrite
  split
  · exact withMem_writeCsr s m _ v
  · rfl
  · rfl

theorem withMem_readTlbEntry (s : State) (m : Memory) (e : TlbEntry) :
    (s.withMem m).readTlbEntry e = (s.readTlbEntry e).withMem m := by
  unfold State.readTlbEntry
  split <;> rfl

theorem withMem_setCache (s : State) (m : Memory) (c : CacheId) (l : Cache) :
    (s.withMem m).setCache c l = (s.setCache c l).withMem m := by
  cases c <;> rfl

/-! The operations that write memory: what they make of the rest of the state does not depend on it. -/

/-- The two states are the same but for memory. -/
def SameButMemory (s u : State) : Prop := ∃ m, u = s.withMem m

namespace SameButMemory

variable {s u : State}

theorem withMem (s : State) (m : Memory) : SameButMemory s (s.withMem m) := ⟨m, rfl⟩

theorem cache (h : SameButMemory s u) (c : CacheId) : u.cache c = s.cache c := by
  obtain ⟨m, rfl⟩ := h
  cases c <;> rfl

theorem params (h : SameButMemory s u) : u.params = s.params := by
  obtain ⟨m, rfl⟩ := h
  rfl

theorem advance (h : SameButMemory s u) : SameButMemory s.advance u.advance := by
  obtain ⟨m, rfl⟩ := h
  exact ⟨m, rfl⟩

theorem tick (h : SameButMemory s u) : SameButMemory s.tick u.tick := by
  obtain ⟨m, rfl⟩ := h
  exact ⟨m, rfl⟩

theorem setCache (h : SameButMemory s u) (c : CacheId) (l : Cache) :
    SameButMemory (s.setCache c l) (u.setCache c l) := by
  obtain ⟨m, rfl⟩ := h
  exact ⟨m, withMem_setCache s m c l⟩

theorem writeNextLevel (h : SameButMemory s u) (c : CacheId) (l : CacheLine) :
    SameButMemory (s.writeNextLevel c l) (u.writeNextLevel c l) := by
  obtain ⟨m, rfl⟩ := h
  by_cases hnext : c = .l1d ∧ (s.params.geom .l2).present = true
  · rw [State.writeNextLevel, State.writeNextLevel, if_pos hnext]
    exact ⟨_, if_pos hnext⟩
  · rw [State.writeNextLevel, State.writeNextLevel, if_neg hnext]
    exact ⟨_, if_neg hnext⟩

theorem writebackInvalidate (h : SameButMemory s u) (c : CacheId) (pos : Nat) :
    SameButMemory (s.writebackInvalidate c pos) (u.writebackInvalidate c pos) := by
  simp only [State.writebackInvalidate, h.cache, h.params]
  split
  · exact (h.writeNextLevel c _).setCache c _
  · exact h.setCache c _

theorem storeTag (h : SameButMemory s u) (c : CacheId) (va : Word) :
    SameButMemory (s.storeTag c va) (u.storeTag c va) := by
  simp only [State.storeTag, h.cache, h.params]
  split
  · exact h.setCache c _
  · exact h

theorem indexInvalidate (h : SameButMemory s u) (c : CacheId) (va : Word) :
    SameButMemory (s.indexInvalidate c va) (u.indexInvalidate c va) := by
  simp only [State.indexInvalidate, h.params]
  split
  · exact h.writebackInvalidate c _
  · exact h

theorem hitInvalidate (h : SameButMemory s u) (c : CacheId) (a : PAddr) :
    SameButMemory (s.hitInvalidate c a) (u.hitInvalidate c a) := by
  simp only [State.hitInvalidate, h.cache, h.params]
  split
  · split
    · exact h.writebackInvalidate c _
    · exact h
  · exact h

theorem applyChange (h : SameButMemory s u) (ch : CacheChange) :
    SameButMemory (s.applyChange ch) (u.applyChange ch) := by
  cases ch with
  | line c pos tag valid dirty data =>
    simp only [State.applyChange, h.cache, h.params]
    split
    · exact h.setCache c _
    · exact h
  | clear c pos =>
    simp only [State.applyChange, h.cache, h.params]
    split
    · exact h.setCache c _
    · exact h
  | byte a b =>
    obtain ⟨m, rfl⟩ := h
    exact ⟨_, rfl⟩

theorem applyChanges (l : List CacheChange) :
    ∀ {s u : State}, SameButMemory s u → SameButMemory (l.foldl State.applyChange s) (l.foldl State.applyChange u) := by
  induction l with
  | nil => exact fun h => h
  | cons ch l ih => exact fun h => ih (h.applyChange ch)

theorem customCacop (h : SameButMemory s u) (c : CacheId) (va : Word) :
    SameButMemory (s.customCacop c va) (u.customCacop c va) := by
  have hdraws : u.draws = s.draws := by obtain ⟨m, rfl⟩ := h; rfl
  simp only [State.customCacop, h.params, hdraws]
  split
  · exact (applyChanges _ h).tick
  · exact h

end SameButMemory

/-! The outcomes of an instruction on two memories. -/

/-- The second outcome is the first with the memory `m` in its state; neither is a fault. -/
inductive OutcomeWithMem (m : Memory) :
    Host.Outcome State Fault Refusal → Host.Outcome State Fault Refusal → Prop where
  | next (t : State) : OutcomeWithMem m (.next t) (.next (t.withMem m))
  | refused (r : Refusal) : OutcomeWithMem m (.refused r) (.refused r)

namespace OutcomeWithMem

variable {m : Memory}

theorem next_iff {t : State} {o : Host.Outcome State Fault Refusal} :
    OutcomeWithMem m (.next t) o ↔ o = .next (t.withMem m) := by
  constructor
  · rintro ⟨⟩
    rfl
  · rintro rfl
    exact .next t

theorem refused_iff {r : Refusal} {o : Host.Outcome State Fault Refusal} :
    OutcomeWithMem m (.refused r) o ↔ o = .refused r := by
  constructor
  · rintro ⟨⟩
    rfl
  · rintro rfl
    exact .refused r

theorem not_fault {f : Fault} {o : Host.Outcome State Fault Refusal} : ¬ OutcomeWithMem m (.fault f) o := by
  rintro ⟨⟩

theorem of_sameButMemory {t u : State} (h : SameButMemory t u) : ∃ m', OutcomeWithMem m' (.next t) (.next u) := by
  obtain ⟨m', rfl⟩ := h
  exact ⟨m', .next t⟩

theorem atPlv0 {body body' : Host.Outcome State Fault Refusal} (h : OutcomeWithMem m body body') (s : State) :
    OutcomeWithMem m (s.atPlv0 body) ((s.withMem m).atPlv0 body') := by
  have hlevel : (s.withMem m).level = s.level := rfl
  simp only [State.atPlv0, hlevel]
  split
  · exact h
  · exact .next (s.raise .ipe)
  · exact .refused _

theorem csrExchange (rd : RegNum) (n : CsrNum) (new : Word → Word → Word) (s : State) :
    OutcomeWithMem m (csrExchange rd n new s) (csrExchange rd n new (s.withMem m)) := by
  obtain ⟨r, hs, hm⟩ | ⟨v, s', hs, hm⟩ := withMem_csrRead s m n <;>
    simp only [Machine.csrExchange, hs, hm]
  · exact .refused r
  · rw [withMem_csrWrite, withMem_writeReg]
    exact .next _

end OutcomeWithMem

/-- An instruction other than CACOP neither looks at memory nor changes it (R41). -/
theorem exec_withMem {i : Instr} (hi : ∀ code rj si, i ≠ .cacop code rj si) (s : State) (m : Memory) :
    OutcomeWithMem m (exec i s) (exec i (s.withMem m)) := by
  cases i with
  | cacop code rj si => exact absurd rfl (hi code rj si)
  | csrrd rd n =>
    refine OutcomeWithMem.atPlv0 ?_ s
    obtain ⟨r, hs, hm⟩ | ⟨v, s', hs, hm⟩ := withMem_csrRead s m n <;> rw [hs, hm]
    · exact .refused r
    · dsimp only
      rw [withMem_writeReg]
      exact .next _
  | csrwr rd n => exact (OutcomeWithMem.csrExchange rd n _ s).atPlv0 s
  | csrxchg rd rj n => exact (OutcomeWithMem.csrExchange rd n _ s).atPlv0 s
  | tlbsrch =>
    have hlookup : (s.withMem m).tlbLookup (vppnWord (s.withMem m).vppn) (s.withMem m).asid =
      s.tlbLookup (vppnWord s.vppn) s.asid := rfl
    refine OutcomeWithMem.atPlv0 ?_ s
    rw [hlookup]
    cases s.tlbLookup (vppnWord s.vppn) s.asid with
    | miss => exact .next (s.putCsr .tlbidx _).advance
    | hit i => exact .next (s.putCsr .tlbidx _).advance
    | refuse r => exact .refused r
  | tlbrd =>
    refine OutcomeWithMem.atPlv0 ?_ s
    rw [withMem_readTlbEntry]
    exact .next _
  | tlbwr => exact OutcomeWithMem.atPlv0 (.next (s.fillEntry s.tlbIndex).advance) s
  | tlbfill =>
    exact OutcomeWithMem.atPlv0
      (.next (s.fillEntry (Config.freeTlbIndex s.draws % s.params.tlbEntries)).tick.advance) s
  | invtlb op rj rk =>
    simp only [exec, execInvtlb]
    cases invOp op with
    | none =>
      have hlevel : (s.withMem m).level = s.level := rfl
      simp only [undefinedInvtlb, hlevel]
      split
      · exact .next (s.raise .ine)
      · exact .next (s.tick.raise _)
      · exact .refused _
    | some o =>
      refine OutcomeWithMem.atPlv0 ?_ s
      have hreg : ∀ r, (s.withMem m).readReg r = s.readReg r := fun _ => rfl
      have hparams : (s.withMem m).params = s.params := rfl
      have htlb : (s.withMem m).tlb = s.tlb := rfl
      unfold invtlbBody
      rw [hreg, hreg, hparams, htlb]
      split
      · exact .refused _
      · cases o.onTlb s.params _ _ s.tlb with
        | ok tlb => exact .next (State.advance { s with tlb := tlb })
        | error r => exact .refused r
  | ertn => exact OutcomeWithMem.atPlv0 (.next s.exceptionReturn) s
  | idle level => exact OutcomeWithMem.atPlv0 (.next { s.advance with idle := true }) s

/-- CACOP after its privilege check does with another memory what it does, but to memory (R80, R87; log 20). -/
theorem cacopBody_withMem (code : BitVec 5) (va : Word) (s : State) (m : Memory) :
    ∃ m', OutcomeWithMem m' (cacopBody code va s) (cacopBody code va (s.withMem m)) := by
  have h := SameButMemory.withMem s m
  have htranslate : translate (s.withMem m) va .load = translate s va .load := rfl
  unfold cacopBody
  cases cacopCache code with
  | none => exact ⟨m, .refused _⟩
  | some c =>
    simp only [cacopOn]
    cases cacopKind code with
    | storeTag => exact OutcomeWithMem.of_sameButMemory (h.storeTag c va).advance
    | indexInvalidate => exact OutcomeWithMem.of_sameButMemory (h.indexInvalidate c va).advance
    | hitInvalidate =>
      simp only [htranslate]
      cases translate s va .load with
      | pa a => exact OutcomeWithMem.of_sameButMemory (h.hitInvalidate c a).advance
      | raise x => exact ⟨m, .next (s.takeException x va)⟩
      | refuse r => exact ⟨m, .refused r⟩
    | custom =>
      simp only [h.params]
      cases s.params.cacopCustom with
      | refused => exact ⟨m, .refused _⟩
      | defined => exact OutcomeWithMem.of_sameButMemory (h.customCacop c va).advance

theorem execCacop_withMem (code : BitVec 5) (rj : RegNum) (si : BitVec 12) (s : State) (m : Memory) :
    ∃ m', OutcomeWithMem m' (execCacop code rj si s) (execCacop code rj si (s.withMem m)) := by
  have hva : cacopVa (s.withMem m) rj si = cacopVa s rj si := rfl
  have hlevel : (s.withMem m).level = s.level := rfl
  have hbody := cacopBody_withMem code (cacopVa s rj si) s m
  unfold execCacop
  rw [hva]
  split
  · simp only [State.atAnyPlv, hlevel]
    split
    · exact hbody
    · exact hbody
    · exact ⟨m, .refused _⟩
  · simp only [State.atPlv0, hlevel]
    split
    · exact hbody
    · exact ⟨m, .next (s.raise .ipe)⟩
    · exact ⟨m, .refused _⟩

/-- Every instruction does with another memory what it does, but to memory. -/
theorem exec_outcomeWithMem (i : Instr) (s : State) (m : Memory) :
    ∃ m', OutcomeWithMem m' (exec i s) (exec i (s.withMem m)) := by
  cases i with
  | cacop code rj si => exact execCacop_withMem code rj si s m
  | _ => exact ⟨m, exec_withMem (by simp) s m⟩

/-- An instruction other than CACOP leaves memory: with its own memory put in place the outcome is its own. -/
theorem exec_mem {i : Instr} (hi : ∀ code rj si, i ≠ .cacop code rj si) {s t : State} (ht : exec i s = .next t) :
    t.mem = s.mem := by
  have h := exec_withMem hi s s.mem
  rw [withMem_self, ht, OutcomeWithMem.next_iff, Host.Outcome.next.injEq] at h
  rw [h, withMem_mem]

/-- Settles O14: the outcome on another memory is the outcome, but for memory, and no outcome is a fault. -/
theorem instructionsIgnoreMemory : Obligations.InstructionsIgnoreMemory := by
  unfold Obligations.InstructionsIgnoreMemory
  intro i s m
  obtain ⟨m', h⟩ := exec_outcomeWithMem i s m
  change OutcomeWithMem m' (exec i s) (exec i { s with mem := m }) at h
  refine ⟨fun t ht => ?_, fun r hr => ?_, fun f hf => ?_⟩
  · rw [ht, OutcomeWithMem.next_iff] at h
    exact ⟨_, h, rfl, fun hi => ⟨exec_mem hi ht, exec_mem hi h⟩⟩
  · rw [hr, OutcomeWithMem.refused_iff] at h
    exact h
  · rw [hf] at h
    exact OutcomeWithMem.not_fault h

end Sys2Proof.Machine
end

section
/-! PROOFS. The decoder and the encoder (O1 to O5): which words a row takes, the fields in a word, and that the
eleven rows share no word but those R59 orders. -/

namespace Sys2Proof.Laws

open Sys2Proof.Machine

/-! Fields of a word (R5, R57). -/

/-- A field in its place in the word is the word under the field's mask. -/
theorem getField_inPlace (w : Word) (lo len : Nat) :
    (getField w lo len).setWidth 32 <<< lo = w &&& (lowMask 32 len <<< lo) := by
  apply BitVec.eq_of_getLsbD_eq
  intro k hk
  simp only [getField, BitVec.getLsbD_shiftLeft, BitVec.getLsbD_setWidth, BitVec.getLsbD_extractLsb',
    BitVec.getLsbD_and, getLsbD_lowMask]
  by_cases hlo : lo ≤ k
  · simp [Nat.add_sub_cancel' hlo, Bool.and_comm, Bool.and_left_comm, Bool.and_assoc]
  · simp [show k < lo by omega]

theorem getField_lowest_inPlace (w : Word) (len : Nat) :
    (getField w 0 len).setWidth 32 = w &&& lowMask 32 len := by
  simpa using getField_inPlace w 0 len

theorem getField_or (a b : Word) (lo len : Nat) :
    getField (a ||| b) lo len = getField a lo len ||| getField b lo len := by
  ext k hk
  simp [getField]

/-- A field placed in a word of zeros is read back. -/
theorem getField_shiftLeft_same {len : Nat} (f : BitVec len) (lo : Nat) (h : lo + len ≤ 32) :
    getField (f.setWidth 32 <<< lo) lo len = f := by
  ext k hk
  simp [getField, show lo + k < 32 by omega, hk]

theorem getField_setWidth_same {len : Nat} (f : BitVec len) (h : len ≤ 32) :
    getField (f.setWidth 32) 0 len = f := by
  simpa using getField_shiftLeft_same f 0 (by omega)

/-- A field that does not meet the one placed in a word of zeros is zero. -/
theorem getField_shiftLeft_other {len : Nat} (f : BitVec len) (lo lo' len' : Nat)
    (h : lo' + len' ≤ lo ∨ lo + len ≤ lo') : getField (f.setWidth 32 <<< lo) lo' len' = 0#len' := by
  ext k hk
  simp only [getField, BitVec.getElem_extractLsb', BitVec.getLsbD_shiftLeft, BitVec.getLsbD_setWidth,
    BitVec.getElem_zero]
  obtain hbelow | habove := h
  · simp [show lo' + k < lo by omega]
  · simp [BitVec.getLsbD_of_ge f (lo' + k - lo) (by omega)]

theorem getField_setWidth_other {len : Nat} (f : BitVec len) (lo' len' : Nat) (h : len ≤ lo') :
    getField (f.setWidth 32) lo' len' = 0#len' := by
  simpa using getField_shiftLeft_other f 0 lo' len' (by omega)

theorem getField_ofNat (n lo len : Nat) :
    getField (BitVec.ofNat 32 n) lo len = (BitVec.ofNat 32 n).extractLsb' lo len := rfl

/-! The rows of the opcode map (R58, R59). -/

theorem accepts_iff (r : OpcodeRow) (w : Word) : r.accepts w = true ↔ w &&& r.mask = r.pattern := by
  simp [OpcodeRow.accepts]

/-- The rows in the table's order (R58). -/
def opcodeRows : List OpcodeRow :=
  [rowCsrrd, rowCsrwr, rowCsrxchg, rowCacop, rowTlbsrch, rowTlbrd, rowTlbwr, rowTlbfill, rowErtn, rowIdle, rowInvtlb]

/-- Two rows clash where their patterns differ at a bit that both masks fix. -/
abbrev Clash (r q : OpcodeRow) : Prop := r.pattern &&& q.mask ≠ q.pattern &&& r.mask

/-- No word is of two rows that clash. -/
theorem not_accepts_of_clash {r q : OpcodeRow} {w : Word} (hr : r.accepts w = true) (h : Clash r q) :
    q.accepts w = false := by
  rw [← Bool.not_eq_true]
  intro hq
  rw [accepts_iff] at hr hq
  apply h
  rw [← hr, ← hq, BitVec.and_assoc, BitVec.and_assoc, BitVec.and_comm r.mask]

/-- Among the words of CSRXCHG's row, the field rj tells which are CSRRD's and which are CSRWR's (R59). -/
theorem and_csrMask_iff {w : Word} (hw : rowCsrxchg.accepts w = true) (v : RegNum) :
    w &&& 0xFF0003E0#32 = 0x04000000#32 ||| (v.setWidth 32 <<< 5) ↔ fieldRj w = v := by
  have hmask : w &&& 0xFF0003E0#32 = 0x04000000#32 ||| ((fieldRj w).setWidth 32 <<< 5) := by
    rw [fieldRj, getField_inPlace, ← show w &&& 0xFF000000#32 = 0x04000000#32 from (accepts_iff _ _).mp hw,
      ← BitVec.and_or_distrib_left]
    rfl
  rw [hmask]
  refine ⟨fun h => ?_, fun h => by rw [h]⟩
  have hrj := congrArg (getField · 5 5) h
  simpa only [getField_or, getField_shiftLeft_same (len := 5) _ 5 (by omega), BitVec.zero_or,
    show getField 0x04000000#32 5 5 = 0#5 from rfl] using hrj

theorem rowCsrrd_accepts_iff {w : Word} (hw : rowCsrxchg.accepts w = true) :
    rowCsrrd.accepts w = true ↔ fieldRj w = 0#5 :=
  (accepts_iff _ _).trans (and_csrMask_iff hw 0#5)

theorem rowCsrwr_accepts_iff {w : Word} (hw : rowCsrxchg.accepts w = true) :
    rowCsrwr.accepts w = true ↔ fieldRj w = 1#5 :=
  (accepts_iff _ _).trans (and_csrMask_iff hw 1#5)

/-! What the decoder answers. -/

/-- The instruction with each operand replaced by its field in a word (R56, R57). -/
def withFieldsOf (w : Word) : Instr → Instr
  | .csrrd _ _ => .csrrd (fieldRd w) (fieldCsr w)
  | .csrwr _ _ => .csrwr (fieldRd w) (fieldCsr w)
  | .csrxchg _ _ _ => .csrxchg (fieldRd w) (fieldRj w) (fieldCsr w)
  | .cacop _ _ _ => .cacop (fieldCode w) (fieldRj w) (fieldSi12 w)
  | .tlbsrch => .tlbsrch
  | .tlbrd => .tlbrd
  | .tlbwr => .tlbwr
  | .tlbfill => .tlbfill
  | .invtlb _ _ _ => .invtlb (fieldOp w) (fieldRj w) (fieldRk w)
  | .ertn => .ertn
  | .idle _ => .idle (fieldLevel w)

theorem csrxchg_wf_iff {w : Word} (hw : rowCsrxchg.accepts w = true) (rd : RegNum) (n : CsrNum) :
    (Instr.csrxchg rd (fieldRj w) n).wf = true ↔ rowCsrrd.accepts w = false ∧ rowCsrwr.accepts w = false := by
  simp only [Instr.wf, Bool.and_eq_true, bne_iff_ne, ne_eq, ← Bool.not_eq_true, rowCsrrd_accepts_iff hw,
    rowCsrwr_accepts_iff hw]

/-- A word of a well-formed instruction's row decodes to it: no row that the decoder asks before it takes the word. -/
theorem decodeWord_of_row {w : Word} {i : Instr} (hrow : (rowOf i).accepts w = true) (hwf : i.wf = true)
    (hops : i = withFieldsOf w i) : decodeWord w = .ok i := by
  rw [hops] at hwf ⊢
  cases i with
  | csrxchg rd rj n =>
    obtain ⟨hcsrrd, hcsrwr⟩ := (csrxchg_wf_iff hrow _ _).mp hwf
    simp only [rowOf] at hrow
    simp (disch := decide) [decodeWord, withFieldsOf, hrow, hcsrrd, hcsrwr, not_accepts_of_clash hrow]
  | _ =>
    simp only [rowOf] at hrow
    simp (disch := decide) [decodeWord, withFieldsOf, hrow, not_accepts_of_clash hrow]

/-- The rows in the order the decoder asks them (R59), with the instruction each reads in the word. -/
def decodeOrder (w : Word) : List (OpcodeRow × Instr) :=
  [(rowCsrrd, .csrrd (fieldRd w) (fieldCsr w)), (rowCsrwr, .csrwr (fieldRd w) (fieldCsr w)),
    (rowCacop, .cacop (fieldCode w) (fieldRj w) (fieldSi12 w)), (rowTlbsrch, .tlbsrch), (rowTlbrd, .tlbrd),
    (rowTlbwr, .tlbwr), (rowTlbfill, .tlbfill), (rowErtn, .ertn), (rowIdle, .idle (fieldLevel w)),
    (rowInvtlb, .invtlb (fieldOp w) (fieldRj w) (fieldRk w)),
    (rowCsrxchg, .csrxchg (fieldRd w) (fieldRj w) (fieldCsr w))]

/-- The instruction of the first row that takes the word. -/
def firstAccepting (w : Word) : List (OpcodeRow × Instr) → Except DecodeReject Instr
  | [] => .error (.outOfScope w)
  | (r, i) :: rest => if r.accepts w then .ok i else firstAccepting w rest

theorem decodeWord_eq_firstAccepting (w : Word) : decodeWord w = firstAccepting w (decodeOrder w) := rfl

theorem firstAccepting_ok {w : Word} {rows : List (OpcodeRow × Instr)} {i : Instr}
    (h : firstAccepting w rows = .ok i) : ∃ r, (r, i) ∈ rows ∧ r.accepts w = true := by
  induction rows with
  | nil => cases h
  | cons x rows ih =>
    rw [firstAccepting] at h
    split at h
    · next hx => cases h; exact ⟨x.1, List.mem_cons_self, hx⟩
    · obtain ⟨r, hmem, hr⟩ := ih h
      exact ⟨r, List.mem_cons_of_mem _ hmem, hr⟩

theorem firstAccepting_error_iff {w : Word} {rows : List (OpcodeRow × Instr)} {e : DecodeReject} :
    firstAccepting w rows = .error e ↔ e = .outOfScope w ∧ ∀ x ∈ rows, x.1.accepts w = false := by
  induction rows with
  | nil => simp [firstAccepting, eq_comm (b := e)]
  | cons x rows ih =>
    rw [firstAccepting, List.forall_mem_cons]
    split
    · next hx => simp [hx]
    · next hx => simp [hx, ih]

/-- What the decoder reads for a row is that row's instruction with the operands of the word. -/
theorem decodeOrder_reads (w : Word) : ∀ x ∈ decodeOrder w, x.1 = rowOf x.2 ∧ x.2 = withFieldsOf w x.2 := by
  simp [decodeOrder, rowOf, withFieldsOf]

/-- CSRXCHG is decoded last, so its mask register is neither r0 nor r1 (R59). -/
theorem wf_of_decodeWord {w : Word} {i : Instr} (h : decodeWord w = .ok i) (hrow : (rowOf i).accepts w = true)
    (hops : i = withFieldsOf w i) : i.wf = true := by
  cases i with
  | csrxchg rd rj n =>
    rw [hops]
    refine (csrxchg_wf_iff hrow _ _).mpr ⟨?_, ?_⟩ <;> rw [← Bool.not_eq_true] <;> intro hearlier
    · rw [decodeWord_of_row (i := .csrrd (fieldRd w) (fieldCsr w)) hearlier rfl rfl] at h
      cases h
    · rw [decodeWord_of_row (i := .csrwr (fieldRd w) (fieldCsr w)) hearlier rfl rfl] at h
      cases h
  | _ => rfl

/-- The decoder, said once: a word decodes to an instruction exactly when it is of the instruction's row, the
instruction is well-formed and its operands are the fields of the word. -/
theorem decodeWord_ok_iff {w : Word} {i : Instr} :
    decodeWord w = .ok i ↔ (rowOf i).accepts w = true ∧ i.wf = true ∧ i = withFieldsOf w i := by
  refine ⟨fun h => ?_, fun ⟨hrow, hwf, hops⟩ => decodeWord_of_row hrow hwf hops⟩
  obtain ⟨r, hmem, haccepts⟩ := firstAccepting_ok (decodeWord_eq_firstAccepting w ▸ h)
  obtain ⟨hr : r = rowOf i, hops⟩ := decodeOrder_reads w _ hmem
  rw [hr] at haccepts
  exact ⟨haccepts, wf_of_decodeWord h haccepts hops, hops⟩

/-- The decoder asks every row of the table once. -/
theorem decodeOrder_perm (w : Word) : ((decodeOrder w).map Prod.fst).Perm opcodeRows := by
  change (priorityOneRows ++ [rowCsrxchg]).Perm opcodeRows
  decide

/-- The decoder rejects the words no row takes, and names the word (R60). -/
theorem decodeWord_error_iff {w : Word} {e : DecodeReject} :
    decodeWord w = .error e ↔ e = .outOfScope w ∧ ∀ r ∈ opcodeRows, r.accepts w = false := by
  simp only [decodeWord_eq_firstAccepting, firstAccepting_error_iff, ← (decodeOrder_perm w).mem_iff,
    List.forall_mem_map]

theorem decodeWord_error_of_no_row {w : Word} (h : ¬ ∃ r ∈ opcodeRows, r.accepts w = true) :
    decodeWord w = .error (.outOfScope w) :=
  decodeWord_error_iff.mpr ⟨rfl, by simpa using h⟩

/-- The decoder is total on the rows (R60). -/
theorem decodeWord_ok_of_row {w : Word} (h : ∃ r ∈ opcodeRows, r.accepts w = true) :
    ∃ i, decodeWord w = .ok i := by
  obtain ⟨r, hr, haccepts⟩ := h
  cases hdecode : decodeWord w with
  | ok i => exact ⟨i, rfl⟩
  | error e =>
    obtain ⟨-, hnone⟩ := decodeWord_error_iff.mp hdecode
    exact absurd haccepts (ne_true_of_eq_false (hnone r hr))

/-! The encoder. -/

theorem encode_accepts (i : Instr) : (rowOf i).accepts (encode i) = true := by
  cases i with
  | csrrd rd n => exact EncodeRow.csrrd rd n
  | csrwr rd n => exact EncodeRow.csrwr rd n
  | csrxchg rd rj n => exact EncodeRow.csrxchg rd rj n
  | cacop code rj si => exact EncodeRow.cacop code rj si
  | tlbsrch => exact EncodeRow.tlbsrch
  | tlbrd => exact EncodeRow.tlbrd
  | tlbwr => exact EncodeRow.tlbwr
  | tlbfill => exact EncodeRow.tlbfill
  | invtlb op rj rk => exact EncodeRow.invtlb op rj rk
  | ertn => exact EncodeRow.ertn
  | idle level => exact EncodeRow.idle level

/-- The fields of an instruction's word are its operands: each stands in its place, and the pattern and the other
operands leave it zero (R56, R57). -/
theorem withFieldsOf_encode (i : Instr) : i = withFieldsOf (encode i) i := by
  cases i with
  | tlbsrch | tlbrd | tlbwr | tlbfill | ertn => rfl
  | _ =>
    simp (disch := omega) [withFieldsOf, encode, fieldRd, fieldRj, fieldRk, fieldCsr, fieldCode, fieldSi12, fieldOp,
      fieldLevel, getField_or, getField_shiftLeft_same, getField_shiftLeft_other, getField_setWidth_same,
      getField_setWidth_other, getField_ofNat]

/-- A word is the bits a mask fixes with the bits it leaves open. -/
theorem or_openBits {w m p a : Word} (hw : w &&& m = p) (hopen : m ||| a = BitVec.allOnes 32) :
    p ||| (w &&& a) = w := by
  rw [← hw, ← BitVec.and_or_distrib_left, hopen, BitVec.and_allOnes]

/-- A word is its row's fixed bits with the operands' fields in their places, which are all the mask leaves open
(R58). -/
theorem encode_withFieldsOf {w : Word} {i : Instr} (hrow : (rowOf i).accepts w = true) :
    encode (withFieldsOf w i) = w := by
  rw [accepts_iff] at hrow
  cases i with
  | tlbsrch | tlbrd | tlbwr | tlbfill | ertn => exact hrow.symm.trans BitVec.and_allOnes
  | _ =>
    simp only [withFieldsOf, encode, fieldRd, fieldRj, fieldRk, fieldCsr, fieldCode, fieldSi12, fieldOp, fieldLevel,
      getField_inPlace, getField_lowest_inPlace, BitVec.or_assoc, ← BitVec.and_or_distrib_left]
    simp only [rowOf] at hrow
    exact or_openBits hrow (by decide)

theorem decodeWord_encode {i : Instr} (hwf : i.wf = true) : decodeWord (encode i) = .ok i :=
  decodeWord_of_row (encode_accepts i) hwf (withFieldsOf_encode i)

/-- Four bytes in memory order decode as the word they stand for (R42, R55). -/
theorem decodeBytes_leBytes {w : Word} {i : Instr} (h : decodeWord w = .ok i) (rest : List Byte) :
    decodeBytes (leBytes 4 w.toNat ++ rest) = .ok (i, rest) := by
  have hword : BitVec.ofNat 32 (leNat (leBytes 4 w.toNat)) = w := by
    rw [leNat_leBytes]
    apply BitVec.eq_of_toNat_eq
    rw [BitVec.toNat_ofNat]
    omega
  simp only [leBytes] at hword
  simp only [leBytes, List.cons_append, List.nil_append, decodeBytes, hword, h]

/-! Decoder and encoder (R58, R59, R67). -/

/-- Settles O2: an instruction's word is of its row and holds its operands, so the decoder reads it back. -/
theorem decodeEncodeAgree : Obligations.DecodeEncodeAgree := by
  unfold Obligations.DecodeEncodeAgree
  exact fun i hwf => ⟨decodeWord_encode hwf, decodeBytes_leBytes (decodeWord_encode hwf)⟩

/-- Settles O3: the decoder's instruction holds the operands of the word, and they are all the row leaves open. -/
theorem encodeDecodeAgree : Obligations.EncodeDecodeAgree := by
  unfold Obligations.EncodeDecodeAgree
  intro w i h
  obtain ⟨hrow, hwf, hops⟩ := decodeWord_ok_iff.mp h
  refine ⟨hwf, ?_⟩
  rw [hops]
  exact encode_withFieldsOf hrow

/-- Settles O1: the words by the encoder, the instructions by the round trip. -/
theorem specWordsDecode : Obligations.SpecWordsDecode := by
  unfold Obligations.SpecWordsDecode
  intro x hx
  obtain ⟨hword, hwf⟩ : encode x.2 = x.1 ∧ x.2.wf = true := by
    revert x hx
    decide
  exact ⟨hword ▸ decodeWord_encode hwf, hword⟩

/-! The opcode map, and the words outside it (R58, R60). -/

theorem and_fullMask (w : Word) : w &&& 0xFFFFFFFF#32 = w := BitVec.and_allOnes

/-- Settles O4: the decoder's condition, read off for each row. -/
theorem decoderFollowsOpcodeMap : Obligations.DecoderFollowsOpcodeMap := by
  unfold Obligations.DecoderFollowsOpcodeMap
  intro w
  simp only [decodeWord_ok_iff, accepts_iff, rowOf, withFieldsOf, Instr.wf, Bool.and_eq_true, bne_iff_ne,
    Instr.csrrd.injEq, Instr.csrwr.injEq, Instr.csrxchg.injEq, Instr.cacop.injEq, Instr.idle.injEq,
    Instr.invtlb.injEq, true_and, and_true, and_assoc]
  refine ⟨fun _ _ => Iff.rfl, fun _ _ => Iff.rfl, fun _ _ _ => Iff.rfl, fun _ _ _ => Iff.rfl, ?_, ?_, ?_, ?_, ?_,
    fun _ => Iff.rfl, fun _ _ _ => Iff.rfl⟩ <;>
    exact Eq.congr_left (and_fullMask w)

/-- The fetch of a word that no row takes (R60). -/
theorem fetchAt_outOfScope {p : Params} {m : Memory} {a : PAddr} {w : Word} (hmapped : p.holdsWord a.toNat = true)
    (hread : memRead m a.toNat 4 = some w.toNat) {e : DecodeReject} (hdecode : decodeWord w = .error e) :
    fetchAt p m a = .refuse (.outOfScope w) := by
  rw [fetchAt, if_pos hmapped, hread]
  simp only [BitVec.ofNat_toNat, BitVec.setWidth_eq, hdecode]

/-- Settles O5: the decoder rejects what no row takes, and the step is refused with its fetch. -/
theorem wordOutOfScopeRefused : Obligations.WordOutOfScopeRefused := by
  unfold Obligations.WordOutOfScopeRefused
  intro w matchesARow
  have hrows : matchesARow ↔ ∃ r ∈ opcodeRows, r.accepts w = true := by
    change (∃ x ∈ opcodeRows.map fun r => (r.mask, r.pattern), w &&& x.1 = x.2) ↔ _
    simp only [List.mem_map, exists_exists_and_eq_and, accepts_iff]
  rw [hrows]
  refine ⟨decodeWord_ok_of_row, fun hnone => ⟨decodeWord_error_of_no_row hnone, ?_⟩⟩
  intro s a hs hlevel hidle hint hpc ht hmapped hread
  have hfetch : fetch s.sampled = .refuse (.outOfScope w) :=
    (fetch_of_translate_pa hpc ht).trans (fetchAt_outOfScope hmapped hread (decodeWord_error_of_no_row hnone))
  obtain ⟨-, -, hrefuse⟩ := coreStep_fetches (already := s.wakes) hlevel hidle hint
  exact (step_of_coreSteps hs).trans (hrefuse _ hfetch)

end Sys2Proof.Laws
end

section
/-! PROOFS. The CSR access instructions, and the privilege check in front of every instruction (O15 to O18, O41). -/

namespace Sys2Proof.Machine

/-! What a CSR number names (R14, R15). -/

theorem num_not_unmodelled (c : Csr) : c.num ∉ unmodelledNums := by cases c <;> decide

/-- A number that is no modelled CSR's is one of those the spec lists without a rule, or names nothing. -/
theorem csrSlot_of_ne_num {n : CsrNum} (h : ∀ c, n ≠ Csr.num c) :
    csrSlot n = if n ∈ unmodelledNums then .unmodelled else .undefined := by
  have hfind : modelledCsrs.find? (fun c => c.num == n) = none :=
    List.find?_eq_none.mpr fun c _ => by simpa using (h c).symm
  rw [csrSlot, hfind]

theorem csrSlot_undefined {n : CsrNum} (h : ∀ c, n ≠ Csr.num c) (hn : n ∉ unmodelledNums) : csrSlot n = .undefined := by
  rw [csrSlot_of_ne_num h, if_neg hn]

theorem csrSlot_unmodelled {n : CsrNum} (hn : n ∈ unmodelledNums) : csrSlot n = .unmodelled := by
  rw [csrSlot_of_ne_num fun c hc => num_not_unmodelled c (hc ▸ hn), if_pos hn]

theorem csrRead_undefined {n : CsrNum} (hn : csrSlot n = .undefined) (s : State) :
    csrRead n s = .ok (Config.freeCsrRead s.draws, s.tick) := by
  rw [csrRead, hn]

theorem csrRead_unmodelled {n : CsrNum} (hn : csrSlot n = .unmodelled) (s : State) :
    csrRead n s = .error (.unmodelledCsr n) := by
  rw [csrRead, hn]

theorem csrWrite_undefined {n : CsrNum} (hn : csrSlot n = .undefined) (v : Word) (s : State) : csrWrite n v s = s := by
  rw [csrWrite, hn]

/-! The exchange of CSRWR and CSRXCHG by what the number names (R71, R72). -/

theorem csrExchange_num (rd : RegNum) (c : Csr) (new : Word → Word → Word) (s : State) :
    csrExchange rd c.num new s =
      .next ((s.writeCsr c (new (s.readReg rd) (s.readCsr c))).writeReg rd (s.readCsr c)).advance :=
  csrExchange_next.mpr ⟨_, _, csrRead_num c s, by rw [csrWrite_num]⟩

theorem csrExchange_undefined {n : CsrNum} (hn : csrSlot n = .undefined) (rd : RegNum) (new : Word → Word → Word)
    (s : State) :
    csrExchange rd n new s = .next (s.tick.writeReg rd (Config.freeCsrRead s.draws)).advance :=
  csrExchange_next.mpr ⟨_, _, csrRead_undefined hn s, by rw [csrWrite_undefined hn]⟩

theorem csrExchange_unmodelled {n : CsrNum} (hn : csrSlot n = .unmodelled) (rd : RegNum) (new : Word → Word → Word)
    (s : State) : csrExchange rd n new s = .refused (.unmodelledCsr n) := by
  rw [csrExchange, csrRead_unmodelled hn]

/-! The three instructions at PLV0 (R70 to R72). -/

theorem exec_csrrd_num {s : State} (hplv : s.plv = 0#2) (rd : RegNum) (c : Csr) :
    exec (.csrrd rd c.num) s = .next (s.writeReg rd (s.readCsr c)).advance :=
  execCsrrd_next.mpr (.inl ⟨hplv, _, _, csrRead_num c s, rfl⟩)

theorem exec_csrrd_undefined {s : State} (hplv : s.plv = 0#2) (rd : RegNum) {n : CsrNum}
    (hn : csrSlot n = .undefined) :
    exec (.csrrd rd n) s = .next (s.tick.writeReg rd (Config.freeCsrRead s.draws)).advance :=
  execCsrrd_next.mpr (.inl ⟨hplv, _, _, csrRead_undefined hn s, rfl⟩)

theorem exec_csrrd_unmodelled {s : State} (hplv : s.plv = 0#2) (rd : RegNum) {n : CsrNum}
    (hn : csrSlot n = .unmodelled) : exec (.csrrd rd n) s = .refused (.unmodelledCsr n) := by
  rw [exec, execCsrrd, atPlv0_plv0 hplv, csrRead_unmodelled hn]

theorem exec_csrwr_plv0 {s : State} (hplv : s.plv = 0#2) (rd : RegNum) (n : CsrNum) :
    exec (.csrwr rd n) s = csrExchange rd n (fun oldRd _ => oldRd) s :=
  atPlv0_plv0 hplv _

theorem exec_csrxchg_plv0 {s : State} (hplv : s.plv = 0#2) (rd rj : RegNum) (n : CsrNum) :
    exec (.csrxchg rd rj n) s =
      csrExchange rd n (fun oldRd oldCsr => (oldRd &&& s.readReg rj) ||| (oldCsr &&& ~~~s.readReg rj)) s :=
  atPlv0_plv0 hplv _

/-! What these instructions leave unchanged: each first reads or writes a CSR, then writes rd and moves the pc. -/

/-- The state after the CSR part of an access: of registers, CSRs, stores and pc, only the CSRs listed may differ. -/
structure SameButCsrs (csrs : List Csr) (s u : State) : Prop where
  frame : Frame [] csrs s u
  stores : SameStores s u
  pc_kept : u.pc = s.pc

namespace SameButCsrs

theorem refl (s : State) : SameButCsrs [] s s :=
  ⟨⟨fun _ _ => rfl, fun _ _ => rfl, rfl, rfl⟩, ⟨rfl, fun _ => rfl, fun _ => rfl, rfl⟩, rfl⟩

theorem tick (s : State) : SameButCsrs [] s s.tick where
  frame := ⟨fun r _ => readReg_tick s r, fun c _ => readCsr_tick s c, tick_params s, tick_env s⟩
  stores := ⟨tick_tlb s, cache_tick s, fun _ => rfl, tick_idle s⟩
  pc_kept := tick_pc s

theorem writeCsr (s : State) (c : Csr) (v : Word) : SameButCsrs [c] s (s.writeCsr c v) where
  frame :=
    { regs_kept := fun r _ => readReg_writeCsr s c v r
      csrs_kept := fun c' hc => readCsr_writeCsr_other s c v c' (by simpa using hc)
      params_kept := writeCsr_params s c v
      env_kept := writeCsr_env s c v }
  stores := ⟨writeCsr_tlb s c v, cache_writeCsr s c v, fun _ => by rw [writeCsr_mem], writeCsr_idle s c v⟩
  pc_kept := writeCsr_pc s c v

variable {csrs : List Csr} {s u : State} (h : SameButCsrs csrs s u) (rd : RegNum) (v : Word)
include h

theorem writeReg_advance_frame : Frame [rd] csrs s (u.writeReg rd v).advance where
  regs_kept r hr := by
    have hne : r ≠ rd := by simpa using hr
    rw [readReg_advance, readReg_writeReg, if_neg fun he => hne he.1]
    exact h.frame.regs_kept r List.not_mem_nil
  csrs_kept c hc := by
    rw [readCsr_advance, readCsr_writeReg]
    exact h.frame.csrs_kept c hc
  params_kept := (writeReg_params u rd v).trans h.frame.params_kept
  env_kept := (writeReg_env u rd v).trans h.frame.env_kept

theorem writeReg_advance_sameStores : SameStores s (u.writeReg rd v).advance where
  tlb_kept := (writeReg_tlb u rd v).trans h.stores.tlb_kept
  caches_kept c := by
    rw [cache_advance, cache_writeReg]
    exact h.stores.caches_kept c
  memory_kept a := by
    rw [advance_mem, writeReg_mem]
    exact h.stores.memory_kept a
  idle_kept := (writeReg_idle u rd v).trans h.stores.idle_kept

theorem writeReg_advance_pc : (u.writeReg rd v).advance.pc = s.pc + 4#32 := by
  rw [advance_pc, writeReg_pc, h.pc_kept]

end SameButCsrs

theorem writeReg_advance_sameLink {s u : State} (h : SameLink s u) (rd : RegNum) (v : Word) :
    SameLink s (u.writeReg rd v).advance where
  llbit_kept := (writeReg_llbit u rd v).trans h.llbit_kept
  klo_kept := by rw [advance_csr, writeReg_csr, h.klo_kept]

theorem writeCsr_sameLink (s : State) {c : Csr} (hc : c ≠ .llbctl) (v : Word) : SameLink s (s.writeCsr c v) := by
  rw [writeCsr_eq_putCsr s c v hc]
  exact ⟨putCsr_llbit s c _ hc, putCsr_klo s c _ hc⟩

/-- The register an instruction writes, read after it (R11). -/
theorem readReg_writeReg_advance (s : State) (rd : RegNum) (v : Word) :
    (s.writeReg rd v).advance.readReg rd = if rd = 0#5 then 0#32 else v := by
  rw [readReg_advance, readReg_writeReg]
  by_cases hrd : rd = 0#5
  · simp [hrd]
  · simp [hrd]

/-- What an access to a number that names no CSR leaves (R14, D22): rd takes the free word. -/
theorem completes_with_free_word {s : State} {rd : RegNum} {o : Host.Outcome State Fault Refusal}
    (ho : o = .next (s.tick.writeReg rd (Config.freeCsrRead s.draws)).advance) :
    ∃ t v, o = .next t ∧ t.readReg rd = (if rd = 0#5 then 0#32 else v) ∧ t.pc = s.pc + 4#32 ∧
      Frame [rd] [] s t ∧ SameStores s t ∧ SameLink s t :=
  have hsame := SameButCsrs.tick s
  ⟨_, _, ho, readReg_writeReg_advance _ _ _, hsame.writeReg_advance_pc _ _, hsame.writeReg_advance_frame _ _,
    hsame.writeReg_advance_sameStores _ _, writeReg_advance_sameLink ⟨tick_llbit s, rfl⟩ _ _⟩

/-- Settles O15: the number names a modelled CSR, nothing, or a CSR without a rule. -/
theorem csrrdReads : Obligations.CsrrdReads := by
  unfold Obligations.CsrrdReads
  intro s rd n
  refine ⟨fun hplv => atPlv0_plv3 hplv _, ?_,
    fun hplv hnum hn => completes_with_free_word (exec_csrrd_undefined hplv rd (csrSlot_undefined hnum hn)),
    fun hplv hn => exec_csrrd_unmodelled hplv rd (csrSlot_unmodelled hn)⟩
  rintro hplv c rfl
  have hsame := SameButCsrs.refl s
  have hrd := readReg_writeReg_advance s rd (s.readCsr c)
  refine ⟨_, exec_csrrd_num hplv rd c, hrd, ?_, hsame.writeReg_advance_pc _ _, hsame.writeReg_advance_frame _ _,
    hsame.writeReg_advance_sameStores _ _, writeReg_advance_sameLink ⟨rfl, rfl⟩ _ _⟩
  rintro rfl hne k hk
  rw [hrd, if_neg hne]
  exact getLsbD_llbctl s hk

/-! The CSR an exchange writes, as it reads in the state left. -/

theorem readCsr_exchanged (s : State) {c : Csr} (hc : c ≠ .llbctl) (w : Word) (rd : RegNum) (v : Word) :
    ((s.writeCsr c w).writeReg rd v).advance.readCsr c = maskedWrite s.params c w (s.readCsr c) := by
  rw [readCsr_advance, readCsr_writeReg, readCsr_writeCsr_same s c w hc]

/-- LLBCTL's write (R25): KLO from bit 2, and bit 1 clears the LLbit. -/
theorem link_exchanged (s : State) (w : Word) (rd : RegNum) (v : Word) :
    ((s.writeCsr .llbctl w).writeReg rd v).advance.csr.klo = w.getLsbD 2 ∧
      ((s.writeCsr .llbctl w).writeReg rd v).advance.llbit = (s.llbit && !w.getLsbD 1) := by
  rw [advance_csr, writeReg_csr, advance_llbit, writeReg_llbit]
  exact ⟨rfl, rfl⟩

/-- Settles O16: the word written is the old register. -/
theorem csrwrSwaps : Obligations.CsrwrSwaps := by
  unfold Obligations.CsrwrSwaps
  intro s rd n
  refine ⟨fun hplv => atPlv0_plv3 hplv _, ?_,
    fun hplv hnum hn => completes_with_free_word
      ((exec_csrwr_plv0 hplv rd n).trans (csrExchange_undefined (csrSlot_undefined hnum hn) rd _ s)),
    fun hplv hn => (exec_csrwr_plv0 hplv rd n).trans (csrExchange_unmodelled (csrSlot_unmodelled hn) rd _ s)⟩
  rintro hplv c rfl
  have hsame := SameButCsrs.writeCsr s c (s.readReg rd)
  refine ⟨_, (exec_csrwr_plv0 hplv rd _).trans (csrExchange_num rd c _ s), readReg_writeReg_advance _ _ _,
    fun hc => ⟨readCsr_exchanged s hc _ _ _, writeReg_advance_sameLink (writeCsr_sameLink s hc _) _ _⟩, ?_,
    hsame.writeReg_advance_pc _ _, hsame.writeReg_advance_frame _ _, hsame.writeReg_advance_sameStores _ _⟩
  rintro rfl
  exact link_exchanged s _ _ _

/-- A word put together under a mask, bit by bit (R72). -/
theorem getLsbD_underMask (a b m : Word) {k : Nat} (hk : k < 32) :
    ((a &&& m) ||| (b &&& ~~~m)).getLsbD k = if m.getLsbD k = true then a.getLsbD k else b.getLsbD k := by
  simp only [BitVec.getLsbD_or, BitVec.getLsbD_and, BitVec.getLsbD_not, hk, decide_true, Bool.true_and]
  cases m.getLsbD k <;> simp

/-- A masked write of a word put together under a mask: a bit changes where both masks have it (R14, R72). -/
theorem getLsbD_maskedWrite_underMask (p : Params) (c : Csr) (a old m : Word) {k : Nat} (hk : k < 32) :
    (maskedWrite p c ((a &&& m) ||| (old &&& ~~~m)) old).getLsbD k =
      if (writeMask p c).getLsbD k = true ∧ m.getLsbD k = true then a.getLsbD k else old.getLsbD k := by
  rw [getLsbD_maskedWrite p c _ old k hk, getLsbD_underMask a old m hk, ite_and]

/-- Settles O17: the word written has the old register's bits under the mask register and the old CSR's elsewhere. -/
theorem csrxchgExchangesUnderMask : Obligations.CsrxchgExchangesUnderMask := by
  unfold Obligations.CsrxchgExchangesUnderMask
  intro s rd rj n
  refine ⟨fun hplv => atPlv0_plv3 hplv _, ?_,
    fun hplv hnum hn => completes_with_free_word
      ((exec_csrxchg_plv0 hplv rd rj n).trans (csrExchange_undefined (csrSlot_undefined hnum hn) rd _ s)),
    fun hplv hn => (exec_csrxchg_plv0 hplv rd rj n).trans (csrExchange_unmodelled (csrSlot_unmodelled hn) rd _ s)⟩
  rintro hplv c rfl
  have hsame := SameButCsrs.writeCsr s c ((s.readReg rd &&& s.readReg rj) ||| (s.readCsr c &&& ~~~s.readReg rj))
  refine ⟨_, (exec_csrxchg_plv0 hplv rd rj _).trans (csrExchange_num rd c _ s), readReg_writeReg_advance _ _ _,
    fun hc => ⟨fun k hk => ?_, writeReg_advance_sameLink (writeCsr_sameLink s hc _) _ _⟩, ?_,
    hsame.writeReg_advance_pc _ _, hsame.writeReg_advance_frame _ _, hsame.writeReg_advance_sameStores _ _⟩
  · rw [readCsr_exchanged s hc]
    exact getLsbD_maskedWrite_underMask s.params c _ _ _ hk
  · rintro rfl
    obtain ⟨hklo, hllbit⟩ := link_exchanged s
      ((s.readReg rd &&& s.readReg rj) ||| (s.readCsr .llbctl &&& ~~~s.readReg rj)) rd (s.readCsr .llbctl)
    rw [getLsbD_underMask _ _ _ (by omega), getLsbD_llbctl s (by omega)] at hklo hllbit
    refine ⟨hklo, hllbit.trans ?_⟩
    cases (s.readReg rj).getLsbD 1 <;> rfl

/-! The privilege level after a write of CRMD (R74). -/

/-- CRMD.PLV is writable (R16). -/
theorem plv_writeCsr_crmd (s : State) (v : Word) : (s.writeCsr .crmd v).plv = v.extractLsb' 0 2 := by
  ext k hk
  have hcrmd : (s.writeCsr .crmd v).csr.crmd = maskedWrite s.params .crmd v s.csr.crmd := rfl
  have hwritable : (writeMask s.params .crmd).getLsbD k = true := by
    simp only [writeMask]
    interval_cases k <;> rfl
  rw [State.plv, getField, BitVec.getElem_extractLsb', BitVec.getElem_extractLsb', hcrmd, Nat.zero_add,
    getLsbD_maskedWrite _ _ _ _ k (by omega), if_pos hwritable]

/-- Settles O18: the register written cannot be r0, whose bits 1:0 are 0, and the check reads the new CRMD. -/
theorem crmdWriteActsOnNextInstruction : Obligations.CrmdWriteActsOnNextInstruction := by
  unfold Obligations.CrmdWriteActsOnNextInstruction
  intro s rd rd' n' hplv hrd
  have hne : rd ≠ 0#5 := by
    rintro rfl
    rw [readReg_zero] at hrd
    exact absurd hrd (by decide)
  have hplv3 : ((s.writeCsr .crmd (s.readReg rd)).writeReg rd (s.readCsr .crmd)).advance.plv = 3#2 := by
    rw [← hrd, ← plv_writeCsr_crmd s (s.readReg rd), State.plv, advance_csr, writeReg_csr, State.plv]
  exact ⟨_, (exec_csrwr_plv0 hplv rd _).trans (csrExchange_num rd .crmd _ s), hplv3,
    (readReg_writeReg_advance _ _ _).trans (if_neg hne), atPlv0_plv3 hplv3 _, atPlv0_plv3 hplv3 _⟩

/-! PLV3 (R122). -/

theorem cacopKind_ne_hit {code : BitVec 5} (h : code.extractLsb' 3 2 ≠ 2#2) : cacopKind code ≠ .hitInvalidate := by
  unfold cacopKind
  generalize code.extractLsb' 3 2 = kind at h ⊢
  revert kind
  decide

/-- The ops 0 to 6 name an operation (R98). -/
theorem invOp_some {op : BitVec 5} (h : op.toNat ≤ 6) : ∃ o, invOp op = some o := by
  unfold invOp
  generalize op.toNat = k at h
  interval_cases k <;> exact ⟨_, rfl⟩

/-- Settles O41: each instruction stands behind R122's check, but for a Hit-class CACOP and an INVTLB of no
operation. -/
theorem userModeRaisesIpe : Obligations.UserModeRaisesIpe := by
  unfold Obligations.UserModeRaisesIpe
  intro s i hplv hcacop hinvtlb
  cases i with
  | cacop code rj si12 => exact execCacop_not_hit_plv3 (cacopKind_ne_hit (hcacop code rj si12 rfl)) hplv rj si12
  | invtlb op rj rk =>
    obtain ⟨o, ho⟩ := invOp_some (hinvtlb op rj rk rfl)
    exact execInvtlb_next.mpr (.inr ⟨o, ho, .inr ⟨hplv, rfl⟩⟩)
  | _ => exact atPlv0_plv3 hplv _

end Sys2Proof.Machine
end

section
/-! PROOFS. CACOP: its address and direct index, and what each of its defined operations leaves (O19 to O23). -/

namespace Sys2Proof.Machine

/-! The address (R81). -/

/-- A sign-extended immediate is added modulo 2^32, as an integer. -/
theorem toNat_add_sext12 (x : Word) (si : BitVec 12) :
    ((x + sext12 si).toNat : Int) = ((x.toNat : Int) + si.toInt) % 2 ^ 32 := by
  have hsext : (sext12 si).toInt = si.toInt := BitVec.toInt_signExtend_of_le (by decide)
  have hcond := BitVec.toInt_eq_toNat_cond (sext12 si)
  rw [← hsext, BitVec.toNat_add]
  omega

theorem readReg_cacop {s t : State} {code : BitVec 5} {rj : RegNum} {si : BitVec 12}
    (ht : exec (.cacop code rj si) s = .next t) (r : RegNum) : t.readReg r = s.readReg r := by
  obtain ⟨-, hbody⟩ | ⟨-, -, rfl⟩ := execCacop_next.mp ht
  · obtain ⟨c, -, ⟨-, rfl⟩ | ⟨-, rfl⟩ | ⟨-, ⟨a, -, rfl⟩ | ⟨x, -, rfl⟩⟩ | ⟨-, -, rfl⟩⟩ := cacopBody_next.mp hbody
    · exact readReg_storeTag s c _ r
    · exact readReg_indexInvalidate s c _ r
    · exact readReg_hitInvalidate s c a r
    · exact readReg_takeException s x _ r
    · exact readReg_customCacop s c _ r
  · exact readReg_takeException s .ipe _ r

/-- Settles O19: register 0 reads 0, so that the address is the immediate alone there. -/
theorem cacopAddress : Obligations.CacopAddress := by
  unfold Obligations.CacopAddress
  intro s rj si
  have hva := toNat_add_sext12 (s.readReg rj) si
  refine ⟨hva, ?_, fun _ _ ht => readReg_cacop ht⟩
  rintro rfl
  simpa [cacopVa] using hva

/-! Direct address index (R83). -/

theorem wayOf_lt (g : CacheGeom) (va : Word) : wayOf g va < 2 ^ g.way := Nat.mod_lt _ (Nat.two_pow_pos _)

theorem lineOf_lt (g : CacheGeom) (va : Word) : lineOf g va < 2 ^ g.index := Nat.mod_lt _ (Nat.two_pow_pos _)

theorem directPos_div (g : CacheGeom) (va : Word) : directPos g va / 2 ^ g.index = wayOf g va := by
  rw [directPos, Nat.add_comm, Nat.add_mul_div_right _ _ (Nat.two_pow_pos _), Nat.div_eq_of_lt (lineOf_lt g va),
    Nat.zero_add]

theorem directPos_mod (g : CacheGeom) (va : Word) : directPos g va % 2 ^ g.index = lineOf g va :=
  Nat.mul_add_mod_of_lt (lineOf_lt g va)

theorem directPos_lt (g : CacheGeom) (va : Word) : directPos g va < lineCount g := by
  rw [lineCount, ← Nat.div_lt_iff_lt_mul (Nat.two_pow_pos _), directPos_div]
  exact wayOf_lt g va

theorem testBit_wayOf (g : CacheGeom) (va : Word) (k : Nat) :
    (wayOf g va).testBit k = (decide (k < g.way) && va.getLsbD k) :=
  Nat.testBit_mod_two_pow _ _ _

theorem testBit_lineOf (g : CacheGeom) (va : Word) (k : Nat) :
    (lineOf g va).testBit k = (decide (k < g.index) && va.getLsbD (k + g.offset)) := by
  rw [lineOf, Nat.testBit_mod_two_pow, Nat.testBit_div_two_pow, BitVec.getLsbD]

/-- Settles O20: way and line are quotient and remainder of the position. -/
theorem directIndexBits : Obligations.DirectIndexBits := by
  unfold Obligations.DirectIndexBits
  intro g va
  exact ⟨wayOf_lt g va, lineOf_lt g va, directPos_lt g va, testBit_wayOf g va, testBit_lineOf g va,
    directPos_div g va, directPos_mod g va⟩

/-! What every operation of the caches leaves as it was. -/

/-- All but the caches, memory and the count of draws is as before. -/
structure SameButCachesAndMemory (s u : State) : Prop where
  params_kept : u.params = s.params
  gpr_kept : u.gpr = s.gpr
  pc_kept : u.pc = s.pc
  csr_kept : u.csr = s.csr
  llbit_kept : u.llbit = s.llbit
  tlb_kept : u.tlb = s.tlb
  idle_kept : u.idle = s.idle
  env_kept : u.env = s.env

theorem storeTag_sameButCachesAndMemory (s : State) (c : CacheId) (va : Word) :
    SameButCachesAndMemory s (s.storeTag c va) := by
  constructor <;> simp

theorem indexInvalidate_sameButCachesAndMemory (s : State) (c : CacheId) (va : Word) :
    SameButCachesAndMemory s (s.indexInvalidate c va) := by
  constructor <;> simp

theorem hitInvalidate_sameButCachesAndMemory (s : State) (c : CacheId) (a : PAddr) :
    SameButCachesAndMemory s (s.hitInvalidate c a) := by
  constructor <;> simp

namespace SameButCachesAndMemory

variable {s u : State} (h : SameButCachesAndMemory s u)
include h

theorem advance_pc : u.advance.pc = s.pc + 4#32 := by
  rw [Machine.advance_pc, h.pc_kept]

theorem advance_frame : Frame [] [] s u.advance where
  regs_kept r _ := (readReg_advance u r).trans (readReg_congr h.gpr_kept r)
  csrs_kept c _ := (readCsr_advance u c).trans (readCsr_congr h.csr_kept h.llbit_kept c)
  params_kept := h.params_kept
  env_kept := h.env_kept

theorem advance_sameLink : SameLink s u.advance :=
  ⟨h.llbit_kept, congrArg Csrs.klo h.csr_kept⟩

/-- The clauses on what a completed CACOP leaves, as the statements write them. -/
theorem advance_keeps : u.advance.tlb = s.tlb ∧ u.advance.idle = s.idle ∧ Frame [] [] s u.advance ∧ SameLink s u.advance :=
  ⟨h.tlb_kept, h.idle_kept, h.advance_frame, h.advance_sameLink⟩

end SameButCachesAndMemory

/-! CACOP by its operation, behind the privilege check (R80, R88). -/

theorem cacopKind_storeTag {code : BitVec 5} (h : code.extractLsb' 3 2 = 0#2) : cacopKind code = .storeTag := by
  simp [cacopKind, h]

theorem cacopKind_index {code : BitVec 5} (h : code.extractLsb' 3 2 = 1#2) : cacopKind code = .indexInvalidate := by
  simp [cacopKind, h]

section
variable {s : State} {code : BitVec 5} {c : CacheId} (hcache : cacopCache code = some c) (rj : RegNum) (si : BitVec 12)
include hcache

theorem exec_cacop_storeTag (hplv : s.plv = 0#2) (hkind : cacopKind code = .storeTag) :
    exec (.cacop code rj si) s = .next (s.storeTag c (cacopVa s rj si)).advance :=
  (execCacop_plv0 hplv code rj si).trans (cacopBody_next.mpr ⟨c, hcache, .inl ⟨hkind, rfl⟩⟩)

theorem exec_cacop_indexInvalidate (hplv : s.plv = 0#2) (hkind : cacopKind code = .indexInvalidate) :
    exec (.cacop code rj si) s = .next (s.indexInvalidate c (cacopVa s rj si)).advance :=
  (execCacop_plv0 hplv code rj si).trans (cacopBody_next.mpr ⟨c, hcache, .inr (.inl ⟨hkind, rfl⟩)⟩)

/-- A Hit-class CACOP acts at either level (R88). -/
theorem exec_cacop_hit (hlevel : LegalLevel s) (hkind : cacopKind code = .hitInvalidate) :
    exec (.cacop code rj si) s = cacopOn c code (cacopVa s rj si) s := by
  have hbody : exec (.cacop code rj si) s = cacopBody code (cacopVa s rj si) s :=
    hlevel.elim (fun hplv => execCacop_plv0 hplv code rj si) fun hplv => execCacop_hit_plv3 hkind hplv rj si
  rw [hbody, cacopBody, hcache]

end

/-! Clearing a line (R84). -/

theorem storeTag_present {s : State} {c : CacheId} (h : (s.params.geom c).present = true) (va : Word) :
    s.storeTag c va = s.setCache c ((s.cache c).erase (directPos (s.params.geom c) va)) := if_pos h

theorem storeTag_absent {s : State} {c : CacheId} (h : (s.params.geom c).present = false) (va : Word) :
    s.storeTag c va = s := if_neg (by rw [h]; decide)

@[simp] theorem storeTag_mem (s : State) (c : CacheId) (va : Word) : (s.storeTag c va).mem = s.mem := by
  unfold State.storeTag
  split
  · exact setCache_mem s c _
  · rfl

theorem storeTag_at {s : State} {c : CacheId} (h : (s.params.geom c).present = true) (va : Word) (pos : Nat) :
    ((s.storeTag c va).cache c).at pos =
      if pos = directPos (s.params.geom c) va then CacheLine.zero else (s.cache c).at pos := by
  rw [storeTag_present h, cache_setCache, if_pos rfl, at_erase]

theorem storeTag_other_cache (s : State) {c c' : CacheId} (h : c' ≠ c) (va : Word) :
    (s.storeTag c va).cache c' = s.cache c' := by
  unfold State.storeTag
  split
  · rw [cache_setCache, if_neg h]
  · rfl

/-- Settles O21: the line is erased from its cache, and nothing else is written. -/
theorem cacopStoreTag : Obligations.CacopStoreTag := by
  unfold Obligations.CacopStoreTag
  intro s code rj si c hplv hkind hcode
  have hkeeps := storeTag_sameButCachesAndMemory s c (cacopVa s rj si)
  refine ⟨_, exec_cacop_storeTag (cacopCache_of_mem hcode) rj si hplv (cacopKind_storeTag hkind),
    hkeeps.advance_pc, fun hpresent => ?_, fun habsent => ?_, fun c' hne => ?_, fun x => ?_, hkeeps.advance_keeps⟩
  · simp only [cache_advance, storeTag_at hpresent, if_true, true_and]
    exact fun pos hne => if_neg hne
  · rw [cache_advance, storeTag_absent habsent]
  · rw [cache_advance, storeTag_other_cache s hne]
  · rw [advance_mem, storeTag_mem]

/-! The line that write-back and invalidation leave, and the other ones (R85). -/

theorem writebackInvalidate_at (s : State) (c : CacheId) (pos : Nat) :
    ((s.writebackInvalidate c pos).cache c).at pos = { (s.cache c).at pos with valid := false } := by
  rw [writebackInvalidate_cache, if_pos rfl, at_replace]
  split
  · rfl
  · next h => rw [at_not_listed _ _ fun hlisted => h ⟨rfl, hlisted⟩]; rfl

theorem writebackInvalidate_at_other (s : State) (c : CacheId) {pos pos' : Nat} (h : pos' ≠ pos) :
    ((s.writebackInvalidate c pos).cache c).at pos' = (s.cache c).at pos' := by
  rw [writebackInvalidate_cache, if_pos rfl, at_replace, if_neg fun he => h he.1]

/-- Only the level-2 cache changes beside the cache named, and only where the level-1 data cache writes back
into it. -/
theorem writebackInvalidate_other_cache {s : State} {c c' : CacheId} {pos : Nat} (hne : c' ≠ c)
    (h : c' = .l2 → c = .l1d → ¬ MustWriteBack s c pos ∨ (s.params.geom .l2).present = false) :
    (s.writebackInvalidate c pos).cache c' = s.cache c' := by
  rw [writebackInvalidate_cache, if_neg hne]
  split
  · next hwb =>
    rw [writeNextLevel_cache, if_neg]
    rintro ⟨hl2, hl1d, hpresent⟩
    obtain hno | habsent := h hl2 hl1d
    · exact hno ((writesBack_iff s c pos).mp hwb)
    · rw [hpresent] at habsent
      cases habsent
  · rfl

/-! The level-2 lines that take the bytes (R85). -/

/-- A valid line of a legal cache is not empty (R27). -/
theorem State.Inv.data_pos {s : State} (h : s.Inv) {c : CacheId} {pos : Nat} (hv : ((s.cache c).at pos).valid = true) :
    0 < ((s.cache c).at pos).data.length := by
  obtain ⟨-, hsize, -⟩ := h.lines_legal c _ (mem_of_at_valid hv)
  rw [hsize]
  exact Nat.two_pow_pos _

/-- Two lines that are not empty share an address exactly if each begins before the other ends. -/
theorem exists_inLine_both {l l' : CacheLine} (hl : 0 < l.data.length) (hl' : 0 < l'.data.length) :
    (∃ x, InLine l' x ∧ InLine l x) ↔
      l'.tag.toNat < l.tag.toNat + l.data.length ∧ l.tag.toNat < l'.tag.toNat + l'.data.length := by
  constructor
  · rintro ⟨x, ⟨hlo', hhi'⟩, hlo, hhi⟩
    omega
  · rintro ⟨h, h'⟩
    exact ⟨max l.tag.toNat l'.tag.toNat, ⟨by omega, by omega⟩, by omega, by omega⟩

/-- A line that shares no address with another, or is not valid, takes none of its bytes. -/
theorem take_of_no_byte {l l' : CacheLine} (hl : 0 < l.data.length) (hl' : l'.valid = true → 0 < l'.data.length)
    (r : Bool) (h : l'.valid = false ∨ ¬ ∃ x, InLine l' x ∧ InLine l x) : l'.take l.tag.toNat l.data r = l' := by
  cases hv : l'.valid with
  | false => exact take_invalid _ _ _ _ hv
  | true =>
    have hapart := h.resolve_left (by rw [hv]; decide)
    rw [exists_inLine_both hl (hl' hv)] at hapart
    exact take_apart _ _ _ _ hapart

theorem tookBytes_take {l l' : CacheLine} (hv : l'.valid = true) (hl : 0 < l.data.length) (hl' : 0 < l'.data.length)
    (r : Bool) : TookBytes l l' (l'.take l.tag.toNat l.data r) r where
  tag_kept := take_tag _ _ _ _
  valid_kept := take_valid _ _ _ _
  size_kept := take_length _ _ _ _
  taken k hk hin := by rw [take_data _ _ _ _ hv k hk, if_pos hin]
  others_kept k hout := by
    by_cases hk : k < l'.data.length
    · rw [take_data _ _ _ _ hv k hk, if_neg hout]
    · rw [List.getElem?_eq_none (by rw [take_length]; omega), List.getElem?_eq_none (by omega)]
  dirtied hmeet := take_dirty _ _ _ _ hv ((exists_inLine_both hl hl').mp hmeet)

/-- The level-2 cache after a write-back from the level-1 data cache, line by line. -/
theorem writebackInvalidate_next_level {s : State} (hinv : s.Inv) {pos : Nat} (hwb : MustWriteBack s .l1d pos)
    (h2 : (s.params.geom .l2).present = true) (pos' : Nat) :
    ((s.l2.at pos').valid = true → TookBytes ((s.cache .l1d).at pos) (s.l2.at pos')
      ((s.writebackInvalidate .l1d pos).l2.at pos') (Config.freeReachesMemory s.draws)) ∧
    (((s.l2.at pos').valid = false ∨ ¬ ∃ x, InLine (s.l2.at pos') x ∧ InLine ((s.cache .l1d).at pos) x) →
      (s.writebackInvalidate .l1d pos).l2.at pos' = s.l2.at pos') := by
  have hat : (s.writebackInvalidate .l1d pos).l2.at pos' = (s.l2.at pos').take _ _ _ :=
    writebackInvalidate_l2_at h2 ((writesBack_iff s .l1d pos).mpr hwb) pos'
  have ⟨_, hvalid, _⟩ := hwb
  have hl := hinv.data_pos hvalid
  have hl' : (s.l2.at pos').valid = true → 0 < (s.l2.at pos').data.length := hinv.data_pos (c := .l2)
  rw [hat]
  exact ⟨fun hv => tookBytes_take hv hl (hl' hv) _, take_of_no_byte hl hl' _⟩

/-! The bytes that reach memory (R85, R46). -/

theorem holdsByte_iff (c : Cache) (x : Nat) : c.holdsByte x = true ↔ ∃ y ∈ c, y.2.valid = true ∧ InLine y.2 x := by
  simp [Cache.holdsByte, and_assoc]

/-- Which bytes a write-back passes to memory: the model's condition and the statements'. -/
theorem passesToMemory_iff (s : State) (c : CacheId) (x : Nat) (r : Bool) :
    ((c = .l1d ∧ (s.params.geom .l2).present = true) → (r || !s.l2.holdsByte x) = true) ↔
      (c = .l1d → HeldByL2 s x → r = true) := by
  rw [HeldByL2, ← holdsByte_iff]
  cases r <;> cases s.l2.holdsByte x <;> simp

theorem readByte_writebackInvalidate_passed {s : State} (hinv : s.Inv) {c : CacheId} {pos x : Nat}
    (hwb : MustWriteBack s c pos) (hx : InLine ((s.cache c).at pos) x) (hmap : s.params.holdsMemory x = true)
    (hpass : c = .l1d → HeldByL2 s x → Config.freeReachesMemory s.draws = true) :
    (s.writebackInvalidate c pos).mem.readByte x =
      ((s.cache c).at pos).data[x - ((s.cache c).at pos).tag.toNat]? := by
  rw [writebackInvalidate_mem, if_pos ((writesBack_iff s c pos).mpr hwb), readByte_writeNextLevel s hinv.memory_wf,
    if_pos ⟨hx, hmap, (passesToMemory_iff s c x _).mpr hpass⟩]

theorem readByte_writebackInvalidate_kept {s : State} (hinv : s.Inv) {c : CacheId} {pos x : Nat}
    (h : ¬ (MustWriteBack s c pos ∧ InLine ((s.cache c).at pos) x ∧ s.params.holdsMemory x = true ∧
      (c = .l1d → HeldByL2 s x → Config.freeReachesMemory s.draws = true))) :
    (s.writebackInvalidate c pos).mem.readByte x = s.mem.readByte x := by
  rw [writebackInvalidate_mem]
  split
  · next hwb =>
    rw [readByte_writeNextLevel s hinv.memory_wf, if_neg]
    rintro ⟨hx, hmap, hpass⟩
    exact h ⟨(writesBack_iff s c pos).mp hwb, hx, hmap, (passesToMemory_iff s c x _).mp hpass⟩
  · rfl

/-- Write-back and invalidation of a line, with the model's free value for whether the bytes the level-2 cache
takes reach memory too (R85). -/
theorem writebackInvalidate_writtenBackInvalid {s : State} (hinv : s.Inv) (c : CacheId) (pos : Nat) :
    WrittenBackInvalid s (s.writebackInvalidate c pos) c pos (Config.freeReachesMemory s.draws) where
  line := writebackInvalidate_at s c pos
  other_lines _ hne := writebackInvalidate_at_other s c hne
  other_caches _ hne h := writebackInvalidate_other_cache hne h
  next_level := by
    rintro rfl hwb h2 pos'
    exact writebackInvalidate_next_level hinv hwb h2 pos'
  memory _ hwb hx hmap hpass := readByte_writebackInvalidate_passed hinv hwb hx hmap hpass
  memory_kept _ h := readByte_writebackInvalidate_kept hinv h

/-- The pc is no part of what a write-back leaves. -/
theorem WrittenBackInvalid.advance {s u : State} {c : CacheId} {pos : Nat} {r : Bool}
    (h : WrittenBackInvalid s u c pos r) : WrittenBackInvalid s u.advance c pos r where
  line := by rw [cache_advance]; exact h.line
  other_lines := by rw [cache_advance]; exact h.other_lines
  other_caches c' hne hc := (cache_advance u c').trans (h.other_caches c' hne hc)
  next_level := h.next_level
  memory := h.memory
  memory_kept := h.memory_kept

theorem sameCaches_sameMemory_advance_of_eq {s u : State} (h : u = s) : SameCaches s u.advance ∧ SameMemory s u.advance := by
  subst h
  exact ⟨cache_advance u, fun _ => rfl⟩

/-! The line direct index selects, and the line a translated address hits (R85, R86). -/

theorem indexInvalidate_present {s : State} {c : CacheId} (h : (s.params.geom c).present = true) (va : Word) :
    s.indexInvalidate c va = s.writebackInvalidate c (directPos (s.params.geom c) va) := if_pos h

theorem indexInvalidate_absent {s : State} {c : CacheId} (h : (s.params.geom c).present = false) (va : Word) :
    s.indexInvalidate c va = s := if_neg (by rw [h]; decide)

/-- Settles O22: direct index selects the line, and a line written back leaves what R85 says. -/
theorem cacopIndexInvalidate : Obligations.CacopIndexInvalidate := by
  unfold Obligations.CacopIndexInvalidate
  intro s code rj si c hinv hplv hkind hcode
  have hkeeps := indexInvalidate_sameButCachesAndMemory s c (cacopVa s rj si)
  refine ⟨_, exec_cacop_indexInvalidate (cacopCache_of_mem hcode) rj si hplv (cacopKind_index hkind),
    hkeeps.advance_pc, fun hpresent => ?_, fun habsent => ?_, hkeeps.advance_keeps⟩
  · rw [indexInvalidate_present hpresent]
    exact ⟨_, (writebackInvalidate_writtenBackInvalid hinv c _).advance⟩
  · exact sameCaches_sameMemory_advance_of_eq (indexInvalidate_absent habsent _)

/-- The position of the only valid line for an address is the one found. -/
theorem findLine_of_unique {c : Cache} {pos : Nat} {l : CacheLine} {base : PAddr} (hmem : (pos, l) ∈ c)
    (hv : l.valid = true) (htag : l.tag = base)
    (hunique : ∀ x ∈ c, x.2.valid = true → x.2.tag = base → x.1 = pos) : c.findLine base = some pos := by
  cases hfind : c.findLine base with
  | none => exact absurd htag (findLine_none hfind (pos, l) hmem hv)
  | some pos' =>
    obtain ⟨l', hmem', hv', htag'⟩ := findLine_some hfind
    exact congrArg some (hunique (pos', l') hmem' hv' htag')

theorem findLine_of_no_line {c : Cache} {base : PAddr} (h : ∀ x ∈ c, x.2.valid = true → x.2.tag ≠ base) :
    c.findLine base = none := by
  cases hfind : c.findLine base with
  | none => rfl
  | some pos =>
    obtain ⟨l, hmem, hv, htag⟩ := findLine_some hfind
    exact absurd htag (h (pos, l) hmem hv)

theorem hitInvalidate_found {s : State} {c : CacheId} {a : PAddr} {pos : Nat} (h : (s.params.geom c).present = true)
    (hfind : (s.cache c).findLine (lineBase (s.params.geom c) a) = some pos) :
    s.hitInvalidate c a = s.writebackInvalidate c pos := by
  rw [State.hitInvalidate, if_pos h, hfind]

/-- An absent cache, and one without a valid line for the address, stay as they are (R82, R86). -/
theorem hitInvalidate_miss {s : State} {c : CacheId} {a : PAddr}
    (h : (s.params.geom c).present = false ∨ ∀ x ∈ s.cache c, x.2.valid = true → x.2.tag ≠ lineBase (s.params.geom c) a) :
    s.hitInvalidate c a = s := by
  unfold State.hitInvalidate
  split
  · next hpresent =>
    rw [findLine_of_no_line (h.resolve_left (by rw [hpresent]; decide))]
  · rfl

/-- Settles O23: behind the translation the line found is written back and invalidated like one selected by index,
and it is the only one for the address. -/
theorem cacopHitInvalidate : Obligations.CacopHitInvalidate := by
  unfold Obligations.CacopHitInvalidate
  intro s code rj si c hinv hlevel hkind hcode
  have hkind := cacopKind_hit hkind
  rw [exec_cacop_hit (cacopCache_of_mem hcode) rj si hlevel hkind]
  refine ⟨fun x hraise => ?_, fun r hrefuse => ?_, fun a hpa => ?_⟩
  · simp only [cacopOn, hkind, hraise]
  · simp only [cacopOn, hkind, hrefuse]
  · have hkeeps := hitInvalidate_sameButCachesAndMemory s c a
    refine ⟨(s.hitInvalidate c a).advance, by simp only [cacopOn, hkind, hpa], hkeeps.advance_pc,
      fun pos l hpresent hmem hv htag hunique => ?_, fun hmiss => ?_, hkeeps.advance_keeps⟩
    · rw [hitInvalidate_found hpresent (findLine_of_unique hmem hv htag hunique)]
      exact ⟨_, (writebackInvalidate_writtenBackInvalid hinv c pos).advance⟩
    · exact sameCaches_sameMemory_advance_of_eq (hitInvalidate_miss hmiss)

end Sys2Proof.Machine
end

section
/-! PROOFS. TLBRD, TLBWR and TLBFILL, and TLBRD after TLBWR (O28, O30, O31, O32). -/

namespace Sys2Proof.Machine

/-! What an instruction that completes leaves unchanged, besides moving the pc: where only CSRs were written, and
where only the TLB was. -/

namespace SameButCsrs

variable {csrs : List Csr} {s u : State} (h : SameButCsrs csrs s u)
include h

theorem advance_frame : Frame [] csrs s u.advance where
  regs_kept r hr := (readReg_advance u r).trans (h.frame.regs_kept r hr)
  csrs_kept c hc := (readCsr_advance u c).trans (h.frame.csrs_kept c hc)
  params_kept := h.frame.params_kept
  env_kept := h.frame.env_kept

theorem advance_sameStores : SameStores s u.advance where
  tlb_kept := h.stores.tlb_kept
  caches_kept c := (cache_advance u c).trans (h.stores.caches_kept c)
  memory_kept := h.stores.memory_kept
  idle_kept := h.stores.idle_kept

theorem advance_pc : u.advance.pc = s.pc + 4#32 := by
  rw [Machine.advance_pc, h.pc_kept]

end SameButCsrs

/-- All but the TLB and the count of draws is as before. -/
structure SameButTlb (s u : State) : Prop where
  params_kept : u.params = s.params
  gpr_kept : u.gpr = s.gpr
  pc_kept : u.pc = s.pc
  csr_kept : u.csr = s.csr
  llbit_kept : u.llbit = s.llbit
  caches_kept : SameCaches s u
  mem_kept : u.mem = s.mem
  idle_kept : u.idle = s.idle
  env_kept : u.env = s.env

namespace SameButTlb

theorem setTlb (s : State) (tlb : List TlbEntry) : SameButTlb s { s with tlb := tlb } :=
  ⟨rfl, rfl, rfl, rfl, rfl, fun c => by cases c <;> rfl, rfl, rfl, rfl⟩

theorem fillEntry (s : State) (i : Nat) : SameButTlb s (s.fillEntry i) := setTlb s _

variable {s u : State} (h : SameButTlb s u)
include h

theorem tick : SameButTlb s u.tick :=
  { h with caches_kept := fun c => (cache_tick u c).trans (h.caches_kept c) }

theorem advance_frame : Frame [] [] s u.advance where
  regs_kept r _ := (readReg_advance u r).trans (readReg_congr h.gpr_kept r)
  csrs_kept c _ := (readCsr_advance u c).trans (readCsr_congr h.csr_kept h.llbit_kept c)
  params_kept := h.params_kept
  env_kept := h.env_kept

theorem advance_sameMemory : SameMemory s u.advance := fun a => congrArg (fun m : Memory => m.readByte a) h.mem_kept

/-- The clauses on what an instruction that writes the TLB leaves, as the statements write them. -/
theorem advance_keeps : u.advance.pc = s.pc + 4#32 ∧ Frame [] [] s u.advance ∧ SameCaches s u.advance ∧
    SameMemory s u.advance ∧ u.advance.idle = s.idle ∧ SameLink s u.advance :=
  ⟨by rw [advance_pc, h.pc_kept], h.advance_frame, fun c => (cache_advance u c).trans (h.caches_kept c),
    h.advance_sameMemory, h.idle_kept, h.llbit_kept, congrArg Csrs.klo h.csr_kept⟩

end SameButTlb

/-! The CSRs after TLBRD's reading of an entry, an invalid one read as zeros (R93). -/

section ReadTlbEntry

variable (s : State) (e : TlbEntry)

theorem readTlbEntry_tlbehi : (s.readTlbEntry e).csr.tlbehi = if e.e then vppnWord e.vppn else 0#32 := by
  rw [readTlbEntry_eq_putCsr]; rfl

theorem readTlbEntry_tlbelo0 : (s.readTlbEntry e).csr.tlbelo0 = if e.e then eloWord s.params e.page0 e.g else 0#32 := by
  rw [readTlbEntry_eq_putCsr]; rfl

theorem readTlbEntry_tlbelo1 : (s.readTlbEntry e).csr.tlbelo1 = if e.e then eloWord s.params e.page1 e.g else 0#32 := by
  rw [readTlbEntry_eq_putCsr]; rfl

theorem readTlbEntry_tlbidx : (s.readTlbEntry e).csr.tlbidx =
    setBit (setField s.csr.tlbidx 24 (if e.e then e.ps else 0#6)) 31 !e.e := by
  rw [readTlbEntry_eq_putCsr]; rfl

theorem readTlbEntry_asidWord : (s.readTlbEntry e).csr.asid =
    setField s.csr.asid 0 (if e.e then e.asid else 0#10) := by
  rw [readTlbEntry_eq_putCsr]; rfl

theorem readTlbEntry_tlbPs : (s.readTlbEntry e).tlbPs = if e.e then e.ps else 0#6 := by
  rw [State.tlbPs, readTlbEntry_tlbidx, getField_setBit_other _ _ _ _ _ (by omega),
    getField_setField_same _ _ _ (by omega)]

theorem readTlbEntry_ne : (s.readTlbEntry e).ne = !e.e := by
  rw [State.ne, readTlbEntry_tlbidx, getBit_setBit_same _ _ _ (by omega)]

theorem readTlbEntry_asid : (s.readTlbEntry e).asid = if e.e then e.asid else 0#10 := by
  rw [State.asid, readTlbEntry_asidWord, getField_setField_same _ _ _ (by omega)]

/-- PS and NE are the fields of TLBIDX that TLBRD writes (R23, R93). -/
theorem getLsbD_readTlbEntry_tlbidx {k : Nat} (hk : k < 24 ∨ k = 30) :
    (s.readTlbEntry e).csr.tlbidx.getLsbD k = s.csr.tlbidx.getLsbD k := by
  rw [readTlbEntry_tlbidx, getLsbD_setBit, if_neg (by omega), getLsbD_setField, if_neg (by omega)]

theorem getLsbD_readTlbEntry_asid {k : Nat} (hk : 10 ≤ k) :
    (s.readTlbEntry e).csr.asid.getLsbD k = s.csr.asid.getLsbD k := by
  rw [readTlbEntry_asidWord, getLsbD_setField, if_neg (by omega)]

/-- TLBIDX.Index lies below PS, so TLBRD keeps it (R23). -/
theorem readTlbEntry_tlbIndex (hp : s.params.tlbIdxLen ≤ 24) : (s.readTlbEntry e).tlbIndex = s.tlbIndex := by
  apply Nat.eq_of_testBit_eq
  intro k
  rw [State.tlbIndex, State.tlbIndex, readTlbEntry_params, Nat.testBit_mod_two_pow, Nat.testBit_mod_two_pow,
    BitVec.testBit_toNat, BitVec.testBit_toNat]
  by_cases hk : k < s.params.tlbIdxLen
  · rw [getLsbD_readTlbEntry_tlbidx s e (by omega)]
  · rw [decide_eq_false hk, Bool.false_and, Bool.false_and]

theorem readTlbEntry_sameButCsrs :
    SameButCsrs [.tlbehi, .tlbelo0, .tlbelo1, .tlbidx, .asid] s (s.readTlbEntry e) where
  frame :=
    { regs_kept := fun r _ => readReg_readTlbEntry s e r
      csrs_kept := fun c hc => by
        simp only [List.mem_cons, List.not_mem_nil, or_false, not_or] at hc
        obtain ⟨hehi, helo0, helo1, hidx, hasid⟩ := hc
        rw [readTlbEntry_eq_putCsr, readCsr_putCsr_other _ _ _ _ hasid, readCsr_putCsr_other _ _ _ _ hidx,
          readCsr_putCsr_other _ _ _ _ helo1, readCsr_putCsr_other _ _ _ _ helo0, readCsr_putCsr_other _ _ _ _ hehi]
      params_kept := readTlbEntry_params s e
      env_kept := readTlbEntry_env s e }
  stores := ⟨readTlbEntry_tlb s e, cache_readTlbEntry s e, fun _ => by rw [readTlbEntry_mem], readTlbEntry_idle s e⟩
  pc_kept := readTlbEntry_pc s e

theorem readTlbEntry_advance_sameLink : SameLink s (s.readTlbEntry e).advance where
  llbit_kept := readTlbEntry_llbit s e
  klo_kept := by rw [advance_csr, readTlbEntry_eq_putCsr]; rfl

end ReadTlbEntry

theorem exec_tlbrd {s : State} {e : TlbEntry} (hplv : s.plv = 0#2) (he : s.tlb[s.tlbIndex]? = some e) :
    exec .tlbrd s = .next (s.readTlbEntry e).advance := by
  rw [← tlbAt_of_getElem? he]
  exact execTlbrd_next.mpr (.inl ⟨hplv, rfl⟩)

/-- Settles O28: a valid entry and an invalid one are the two cases of each CSR that is read from the entry. -/
theorem tlbrdReads : Obligations.TlbrdReads := by
  unfold Obligations.TlbrdReads
  intro s e he
  refine ⟨fun hplv => atPlv0_plv3 hplv _, fun hplv => ?_⟩
  have hsame := readTlbEntry_sameButCsrs s e
  refine ⟨_, exec_tlbrd hplv he, fun hv => ?_, fun hv => ?_, fun k => getLsbD_readTlbEntry_tlbidx s e,
    fun k => getLsbD_readTlbEntry_asid s e, hsame.advance_pc, hsame.advance_frame, hsame.advance_sameStores,
    readTlbEntry_advance_sameLink s e⟩
  · exact ⟨(readTlbEntry_tlbehi s e).trans (if_pos hv), (readTlbEntry_tlbelo0 s e).trans (if_pos hv),
      (readTlbEntry_tlbelo1 s e).trans (if_pos hv), (readTlbEntry_tlbPs s e).trans (if_pos hv),
      (readTlbEntry_ne s e).trans (congrArg (!·) hv), (readTlbEntry_asid s e).trans (if_pos hv)⟩
  · have hinvalid : ¬ e.e = true := Bool.not_eq_true _ ▸ hv
    exact ⟨(readTlbEntry_tlbehi s e).trans (if_neg hinvalid), (readTlbEntry_tlbelo0 s e).trans (if_neg hinvalid),
      (readTlbEntry_tlbelo1 s e).trans (if_neg hinvalid), (readTlbEntry_tlbPs s e).trans (if_neg hinvalid),
      (readTlbEntry_ne s e).trans (congrArg (!·) hv), (readTlbEntry_asid s e).trans (if_neg hinvalid)⟩

/-! The entry TLBWR and TLBFILL write (R95, R96). -/

theorem writtenE_of_no_refill {s : State} (h : s.ecode ≠ 0x3F#6) : s.writtenE = !s.ne := by
  simp [State.writtenE, h]

theorem exec_tlbwr {s : State} (hplv : s.plv = 0#2) : exec .tlbwr s = .next (s.fillEntry s.tlbIndex).advance :=
  execTlbwr_next.mpr (.inl ⟨hplv, rfl⟩)

theorem exec_tlbfill {s : State} (hplv : s.plv = 0#2) : exec .tlbfill s =
    .next (s.fillEntry (Config.freeTlbIndex s.draws % s.params.tlbEntries)).tick.advance :=
  execTlbfill_next.mpr (.inl ⟨hplv, rfl⟩)

theorem fillEntry_at {s : State} (hinv : s.Inv) {i : Nat} (hi : i < s.params.tlbEntries) :
    (s.fillEntry i).tlb[i]? = some (s.csrEntry s.writtenE) :=
  (fillEntry_getElem? (hinv.tlb_size ▸ hi) i).trans (if_pos rfl)

theorem fillEntry_at_other {s : State} (hinv : s.Inv) {i : Nat} (hi : i < s.params.tlbEntries) {j : Nat} (hj : j ≠ i) :
    (s.fillEntry i).tlb[j]? = s.tlb[j]? :=
  (fillEntry_getElem? (hinv.tlb_size ▸ hi) j).trans (if_neg hj)

/-- Settles O30: the entry the CSRs describe, its E bit from Ecode or NE, takes its place in the TLB. -/
theorem tlbwrWrites : Obligations.TlbwrWrites := by
  unfold Obligations.TlbwrWrites
  intro s hinv
  have hi := tlbIndex_lt s
  exact ⟨fun hplv => atPlv0_plv3 hplv _, fun hplv => ⟨_, s.csrEntry s.writtenE, exec_tlbwr hplv, fillEntry_at hinv hi,
    fun j => fillEntry_at_other hinv hi, fun hrefill => writtenE_true (.inl hrefill), writtenE_of_no_refill,
    rfl, rfl, rfl, rfl, rfl, rfl, (SameButTlb.fillEntry s _).advance_keeps⟩⟩

/-- Settles O31: at the index drawn stands the entry that TLBWR puts at TLBIDX.Index. -/
theorem tlbfillWritesSomeEntry : Obligations.TlbfillWritesSomeEntry := by
  unfold Obligations.TlbfillWritesSomeEntry
  intro s hinv
  have hi : Config.freeTlbIndex s.draws % s.params.tlbEntries < s.params.tlbEntries :=
    Nat.mod_lt _ (Nat.two_pow_pos _)
  refine ⟨fun hplv => atPlv0_plv3 hplv _, fun hplv => ⟨_, _, exec_tlbfill hplv, hi, fun u hu => ?_,
    fun j => fillEntry_at_other hinv hi, (SameButTlb.fillEntry s _).tick.advance_keeps⟩⟩
  obtain rfl := Host.Outcome.next.inj (hu.symm.trans (exec_tlbwr hplv))
  exact (fillEntry_at hinv hi).trans (fillEntry_at hinv (tlbIndex_lt s)).symm

/-! Unpacking a CSR into an entry and packing it again (R94, R95). -/

/-- TLBEHI has zeros below VPPN (R21). -/
theorem vppnWord_getField {p : Params} {w : Word} (hw : WiredWord p .tlbehi w) : vppnWord (getField w 13 19) = w := by
  apply BitVec.eq_of_getLsbD_eq
  intro k hk
  rw [vppnWord, BitVec.getLsbD_append]
  split
  · next hlow =>
    have hwired : (liveBits p .tlbehi).getLsbD k = false := by
      simp only [liveBits, writeMask]
      interval_cases k <;> rfl
    rw [(wired_iff _ _ _).mp hw k hk hwired]
    simp [wiredBits]
  · next hhigh =>
    rw [getField, BitVec.getLsbD_extractLsb', Nat.add_sub_cancel' (Nat.not_lt.mp hhigh)]
    simp [show k - 13 < 19 by omega]

/-- The bits of TLBELO that are reserved read 0: bit 7, and those above the page number (R22). -/
theorem getLsbD_elo_reserved {p : Params} {w : Word} (hw : WiredWord p .tlbelo0 w) {k : Nat} (hk : k < 32)
    (hreserved : k = 7 ∨ p.palen - 4 ≤ k) : w.getLsbD k = false := by
  have h80 : (0x80#32).getLsbD k = decide (k = 7) := by interval_cases k <;> rfl
  have hwired : (liveBits p .tlbelo0).getLsbD k = false := by
    simp only [liveBits, writeMask, BitVec.getLsbD_and, BitVec.getLsbD_not, getLsbD_lowMask, h80]
    rcases hreserved with rfl | hhigh
    · simp
    · simp [Nat.not_lt.mpr hhigh]
  rw [(wired_iff _ _ _).mp hw k hk hwired]
  simp [wiredBits]

/-- A TLBELO word read into a page-table entry and packed again takes the entry's G, and is else the same (R22). -/
theorem eloWord_ofElo {p : Params} (hp : p.wf = true) {w : Word} (hw : WiredWord p .tlbelo0 w) (g : Bool) :
    eloWord p (Page.ofElo p w) g = setBit w 6 g := by
  obtain ⟨⟨hpalen, -⟩, -, -⟩ := params_bounds hp
  apply BitVec.eq_of_getLsbD_eq
  intro k hk
  rw [getLsbD_setBit]
  by_cases hlow : k < 8
  · have h7 : w[7] = false := getLsbD_elo_reserved hw (by omega) (.inl rfl)
    rw [getLsbD_eloWord]
    interval_cases k <;> simp [Page.ofElo, getBit, getField, h7]
  · obtain ⟨j, rfl⟩ : ∃ j, k = 8 + j := ⟨k - 8, by omega⟩
    have hbit : (Page.ofElo p w).ppn.getLsbD j = (w.getLsbD (8 + j) && decide (j < p.palen - 12)) := by
      simp only [Page.ofElo, getField, BitVec.getLsbD_and, BitVec.getLsbD_extractLsb', getLsbD_lowMask]
      simp [show j < 24 by omega]
    rw [getLsbD_eloWord_ppn, hbit, if_neg (by omega)]
    by_cases hfit : j < p.palen - 12
    · simp [hfit]
    · simp [hfit, getLsbD_elo_reserved hw hk (.inr (by omega))]

/-- TLBRD finds at TLBIDX.Index what TLBWR wrote there. -/
theorem tlbrd_after_tlbwr {s t u : State} (hinv : s.Inv) (hplv : s.plv = 0#2) (hwr : exec .tlbwr s = .next t)
    (hrd : exec .tlbrd t = .next u) : t = (s.fillEntry s.tlbIndex).advance ∧
      u = (t.readTlbEntry (s.csrEntry s.writtenE)).advance := by
  obtain rfl := Host.Outcome.next.inj (hwr.symm.trans (exec_tlbwr hplv))
  have hentry : (s.fillEntry s.tlbIndex).advance.tlb[s.tlbIndex]? = some (s.csrEntry s.writtenE) :=
    fillEntry_at hinv (tlbIndex_lt s)
  exact ⟨rfl, Host.Outcome.next.inj (hrd.symm.trans (exec_tlbrd hplv hentry))⟩

/-- Settles O32: each CSR comes back from the entry it was put into, in a legal state bit for bit but for G. -/
theorem tlbrdAfterTlbwr : Obligations.TlbrdAfterTlbwr := by
  unfold Obligations.TlbrdAfterTlbwr
  intro s t u hinv hplv hvalid hwr hrd
  obtain ⟨rfl, rfl⟩ := tlbrd_after_tlbwr hinv hplv hwr hrd
  rw [writtenE_true hvalid]
  obtain ⟨-, ⟨-, hlen⟩, -⟩ := params_bounds hinv.params_wf
  have helo0 : ((s.fillEntry s.tlbIndex).advance.readTlbEntry (s.csrEntry true)).csr.tlbelo0 =
      setBit s.csr.tlbelo0 6 (s.csrEntry true).g :=
    (readTlbEntry_tlbelo0 _ _).trans (eloWord_ofElo hinv.params_wf (hinv.wiredWord .tlbelo0) _)
  have helo1 : ((s.fillEntry s.tlbIndex).advance.readTlbEntry (s.csrEntry true)).csr.tlbelo1 =
      setBit s.csr.tlbelo1 6 (s.csrEntry true).g :=
    (readTlbEntry_tlbelo1 _ _).trans (eloWord_ofElo hinv.params_wf (hinv.wiredWord .tlbelo1) _)
  exact ⟨(readTlbEntry_tlbehi _ _).trans (vppnWord_getField (hinv.wiredWord .tlbehi)),
    (readTlbEntry_asidWord _ _).trans (setField_getField _ _ _), readTlbEntry_tlbPs _ _, readTlbEntry_ne _ _,
    readTlbEntry_tlbIndex _ _ (hlen.trans (by decide)),
    fun k hk => (congrArg (getBit · k) helo0).trans (getBit_setBit_other _ _ _ _ hk),
    fun k hk => (congrArg (getBit · k) helo1).trans (getBit_setBit_other _ _ _ _ hk),
    (congrArg (getBit · 6) helo0).trans (getBit_setBit_same _ _ _ (by omega)),
    (congrArg (getBit · 6) helo1).trans (getBit_setBit_same _ _ _ (by omega))⟩

end Sys2Proof.Machine
end

section
/-! PROOFS. INVTLB: the entries an op selects, the operands it reads, and the ops that name none (O34, O35, O36). -/

namespace Sys2Proof.Machine

/-! The operations by their numbers (R98). -/

/-- The op that names an operation (R98). -/
def InvOp.number : InvOp → Nat
  | .all => 0
  | .allToo => 1
  | .global => 2
  | .nonGlobal => 3
  | .asid => 4
  | .asidVa => 5
  | .globalOrAsidVa => 6

theorem number_of_invOp {op : BitVec 5} {o : InvOp} (h : invOp op = some o) : op.toNat = o.number := by
  unfold invOp at h
  split at h <;> cases h <;> assumption

/-- The ops 7 to 31 name no operation (R100). -/
theorem invOp_none {op : BitVec 5} (h : 7 ≤ op.toNat) : invOp op = none := by
  cases ho : invOp op with
  | none => rfl
  | some o =>
    have hnumber := number_of_invOp ho
    cases o <;> simp only [InvOp.number] at hnumber <;> omega

/-- The ops from 4 up read the ASID register (R99). -/
theorem usesAsid_iff (o : InvOp) : o.usesAsid = true ↔ 4 ≤ o.number := by
  cases o <;> decide

/-! INVTLB at an entry, where no page size stops it (R97, R98). -/

theorem tlbVaMatch_legal {p : Params} {e : TlbEntry} (h : e.ps.toNat ∈ p.psLegal) (va : Word) :
    tlbVaMatch p e va = .ok (decide (VaAgrees e va)) :=
  tlbVaMatch_ok.mpr ⟨h, (beq_eq_decide _ _).trans (decide_eq_decide.mpr (shifted_eq_iff e va)) |>.symm⟩

/-- The match behind the other conditions on an entry (R98). -/
theorem tlbVaMatch_under {p : Params} {e : TlbEntry} (h : e.ps.toNat ∈ p.psLegal) (va : Word) (c : Bool) :
    (if c then tlbVaMatch p e va else .ok false) = .ok (c && decide (VaAgrees e va)) := by
  cases c with
  | false => rfl
  | true => exact tlbVaMatch_legal h va

/-- The model's selection is the table of R98. -/
theorem selects_of_legal {p : Params} {o : InvOp} {e : TlbEntry} (hps : 5 ≤ o.number → e.ps.toNat ∈ p.psLegal)
    (asid : BitVec 10) (va : Word) : o.selects p e asid va = .ok (selectedBy o.number e asid va) := by
  cases o with
  | all | allToo | global | nonGlobal | asid => rfl
  | asidVa | globalOrAsidVa => exact tlbVaMatch_under (hps (by decide)) va _

/-- Clearing E where an entry is selected: an invalid entry, which INVTLB does not look at, is unchanged either way. -/
theorem onEntry_of_selects {p : Params} {o : InvOp} {asid : BitVec 10} {va : Word} {e : TlbEntry} {sel : Bool}
    (h : e.e = true → o.selects p e asid va = .ok sel) :
    o.onEntry p asid va e = .ok (if sel then { e with e := false } else e) := by
  obtain ⟨valid, _, _, _, _, _, _⟩ := e
  cases valid with
  | false => cases sel <;> rfl
  | true =>
    simp only [InvOp.onEntry, if_true, h rfl]
    cases sel <;> rfl

theorem exec_invtlb {s : State} {op : BitVec 5} {o : InvOp} {rj rk : RegNum} {tlb : List TlbEntry}
    (ho : invOp op = some o) (hplv : s.plv = 0#2)
    (hasid : o.usesAsid = true → getField (s.readReg rj) 10 22 = 0#22)
    (h : o.onTlb s.params (getField (s.readReg rj) 0 10) (s.readReg rk) s.tlb = .ok tlb) :
    exec (.invtlb op rj rk) s = .next { s with tlb := tlb }.advance :=
  execInvtlb_next.mpr (.inr ⟨o, ho, .inl ⟨hplv, fun ⟨huses, hhigh⟩ => hhigh (hasid huses), tlb, h, rfl⟩⟩)

/-- Settles O34: the pass over the TLB is a map of what INVTLB does at one entry. -/
theorem invtlbClears : Obligations.InvtlbClears := by
  unfold Obligations.InvtlbClears
  intro s op rj rk hplv hop hasid hps
  obtain ⟨o, ho⟩ := invOp_some hop
  rw [number_of_invOp ho] at hasid hps ⊢
  have htlb := onTlb_of_map fun e he => onEntry_of_selects fun hv =>
    selects_of_legal (fun hmatch => hps hmatch e he hv) (getField (s.readReg rj) 0 10) (s.readReg rk)
  exact ⟨_, exec_invtlb ho hplv (fun huses => hasid ((usesAsid_iff o).mp huses)) htlb, rfl,
    (SameButTlb.setTlb s _).advance_keeps⟩

/-! The operands (R99). -/

/-- An operation depends on the ASID only where it uses it, and on the address only from op 5 up. -/
theorem selects_operands {o : InvOp} {asid asid' : BitVec 10} {va va' : Word}
    (hasid : o.usesAsid = true → asid = asid') (hva : 5 ≤ o.number → va = va') (p : Params) (e : TlbEntry) :
    o.selects p e asid va = o.selects p e asid' va' := by
  cases o with
  | all | allToo | global | nonGlobal => rfl
  | asid => rw [hasid rfl]; rfl
  | asidVa | globalOrAsidVa => rw [hasid rfl, hva (by decide)]

theorem onTlb_operands {o : InvOp} {asid asid' : BitVec 10} {va va' : Word}
    (hasid : o.usesAsid = true → asid = asid') (hva : 5 ≤ o.number → va = va') (p : Params) (es : List TlbEntry) :
    o.onTlb p asid va es = o.onTlb p asid' va' es := by
  induction es with
  | nil => rfl
  | cons e es ih => simp only [InvOp.onTlb, InvOp.onEntry, selects_operands hasid hva, ih]

/-- INVTLB depends only on the registers its op reads. -/
theorem exec_invtlb_operands {op : BitVec 5} {rj rj' rk rk' : RegNum} (hop : op.toNat ≤ 6)
    (hrj : 4 ≤ op.toNat → rj = rj') (hrk : 5 ≤ op.toNat → rk = rk') (s : State) :
    exec (.invtlb op rj rk) s = exec (.invtlb op rj' rk') s := by
  obtain ⟨o, ho⟩ := invOp_some hop
  rw [number_of_invOp ho, ← usesAsid_iff] at hrj
  rw [number_of_invOp ho] at hrk
  have hasid := fun huses => congrArg (fun r => getField (s.readReg r) 0 10) (hrj huses)
  have htlb := onTlb_operands hasid (fun hmatch => congrArg s.readReg (hrk hmatch)) s.params s.tlb
  have hbody : invtlbBody o rj rk s = invtlbBody o rj' rk' s := by
    simp only [invtlbBody, htlb]
    cases huses : o.usesAsid with
    | false => rfl
    | true => rw [hrj huses]
  simp only [exec, execInvtlb, ho, hbody]

theorem exec_invtlb_highBits {s : State} {op : BitVec 5} {rj rk : RegNum} (hop : 4 ≤ op.toNat) (hop6 : op.toNat ≤ 6)
    (hplv : s.plv = 0#2) (hhigh : getField (s.readReg rj) 10 22 ≠ 0#22) :
    exec (.invtlb op rj rk) s = .refused .invtlbAsidHighBits := by
  obtain ⟨o, ho⟩ := invOp_some hop6
  have huses : o.usesAsid = true := (usesAsid_iff o).mpr (number_of_invOp ho ▸ hop)
  simp only [exec, execInvtlb, ho, atPlv0_plv0 hplv, invtlbBody, huses, Bool.true_and, bne_iff_ne.mpr hhigh, if_true]

/-- Settles O35: a register that is not read may be any other, and r0 reads 0. -/
theorem invtlbOperands : Obligations.InvtlbOperands := by
  unfold Obligations.InvtlbOperands
  intro s op rj rj' rk rk'
  refine ⟨fun hop => exec_invtlb_operands (by omega) (fun _ => by omega) (fun _ => by omega) s,
    fun hop => exec_invtlb_operands (by omega) (fun _ => rfl) (fun _ => by omega) s,
    fun hop hop6 => exec_invtlb_highBits hop hop6, ?_⟩
  rintro - - rfl
  rw [readReg_zero]
  decide

/-- Settles O36: no operation is named, and trap entry does not touch the TLB. -/
theorem undefinedInvtlbOp : Obligations.UndefinedInvtlbOp := by
  unfold Obligations.UndefinedInvtlbOp
  intro s op rj rk hop
  have hnone := invOp_none hop
  have hexc : ∀ b : Bool, (if b then Exc.ipe else .ine) = .ipe ∨ (if b then Exc.ipe else .ine) = .ine := by decide
  exact ⟨fun hplv => ⟨execInvtlb_next.mpr (.inl ⟨hnone, .inl ⟨hplv, rfl⟩⟩), takeException_tlb s .ine _⟩,
    fun hplv => ⟨_, _, hexc (Config.freeIpeOverIne s.draws), execInvtlb_next.mpr (.inl ⟨hnone, .inr ⟨hplv, rfl⟩⟩),
      rfl, takeException_tlb s.tick _ _⟩⟩

end Sys2Proof.Machine
end

section
/-! PROOFS. ERTN, two of them in a row and one right after trap entry, and IDLE (O37, O38, O39, O47). -/

namespace Sys2Proof.Machine

/-! The return from an exception: the bits of CRMD it keeps and its frame (R110, R111). -/

theorem exec_ertn {s : State} (hplv : s.plv = 0#2) : exec .ertn s = .next s.exceptionReturn :=
  atPlv0_plv0 hplv _

theorem getLsbD_exceptionReturn_crmd (s : State) {k : Nat} (hk : 5 ≤ k) :
    s.exceptionReturn.csr.crmd.getLsbD k = s.csr.crmd.getLsbD k := by
  simp only [State.exceptionReturn, State.returnCrmd]
  split
  · rw [getLsbD_setBit, getLsbD_setBit, getLsbD_setBit, getLsbD_setField, if_neg (by omega), if_neg (by omega),
      if_neg (by omega), if_neg (by omega)]
  · rw [getLsbD_setBit, getLsbD_setField, if_neg (by omega), if_neg (by omega)]

/-- The LLbit after ERTN by KLO before it (R111). -/
theorem exceptionReturn_llbit_by_klo (s : State) :
    (s.csr.klo = false → s.exceptionReturn.llbit = false) ∧
      (s.csr.klo = true → s.exceptionReturn.llbit = s.llbit) := by
  rw [exceptionReturn_llbit]
  cases s.csr.klo with
  | false => exact ⟨fun _ => rfl, nofun⟩
  | true => exact ⟨nofun, fun _ => rfl⟩

/-- ERTN writes CRMD, the link and the pc, and nothing else (R110, R111). -/
theorem exceptionReturn_frame (s : State) : Frame [] [.crmd, .llbctl] s s.exceptionReturn where
  regs_kept r _ := readReg_exceptionReturn s r
  csrs_kept c hc := by
    cases c
    case crmd | llbctl => exact absurd (by decide) hc
    all_goals rfl
  params_kept := rfl
  env_kept := rfl

theorem exceptionReturn_sameStores (s : State) : SameStores s s.exceptionReturn :=
  ⟨rfl, cache_exceptionReturn s, fun _ => rfl, rfl⟩

/-- Settles O37: the privilege check, and the return from an exception field by field. -/
theorem ertnReturns : Obligations.ErtnReturns := by
  unfold Obligations.ErtnReturns
  intro s
  refine ⟨fun hplv => atPlv0_plv3 hplv _, fun hplv => ?_⟩
  obtain ⟨hcleared, hprotected⟩ := exceptionReturn_llbit_by_klo s
  exact ⟨_, exec_ertn hplv, exceptionReturn_plv s, exceptionReturn_ie s,
    fun hrefill => ⟨(exceptionReturn_da s).trans (if_pos hrefill), (exceptionReturn_pg s).trans (if_pos hrefill)⟩,
    fun hother => ⟨(exceptionReturn_da s).trans (if_neg hother), (exceptionReturn_pg s).trans (if_neg hother)⟩,
    fun _ => getLsbD_exceptionReturn_crmd s, hcleared, hprotected, rfl, exceptionReturn_pc s,
    exceptionReturn_frame s, exceptionReturn_sameStores s⟩

/-- Settles O38: the first ERTN clears KLO and returns to PLV0, so the second completes with KLO clear. -/
theorem secondErtnClearsLink : Obligations.SecondErtnClearsLink := by
  unfold Obligations.SecondErtnClearsLink
  intro s t hplv hpplv hexec
  obtain rfl : s.exceptionReturn = t := by simpa [exec_ertn hplv] using hexec
  have hplv' : s.exceptionReturn.plv = 0#2 := (exceptionReturn_plv s).trans hpplv
  obtain ⟨hcleared, -⟩ := exceptionReturn_llbit_by_klo s.exceptionReturn
  exact ⟨_, exec_ertn hplv', hcleared rfl, rfl⟩

/-! IDLE (R112, R114). -/

theorem exec_idle {s : State} (hplv : s.plv = 0#2) (level : BitVec 15) :
    exec (.idle level) s = .next { s.advance with idle := true } :=
  atPlv0_plv0 hplv _

/-- Entering the wait writes no register and no CSR (R112). -/
theorem enterWait_frame (s : State) : Frame [] [] s { s.advance with idle := true } where
  regs_kept r _ := readReg_congr rfl r
  csrs_kept c _ := readCsr_congr rfl rfl c
  params_kept := rfl
  env_kept := rfl

theorem enterWait_sameCaches (s : State) : SameCaches s { s.advance with idle := true } := fun c => by
  cases c <;> rfl

/-- Settles O39: no case of IDLE reads `level`, and at PLV0 only the pc and the waiting bit are written. -/
theorem idleWaits : Obligations.IdleWaits := by
  unfold Obligations.IdleWaits
  intro s level level'
  exact ⟨rfl, fun hplv => atPlv0_plv3 hplv _, fun hplv => ⟨_, exec_idle hplv level, rfl, rfl, enterWait_frame s, rfl,
    enterWait_sameCaches s, fun _ => rfl, ⟨rfl, rfl⟩⟩⟩

/-! ERTN right after trap entry (R110, R136). -/

/-- CRMD is its four fields that trap entry and ERTN write, and the bits above them (R16). -/
theorem crmd_ext {s t : State} (hplv : t.plv = s.plv) (hie : t.ie = s.ie) (hda : t.da = s.da) (hpg : t.pg = s.pg)
    (hhigh : ∀ k, 5 ≤ k → t.csr.crmd.getLsbD k = s.csr.crmd.getLsbD k) : t.csr.crmd = s.csr.crmd := by
  have hlow : ∀ k, k < 2 → t.csr.crmd.getLsbD k = s.csr.crmd.getLsbD k := fun k hk => by
    simpa [State.plv, getField, hk] using congrArg (·.getLsbD k) hplv
  apply BitVec.eq_of_getLsbD_eq
  intro k _
  match k with
  | 0 => exact hlow 0 (by omega)
  | 1 => exact hlow 1 (by omega)
  | 2 => exact hie
  | 3 => exact hda
  | 4 => exact hpg
  | k + 5 => exact hhigh (k + 5) (by omega)

/-- Only TLB refill has the code on which ERTN turns mapped mode on again (R125, R110). -/
theorem ecode_refill_iff (x : Exc) : x.ecode = 0x3F#6 ↔ x = .tlbr := by
  cases x <;> decide

/-- The translation mode comes back: it is kept both ways, or it was mapped mode before a TLB refill. -/
theorem mode_of_return_after_entry {s : State} {x : Exc} (hmapped : x = .tlbr → s.da = false ∧ s.pg = true)
    (badv : Word) : (s.takeException x badv).exceptionReturn.da = s.da ∧
      (s.takeException x badv).exceptionReturn.pg = s.pg := by
  rw [exceptionReturn_da, exceptionReturn_pg, takeException_ecode, takeException_da, takeException_pg]
  simp only [ecode_refill_iff]
  by_cases hx : x = .tlbr
  · obtain ⟨hda, hpg⟩ := hmapped hx
    simp only [if_pos hx, hda, hpg, and_self]
  · simp only [if_neg hx, and_self]

theorem crmd_of_return_after_entry {s : State} {x : Exc} (hmapped : x = .tlbr → s.da = false ∧ s.pg = true)
    (badv : Word) : (s.takeException x badv).exceptionReturn.csr.crmd = s.csr.crmd := by
  obtain ⟨hda, hpg⟩ := mode_of_return_after_entry hmapped badv
  refine crmd_ext ?_ ?_ hda hpg fun k hk => ?_
  · rw [exceptionReturn_plv, takeException_pplv]
  · rw [exceptionReturn_ie, takeException_pie]
  · rw [getLsbD_exceptionReturn_crmd _ hk, getLsbD_takeException_crmd _ _ _ hk]

/-- Settles O47: trap entry leads to PLV0, so ERTN completes, and each field it writes was saved there. -/
theorem ertnInvertsTrapEntry : Obligations.ErtnInvertsTrapEntry := by
  unfold Obligations.ErtnInvertsTrapEntry
  intro s x badv hmapped
  refine ⟨_, exec_ertn (takeException_plv s x badv), ?_, crmd_of_return_after_entry hmapped badv, fun r => ?_⟩
  · rw [exceptionReturn_pc, takeException_era]
  · rw [readReg_exceptionReturn, readReg_takeException]

end Sys2Proof.Machine
end

section
/-! PROOFS. What a step from PLV3 can do, and what it keeps (O43, O44). -/

namespace Sys2Proof.Machine

/-! What PLV3 may not change (R121, R122). -/

/-- The general registers, the TLB, the link, the parameters and every CSR but those listed are as before. -/
structure SamePrivileged (csrs : List Csr) (s t : State) : Prop where
  regs_kept : ∀ r, t.readReg r = s.readReg r
  tlb_kept : t.tlb = s.tlb
  link_kept : SameLink s t
  params_kept : t.params = s.params
  csrs_kept : ∀ c, c ∉ csrs → t.readCsr c = s.readCsr c

theorem Frame.samePrivileged {csrs : List Csr} {s t : State} (h : Frame [] csrs s t) (htlb : t.tlb = s.tlb)
    (hlink : SameLink s t) : SamePrivileged csrs s t :=
  ⟨fun r => h.regs_kept r List.not_mem_nil, htlb, hlink, h.params_kept, h.csrs_kept⟩

namespace SamePrivileged

variable {csrs csrs' : List Csr} {s t u : State}

theorem refl (s : State) (csrs : List Csr) : SamePrivileged csrs s s :=
  ⟨fun _ => rfl, rfl, ⟨rfl, rfl⟩, rfl, fun _ _ => rfl⟩

/-- The count of draws is the model's own (log 10). -/
theorem setDraws (h : SamePrivileged csrs s t) (draws : Nat) : SamePrivileged csrs s { t with draws := draws } where
  regs_kept := h.regs_kept
  tlb_kept := h.tlb_kept
  link_kept := ⟨h.link_kept.llbit_kept, h.link_kept.klo_kept⟩
  params_kept := h.params_kept
  csrs_kept := h.csrs_kept

theorem mono (h : SamePrivileged csrs s t) (hsub : csrs ⊆ csrs') : SamePrivileged csrs' s t :=
  { h with csrs_kept := fun c hc => h.csrs_kept c fun hin => hc (hsub hin) }

theorem trans (h : SamePrivileged csrs s u) (h' : SamePrivileged csrs u t) : SamePrivileged csrs s t where
  regs_kept r := (h'.regs_kept r).trans (h.regs_kept r)
  tlb_kept := h'.tlb_kept.trans h.tlb_kept
  link_kept := ⟨h'.link_kept.llbit_kept.trans h.link_kept.llbit_kept, h'.link_kept.klo_kept.trans h.link_kept.klo_kept⟩
  params_kept := h'.params_kept.trans h.params_kept
  csrs_kept c hc := (h'.csrs_kept c hc).trans (h.csrs_kept c hc)

/-- The level is a field of CRMD (R16). -/
theorem plv (h : SamePrivileged csrs s t) (hcrmd : .crmd ∉ csrs) : t.plv = s.plv :=
  congrArg (getField · 0 2) (h.csrs_kept .crmd hcrmd)

end SamePrivileged

/-- The inputs are sampled into ESTAT (R131). -/
theorem sampled_samePrivileged (s : State) : SamePrivileged [.estat] s s.sampled := by
  unfold State.sampled
  split
  · refine ⟨fun _ => rfl, rfl, ⟨rfl, rfl⟩, rfl, fun c hc => ?_⟩
    cases c
    case estat => exact absurd List.mem_cons_self hc
    all_goals rfl
  · exact .refl s _
  · exact .refl s _

/-! The two ways a step from PLV3 can go (R123). -/

/-- A step at PLV3 keeps what is privileged, or is trap entry. Any count of draws may come with trap entry:
INVTLB with an undefined op draws its exception (R100). -/
inductive UserStep (s : State) : State → Prop where
  | stays {t : State} (h : SamePrivileged [] s t) : UserStep s t
  | traps (x : Exc) (badv : Word) (draws : Nat) : UserStep s { s.takeException x badv with draws := draws }

namespace UserStep

variable {s t : State}

theorem takeException (s : State) (x : Exc) (badv : Word) : UserStep s (s.takeException x badv) :=
  traps x badv s.draws

theorem of_atPlv0 {body : Host.Outcome State Fault Refusal} (hplv : s.plv = 3#2) (h : s.atPlv0 body = .next t) :
    UserStep s t := by
  rw [atPlv0_plv3 hplv] at h
  cases h
  exact takeException s .ipe 0#32

/-- A Hit-class CACOP raises what its translation does, or touches caches and memory only (R86). -/
theorem of_hitCacop {code : BitVec 5} {va : Word} (hkind : cacopKind code = .hitInvalidate)
    (h : cacopBody code va s = .next t) : UserStep s t := by
  rw [cacopBody_next] at h
  simp only [hkind, reduceCtorEq, false_and, true_and, false_or, or_false] at h
  obtain ⟨c, -, ⟨a, -, rfl⟩ | ⟨x, -, rfl⟩⟩ := h
  · obtain ⟨htlb, -, hframe, hlink⟩ := (hitInvalidate_sameButCachesAndMemory s c a).advance_keeps
    exact stays (hframe.samePrivileged htlb hlink)
  · exact takeException s x va

theorem of_exec {i : Instr} (hplv : s.plv = 3#2) (h : exec i s = .next t) : UserStep s t := by
  cases i with
  | cacop code rj si12 =>
    by_cases hkind : cacopKind code = .hitInvalidate
    · exact of_hitCacop hkind ((execCacop_hit_plv3 hkind hplv rj si12).symm.trans h)
    · rw [exec, execCacop_not_hit_plv3 hkind hplv] at h
      cases h
      exact takeException s .ipe 0#32
  | invtlb op rj rk =>
    cases hop : invOp op with
    | none =>
      simp only [exec, execInvtlb, hop, undefinedInvtlb, level_plv3.mpr hplv] at h
      cases h
      exact traps _ 0#32 (s.draws + 1)
    | some o =>
      simp only [exec, execInvtlb, hop] at h
      exact of_atPlv0 hplv h
  | _ => exact of_atPlv0 hplv h

theorem of_coreStep {already : Bool} (hplv : s.plv = 3#2) (h : coreStep already s = .next t) : UserStep s t := by
  obtain ⟨-, ⟨-, rfl⟩ | ⟨-, -, rfl⟩ | ⟨-, -, ⟨i, -, hexec⟩ | ⟨x, -, rfl⟩⟩⟩ := coreStep_next h
  · exact stays ((waitStep_frame s already).samePrivileged rfl ⟨rfl, rfl⟩)
  · exact takeException s .int 0#32
  · exact of_exec hplv hexec
  · exact takeException s x s.pc

/-- Whichever way it goes, only the CSRs that trap entry writes may differ (R136). -/
theorem samePrivileged (h : UserStep s t) : SamePrivileged [.crmd, .prmd, .era, .estat, .badv, .tlbehi] s t := by
  cases h with
  | stays h => exact h.mono (List.nil_subset _)
  | traps x badv draws =>
    have htrap := (takeException_frame s x badv).samePrivileged rfl (takeException_sameLink s x badv)
    exact (htrap.setDraws draws).mono (by simp)

/-- Trap entry leaves PLV3, so a step that stays there keeps every CSR. -/
theorem readCsr_of_stays (h : UserStep s t) (hplv : t.plv = 3#2) (c : Csr) : t.readCsr c = s.readCsr c := by
  cases h with
  | stays h => exact h.csrs_kept c List.not_mem_nil
  | traps x badv draws =>
    have h0 : (3#2 : BitVec 2) = 0#2 := hplv.symm.trans (takeException_plv s x badv)
    exact absurd h0 (by decide)

end UserStep

/-- Trap entry goes to one of two aligned addresses (R136, R137). -/
theorem entryOf_cases (s : State) (x : Exc) : s.entryOf x = s.csr.eentry &&& 0xFFFFFFC0#32 ∨
    s.entryOf x = s.csr.tlbrentry &&& 0xFFFFFFC0#32 := by
  unfold State.entryOf
  split
  · exact .inr rfl
  · exact .inl rfl

/-- Settles O43: a step of the core that leaves PLV3 is trap entry on the sampled state, whose entry addresses
and pc are those before the sample. -/
theorem onlyTrapOrResetLeavesPlv3 : Obligations.OnlyTrapOrResetLeavesPlv3 := by
  unfold Obligations.OnlyTrapOrResetLeavesPlv3
  intro s t hplv hstep hleft
  obtain ⟨env, henv, -⟩ | ⟨-, hcore⟩ := step_next hstep
  · exact .inl ⟨env, henv⟩
  · have hplv' : s.sampled.plv = 3#2 := (sampled_plv s).trans hplv
    cases UserStep.of_coreStep hplv' hcore with
    | stays h => exact absurd ((h.plv List.not_mem_nil).trans hplv') hleft
    | traps x badv draws =>
      have heentry : s.sampled.csr.eentry = s.csr.eentry := (sampled_samePrivileged s).csrs_kept .eentry (by decide)
      have htlbrentry : s.sampled.csr.tlbrentry = s.csr.tlbrentry :=
        (sampled_samePrivileged s).csrs_kept .tlbrentry (by decide)
      rw [← heentry, ← htlbrentry]
      exact .inr ⟨takeException_plv s.sampled x badv, takeException_ie s.sampled x badv,
        (takeException_pplv s.sampled x badv).trans hplv', sampled_pc s, entryOf_cases s.sampled x⟩

/-- Settles O44: the sample writes ESTAT, and the step of the core on the sampled state keeps what is privileged
or is trap entry. -/
theorem userModeKeepsPrivilegedState : Obligations.UserModeKeepsPrivilegedState := by
  unfold Obligations.UserModeKeepsPrivilegedState
  intro s t hplv hs hstep
  rw [step_of_coreSteps hs] at hstep
  have huser := UserStep.of_coreStep ((sampled_plv s).trans hplv) hstep
  obtain ⟨hregs, htlb, hlink, hparams, hcsrs⟩ :=
    ((sampled_samePrivileged s).mono (by simp)).trans huser.samePrivileged
  exact ⟨hregs, htlb, hlink, hparams, hcsrs, huser.readCsr_of_stays⟩

end Sys2Proof.Machine
end

section
/-! PROOFS. The codes of the exceptions, and the interrupt taken before the fetch (O45, O48). -/

namespace Sys2Proof.Machine

/-- Settles O45: the table of R125 is evaluated. -/
theorem exceptionCodes : Obligations.ExceptionCodes := by
  unfold Obligations.ExceptionCodes
  decide

/-- The step that takes an interrupt fetches nothing (R133). -/
theorem step_of_interrupt {s : State} (hs : CoreSteps s) (hlevel : LegalLevel s.sampled)
    (hidle : s.sampled.idle = false) (hdue : InterruptDue s.sampled) : step s = .next (s.sampled.raise .int) := by
  rw [step_of_coreSteps hs, coreStep, if_neg (level_of_legal hlevel), if_neg (ne_true_of_eq_false hidle),
    if_pos ((takesInterrupt_iff _).mpr hdue)]

/-- An exception without an address leaves BADV too (R136). -/
theorem takeException_frame_without_address (s : State) {x : Exc} (hvppn : x.recordsVppn = false)
    (hbadv : x.recordsBadv = false) (badv : Word) :
    Frame [] [.prmd, .crmd, .era, .estat] s (s.takeException x badv) := by
  refine (takeException_frame_without_vppn s hvppn badv).without fun c hin hout => ?_
  obtain rfl : c = .badv := by cases c <;> simp_all
  exact (takeException_badv s x badv).trans (by rw [hbadv]; rfl)

/-- Trap entry turns interrupts off, so none is due in its state (R133, R136). -/
theorem takeException_not_interruptDue (s : State) (x : Exc) (badv : Word) :
    ¬ InterruptDue (s.takeException x badv) :=
  fun ⟨hie, _⟩ => ne_true_of_eq_false (takeException_ie s x badv) hie

/-- Settles O48: IE with a pending and enabled line is what the core looks at before the fetch, and INT is an
exception that records no address. -/
theorem interruptTakenFirst : Obligations.InterruptTakenFirst := by
  unfold Obligations.InterruptTakenFirst
  rintro s _ hs rfl hlevel hidle hie henabled
  exact ⟨_, step_of_interrupt hs hlevel hidle ⟨hie, henabled⟩, rfl, rfl, takeException_ecode _ _ _,
    takeException_esubcode _ _ _, takeException_pplv _ _ _, (takeException_pie _ _ _).trans hie,
    takeException_plv _ _ _, takeException_ie _ _ _, takeException_not_interruptDue _ _ _,
    entryOf_of_ne_tlbr _ (by decide), takeException_frame_without_address _ rfl rfl _,
    takeException_sameStores _ _ _, takeException_sameLink _ _ _⟩

end Sys2Proof.Machine
end

section
/-! PROOFS. The reset state's mode, and the reset event (O53, O54). -/

namespace Sys2Proof.Machine

/-- Settles O53: whatever the parameters and memory are, CRMD is 8 and ECFG is 0 (R151), and the mode and the
masks are fields of these. -/
theorem resetModeAndMasks : Obligations.ResetModeAndMasks := by
  unfold Obligations.ResetModeAndMasks
  rintro p m _ rfl
  change getField Csrs.atReset.crmd 0 2 = 0#2 ∧ getBit Csrs.atReset.crmd 2 = false ∧
    Csrs.atReset.ecfg.extractLsb' 0 13 = 0#13 ∧ getBit Csrs.atReset.crmd 3 = true ∧
    getBit Csrs.atReset.crmd 4 = false
  decide

/-! The fields R151 defines in a CSR that is otherwise free. -/

theorem getLsbD_freeFields_of_known (d : Nat) (c : Csr) {mask : Word} (known : Word) {i : Nat} (hi : i < 32)
    (hmask : mask.getLsbD i = false) : (freeFields d c mask known).getLsbD i = known.getLsbD i := by
  rw [getLsbD_freeFields d c mask known i hi, if_neg (ne_true_of_eq_false hmask)]

theorem extractLsb'_freeFields_of_known (d : Nat) (c : Csr) {mask : Word} (known : Word) {lo len : Nat}
    (hlen : lo + len ≤ 32) (hmask : mask.extractLsb' lo len = 0#len) :
    (freeFields d c mask known).extractLsb' lo len = known.extractLsb' lo len := by
  refine BitVec.eq_of_getLsbD_eq fun k hk => ?_
  have hbit : mask.getLsbD (lo + k) = false := by
    simpa [BitVec.getLsbD_extractLsb', hk] using congrArg (·.getLsbD k) hmask
  rw [BitVec.getLsbD_extractLsb', BitVec.getLsbD_extractLsb',
    getLsbD_freeFields_of_known d c known (by omega) hbit]

/-- IS[1:0] is no sampled input, so what ESTAT keeps leaves it 0 (R19, R151). -/
theorem resetEvent_softwareInterrupts (s : State) : s.resetEvent.csr.estat.extractLsb' 0 2 = 0#2 := by
  have hinputs : (s.csr.estat &&& 0x00001BFC#32).extractLsb' 0 2 = 0#2 := by
    rw [BitVec.extractLsb'_and]
    exact BitVec.and_zero
  rw [resetEvent_csr]
  exact (extractLsb'_freeFields_of_known s.draws .estat _ (by decide) (by decide)).trans hinputs

/-- Above ASID's field stand ASIDBITS, which is 10, and zeros (R20, R151). -/
theorem resetEvent_asidBits (s : State) : s.resetEvent.csr.asid.extractLsb' 10 22 = 0x280#22 := by
  have hfield : (writeMask s.params .asid).extractLsb' 10 22 = 0#22 := by
    simp only [writeMask]
    decide
  rw [resetEvent_csr]
  exact extractLsb'_freeFields_of_known s.draws .asid _ (by decide) hfield

/-- Neither window has a PLV bit set after reset (R151). -/
theorem resetEvent_windowsOff (s : State) {i : Nat} (hi : i = 0 ∨ i = 3) :
    s.resetEvent.csr.dmw0.getLsbD i = false ∧ s.resetEvent.csr.dmw1.getLsbD i = false := by
  have known : ∀ c, (freeFields s.draws c 0xEE000030#32 0#32).getLsbD i = false := fun c => by
    obtain rfl | rfl := hi <;> exact getLsbD_freeFields_of_known s.draws c 0#32 (by decide) (by decide)
  rw [resetEvent_csr]
  exact ⟨known .dmw0, known .dmw1⟩

theorem resetEvent_tlb_length (s : State) : s.resetEvent.tlb.length = s.params.tlbEntries := by
  rw [resetEvent_tlb, List.length_map, List.length_range]

/-! The step of the reset event, and the fetch after it. -/

theorem step_of_reset {s : State} {env : List EnvEvent} (h : s.env = .reset :: env) :
    step s = .next { s with env := env }.resetEvent := by
  simp only [step, h]

/-- Reset leaves direct address mode, so the first fetch is from the pc itself, kept to PALEN bits (R48, R150). -/
theorem translate_resetEvent_pc (s : State) : ∃ a, translate s.resetEvent s.resetEvent.pc .fetch = .pa a ∧
    a.toNat = s.params.resetPc.toNat % 2 ^ s.params.palen := by
  refine ⟨_, translate_direct (resetEvent_da s) (resetEvent_pg s) _ .fetch, ?_⟩
  rw [toPhys_toNat, BitVec.toNat_setWidth_of_le (by decide), resetEvent_pc, resetEvent_params]

/-- Settles O54: the step is the reset event whatever else the state holds, and its clauses are the rows of
R151. -/
theorem resetEventRestarts : Obligations.ResetEventRestarts := by
  unfold Obligations.ResetEventRestarts
  intro s env henv
  obtain ⟨hdmw0_plv0, hdmw1_plv0⟩ := resetEvent_windowsOff { s with env := env } (.inl rfl)
  obtain ⟨hdmw0_plv3, hdmw1_plv3⟩ := resetEvent_windowsOff { s with env := env } (.inr rfl)
  have hcsr := resetEvent_csr { s with env := env }
  exact ⟨_, step_of_reset henv, resetEvent_idle _, resetEvent_pc _, readReg_zero _, congrArg Csrs.crmd hcsr,
    resetEvent_plv _, resetEvent_ie _, congrArg Csrs.ecfg hcsr, resetEvent_softwareInterrupts _,
    resetEvent_asidBits _, resetEvent_llbit _, congrArg Csrs.klo hcsr, hdmw0_plv0, hdmw0_plv3, hdmw1_plv0,
    hdmw1_plv3, resetEvent_tlb_length _, translate_resetEvent_pc _⟩

end Sys2Proof.Machine
end
